-- ==== Sys2Proof/Word.lean ====
section
/-! DEFINITION. Word types of the block (spec/00_scope.md R14): `u8`, `u16`, the raw pin word and the raw bits of an `f32`. -/

namespace Sys2Proof

/-- `u8` (R14): a register, an instruction byte, a storage byte, the bus data view. -/
abbrev Byte := BitVec 8

/-- `u16` (R14): a CPU address, the program counter, the bus address view. -/
abbrev Addr := BitVec 16

/-- The raw pin word of the bus (R21).  `BUS_WIDTH` is at most 255 (R7), so 255 bits hold every bus;
the bits from `BUS_WIDTH` up do not exist and stay 0 (`Safety.lean`, `State.pinsOk`). -/
abbrev Pins := BitVec 255

/-- The bits of an `f32` (R29), IEEE-754 binary32 (PRESUMED, assumption log 7). -/
abbrev F32 := BitVec 32

end Sys2Proof
end

