-- ==== Sys2Proof/Config.lean ====
section
/-! DEFINITION. What an implementation fixes (spec/00_scope.md R7), the agents and their scheduled steps (R8–R11), and
the one free value of the model: which agent steps next when no schedule is given (20_memory.md R69). -/

namespace Sys2Proof

/-- A bus owner (R9).  The clock never requests the bus. -/
inductive ComponentId where
  | cpu
  | chip (k : Nat)
  | host
  deriving DecidableEq, Repr

/-- The agents that the host can stop (R13). -/
inductive AgentId where
  | cpu
  | chip (k : Nat)
  | clock
  deriving DecidableEq, Repr

/-- `KIND[k]` (R7).  The kinds differ only in their creation fill (R24, R145). -/
inductive ChipKind where
  | rom | ram
  deriving DecidableEq, Repr

/-- The parameters of one chip: `KIND[k]` and `CAP[k]` (R7). -/
structure ChipConfig where
  kind : ChipKind
  capacity : Nat
  deriving DecidableEq, Repr

/-- One decoder mapping `(start, end inclusive, chip)` (R16, R160). -/
structure Mapping where
  first : Addr
  last : Addr
  chip : Nat
  deriving DecidableEq, Repr

/-- The implementation parameters (R7).  They are fixed when the system is assembled and no step changes them (R28). -/
structure Config where
  /-- `BUS_WIDTH`. -/
  busWidth : Nat
  /-- `CAP[k]` and `KIND[k]`, chip 0 first; `NCHIPS` is the length. -/
  chips : List ChipConfig
  /-- `MAPPINGS`, in insertion order (R28). -/
  mappings : List Mapping
  /-- `RESET_VECTOR`. -/
  resetVector : Addr
  /-- `SPEED_HZ0`. -/
  speedHz0 : F32
  /-- `BUS_TIMEOUT`; timing only, no rule reads it. -/
  busTimeout : Nat
  /-- `POLL_ACTIVE`; timing only, no rule reads it. -/
  pollActive : Nat
  /-- `POLL_IDLE`; timing only, no rule reads it. -/
  pollIdle : Nat
  deriving DecidableEq, Repr

/-- `add_mapping` (R168): appends; it never fails and accepts any range. -/
def Config.addMapping (c : Config) (m : Mapping) : Config :=
  { c with mappings := c.mappings ++ [m] }

/-- The reference system SYS-R (95_test_vectors.md): RAM at 0x0000–0x3FFF, ROM at 0x8000–0xFFFF.  The values the spec
leaves open (`SPEED_HZ0`, the three durations) are DESIGN CHOICE, assumption log 8. -/
def Config.reference : Config where
  busWidth := 32
  chips := [⟨.ram, 32768⟩, ⟨.rom, 32768⟩]
  mappings := [⟨0x0000, 0x3FFF, 0⟩, ⟨0x8000, 0xFFFF, 1⟩]
  resetVector := 0xFFFC
  speedHz0 := 0x41200000
  busTimeout := 1
  pollActive := 1
  pollIdle := 1

/-- A set of a chip's pins that one host step drives; `none` leaves the pin as it is (R130). -/
structure ChipDrive where
  ceN : Option Bool := none
  oeN : Option Bool := none
  weN : Option Bool := none
  aPins : Option Addr := none
  dPins : Option Byte := none
  deriving DecidableEq, Repr

/-- A set of the CPU's input pins that one host step drives; `none` leaves the pin as it is (R222).  `PHI0` is not
among them: it is the clock's pin. -/
structure CpuDrive where
  rdy : Option Bool := none
  resb : Option Bool := none
  irqb : Option Bool := none
  nmib : Option Bool := none
  deriving DecidableEq, Repr

/-- What an inspection accessor reads (R223). -/
inductive Query where
  | a | x | y | sp | pc
  | flagN | flagV | flagU | flagB | flagD | flagI | flagZ | flagC
  /-- The flags packed into one byte (R36). -/
  | packedFlags
  | execState
  | pinRwb | pinSync | pinRdy | pinIrqb | pinNmib | pinResb | pinPhi0
  deriving DecidableEq, Repr

/-- The host's actions, each one atomic step (R11, by the number of its table row). -/
inductive HostAction where
  /-- 1: bus accessors (R108–R115). -/
  | writeAddress (addr : Addr)
  | readAddress
  | writeData (d : Byte)
  | readData
  | setPin (i : Nat) (v : Bool)
  | getPin (i : Nat)
  | resetBus
  /-- 2: `request(Host)`, try step, and `release(Host)` (R101, R106, R107, R119). -/
  | request
  | release
  /-- 3: bus power (R116). -/
  | setPower (v : Bool)
  /-- 4: drive pins of chip `k` (R130). -/
  | driveChip (k : Nat) (p : ChipDrive)
  /-- 5: direct accessors of chip `k` (R140–R144). -/
  | readByte (k : Nat) (a : Nat)
  | writeByte (k : Nat) (a : Nat) (v : Byte)
  | readWord (k : Nat) (a : Nat)
  | writeWord (k : Nat) (a : Nat) (w : Addr)
  /-- 6: the decoder's `read` and `write` (R162–R165). -/
  | decoderRead (addr : Addr)
  | decoderWrite (addr : Addr) (v : Byte)
  /-- 7: the clock's operations (R181–R185). -/
  | clockStep
  | sasm
  | smsm
  | setSpeed (s : F32)
  | getSpeed
  /-- 8: the CPU's host interface (R201, R222, R223). -/
  | powerOn
  | driveCpu (p : CpuDrive)
  | inspect (q : Query)
  /-- 9: clear an agent's run flag (R13). -/
  | stop (a : AgentId)
  deriving DecidableEq, Repr

/-- One entry of the schedule: which agent steps, and which of its steps where it has two (R8, R10, R102, R103). -/
inductive Event where
  /-- The CPU's step; in a wait phase, its grant step (R102). -/
  | cpu
  /-- The CPU's timeout step in a wait phase (R103). -/
  | cpuTimeout
  /-- The CPU's steps from a dispatch (or from `PowerOn`) to the next `WAIT_LO`, with no other agent's step between
  them: an abbreviation of such a run of CPU steps (assumption log 2). -/
  | cpuSpan
  /-- Chip `k`'s step; in `C_WAIT`, its grant step (R131, R134). -/
  | chip (k : Nat)
  /-- Chip `k`'s timeout step in `C_WAIT` (R135). -/
  | chipTimeout (k : Nat)
  /-- The oscillator's step (R186). -/
  | clock
  /-- The host's grant step in `H_WAIT` (R119). -/
  | hostGrant
  /-- The host's timeout step in `H_WAIT` (R119). -/
  | hostTimeout
  /-- A host action (R11). -/
  | host (act : HostAction)
  deriving DecidableEq, Repr, Inhabited

/-- FREE VALUE (assumption log 1): the event the `n`-th unscheduled step takes.  "The model leaves the interleaving free
and quantifies over every one" (R69): nothing is known of it. -/
opaque Config.freeEvent : Nat → Event

end Sys2Proof
end

