-- ==== Sys2Proof/Syntax.lean ====
section
/-! DEFINITION. The instruction set as syntax (spec/30_encoding.md R83, R87): one constructor of `Instr` per row of
spec/opcode_table.json, with the operand the row's format gives it. -/

namespace Sys2Proof

/-- The three instruction formats (R83): one, two and three bytes. -/
inductive Format where
  | imp | imm | abs
  deriving DecidableEq, Repr

/-- How many bytes an instruction of the format has (R83, R86). -/
def Format.length : Format → Nat
  | .imp => 1
  | .imm => 2
  | .abs => 3

/-- The seventeen mnemonics of the opcode map (R87). -/
inductive Mnemonic where
  | ldaImm | ldxImm | ldyImm
  | ldaAbs | ldxAbs | ldyAbs | staAbs
  | inx | iny | dex | dey
  | tax | txa | tay | tya
  | nop | brk
  deriving DecidableEq, Repr

/-- The instructions of the subset (R2, R87).  An immediate is the byte itself (R84); an absolute operand is the
effective address `{hi, lo}` (R85). -/
inductive Instr where
  /-- `LDA #imm` (R245). -/
  | ldaImm (imm : Byte)
  /-- `LDX #imm` (R246). -/
  | ldxImm (imm : Byte)
  /-- `LDY #imm` (R247). -/
  | ldyImm (imm : Byte)
  /-- `LDA abs` (R248). -/
  | ldaAbs (ea : Addr)
  /-- `LDX abs` (R249). -/
  | ldxAbs (ea : Addr)
  /-- `LDY abs` (R250). -/
  | ldyAbs (ea : Addr)
  /-- `STA abs` (R251). -/
  | staAbs (ea : Addr)
  /-- `INX` (R271). -/
  | inx
  /-- `INY` (R272). -/
  | iny
  /-- `DEX` (R273). -/
  | dex
  /-- `DEY` (R274). -/
  | dey
  /-- `TAX` (R275). -/
  | tax
  /-- `TXA` (R276). -/
  | txa
  /-- `TAY` (R277). -/
  | tay
  /-- `TYA` (R278). -/
  | tya
  /-- `NOP` (R279). -/
  | nop
  /-- `BRK`, the halt instruction of this block (R280). -/
  | brk
  deriving DecidableEq, Repr

/-- The mnemonic of an instruction. -/
def Instr.mnemonic : Instr → Mnemonic
  | .ldaImm _ => .ldaImm
  | .ldxImm _ => .ldxImm
  | .ldyImm _ => .ldyImm
  | .ldaAbs _ => .ldaAbs
  | .ldxAbs _ => .ldxAbs
  | .ldyAbs _ => .ldyAbs
  | .staAbs _ => .staAbs
  | .inx => .inx
  | .iny => .iny
  | .dex => .dex
  | .dey => .dey
  | .tax => .tax
  | .txa => .txa
  | .tay => .tay
  | .tya => .tya
  | .nop => .nop
  | .brk => .brk

/-- The format of an instruction (R87, column "format"). -/
def Instr.format : Instr → Format
  | .ldaImm _ | .ldxImm _ | .ldyImm _ => .imm
  | .ldaAbs _ | .ldxAbs _ | .ldyAbs _ | .staAbs _ => .abs
  | .inx | .iny | .dex | .dey | .tax | .txa | .tay | .tya | .nop | .brk => .imp

/-- The length of an instruction in bytes (R86). -/
def Instr.length (i : Instr) : Nat := i.format.length

end Sys2Proof
end

