-- ==== Sys2Proof/WellFormed.lean ====
section
/-! DEFINITION. Which terms are legal: an instruction (spec/30_encoding.md R84, R85) and an assembly's parameters
(spec/00_scope.md R7). -/

namespace Sys2Proof

/-- Every `Instr` term is an instruction: an operand is a `u8` or a `u16` by its type, no value of it is reserved
(R84, R85, R88), and no opcode has a mode (R86).  So there is no ill-formed term to refuse. -/
def Instr.wellFormed : Instr → Bool
  | .ldaImm _ | .ldxImm _ | .ldyImm _ => true
  | .ldaAbs _ | .ldxAbs _ | .ldyAbs _ | .staAbs _ => true
  | .inx | .iny | .dex | .dey | .tax | .txa | .tay | .tya | .nop | .brk => true

/-- `24 ≤ BUS_WIDTH ≤ 255` (R7). -/
def Config.widthOk (c : Config) : Bool := decide (24 ≤ c.busWidth) && decide (c.busWidth ≤ 255)

/-- `NCHIPS ≥ 1` (R7). -/
def Config.someChip (c : Config) : Bool := !c.chips.isEmpty

/-- `1 ≤ CAP[k] ≤ 65536` (R7). -/
def ChipConfig.wellFormed (k : ChipConfig) : Bool := decide (1 ≤ k.capacity) && decide (k.capacity ≤ 65536)

/-- Every mapping names a chip of the assembly: a `ChipHandle` is the handle of a chip (R16).  `start > end` is legal
(R160), and so are overlaps (R166) and ranges larger than the chip (R167). -/
def Config.mappingsOk (c : Config) : Bool := c.mappings.all fun m => decide (m.chip < c.chips.length)

/-- The three durations are positive (R7). -/
def Config.durationsOk (c : Config) : Bool :=
  decide (0 < c.busTimeout) && decide (0 < c.pollActive) && decide (0 < c.pollIdle)

/-- The constraints of the parameter table (R7). -/
def Config.wellFormed (c : Config) : Bool :=
  c.widthOk && c.someChip && c.chips.all ChipConfig.wellFormed && c.mappingsOk && c.durationsOk

end Sys2Proof
end

