-- ==== Sys2Proof/Decode.lean ====
section
/-! DEFINITION. The opcode map, the decoder and the encoder (spec/30_encoding.md R83–R88, R91). -/

namespace Sys2Proof

/-- One row of the opcode map (R87). -/
structure OpcodeRow where
  opcode : Byte
  mnemonic : Mnemonic
  format : Format
  deriving DecidableEq, Repr

/-- The opcode map of the subset (R87), the default of the parameter `OPCODE_MAP` (assumption log 9). -/
def opcodeMap : List OpcodeRow :=
  [⟨0xA9, .ldaImm, .imm⟩, ⟨0xA2, .ldxImm, .imm⟩, ⟨0xA0, .ldyImm, .imm⟩,
   ⟨0xAD, .ldaAbs, .abs⟩, ⟨0xAE, .ldxAbs, .abs⟩, ⟨0xAC, .ldyAbs, .abs⟩, ⟨0x8D, .staAbs, .abs⟩,
   ⟨0xE8, .inx, .imp⟩, ⟨0xC8, .iny, .imp⟩, ⟨0xCA, .dex, .imp⟩, ⟨0x88, .dey, .imp⟩,
   ⟨0xAA, .tax, .imp⟩, ⟨0x8A, .txa, .imp⟩, ⟨0xA8, .tay, .imp⟩, ⟨0x98, .tya, .imp⟩,
   ⟨0xEA, .nop, .imp⟩, ⟨0x00, .brk, .imp⟩]

/-- The row of an opcode byte; `none` for the 239 unimplemented bytes (R88). -/
def opcodeRow (op : Byte) : Option OpcodeRow := opcodeMap.find? fun r => r.opcode == op

/-- `format(op)` (R86, R211): the opcode alone determines the format. -/
def formatOf (op : Byte) : Option Format := (opcodeRow op).map OpcodeRow.format

/-- `{hi, lo}` (R14, R85): the first operand byte is the low byte. -/
def wordOfBytes (lo hi : Byte) : Addr := hi ++ lo

/-- Bits 7..0 of a word (R62). -/
def lowByte (w : Addr) : Byte := w.extractLsb' 0 8

/-- Bits 15..8 of a word (R62). -/
def highByte (w : Addr) : Byte := w.extractLsb' 8 8

/-- The instruction of a mnemonic with its operand bytes: `b1` is the immediate (R84), `{b2, b1}` the absolute address
(R85); a format ignores the bytes it does not have. -/
def Mnemonic.withOperands (m : Mnemonic) (b1 b2 : Byte) : Instr :=
  match m with
  | .ldaImm => .ldaImm b1
  | .ldxImm => .ldxImm b1
  | .ldyImm => .ldyImm b1
  | .ldaAbs => .ldaAbs (wordOfBytes b1 b2)
  | .ldxAbs => .ldxAbs (wordOfBytes b1 b2)
  | .ldyAbs => .ldyAbs (wordOfBytes b1 b2)
  | .staAbs => .staAbs (wordOfBytes b1 b2)
  | .inx => .inx
  | .iny => .iny
  | .dex => .dex
  | .dey => .dey
  | .tax => .tax
  | .txa => .txa
  | .tay => .tay
  | .tya => .tya
  | .nop => .nop
  | .brk => .brk

/-- Why a list of bytes is no instruction. -/
inductive DecodeError where
  /-- No opcode byte. -/
  | noBytes
  /-- The opcode is not in the map (R88). -/
  | unimplementedOpcode (op : Byte)
  /-- The operand bytes the format asks for are not there (R83). -/
  | missingOperand (op : Byte)
  deriving DecidableEq, Repr

/-- The outcome of decoding: an instruction and the bytes after it, or the reason there is none. -/
inductive Decoded where
  | instr (i : Instr) (rest : List Byte)
  | error (e : DecodeError)
  deriving DecidableEq, Repr

/-- The operand bytes of a format, taken from the bytes after the opcode (R83). -/
def decodeOperands (op : Byte) (m : Mnemonic) (f : Format) (rest : List Byte) : Decoded :=
  match f, rest with
  | .imp, r => .instr (m.withOperands 0 0) r
  | .imm, b1 :: r => .instr (m.withOperands b1 0) r
  | .abs, b1 :: b2 :: r => .instr (m.withOperands b1 b2) r
  | .imm, [] => .error (.missingOperand op)
  | .abs, [] => .error (.missingOperand op)
  | .abs, [_] => .error (.missingOperand op)

/-- The decoder (R83, R86–R88), total on any bytes. -/
def decode (bytes : List Byte) : Decoded :=
  match bytes with
  | [] => .error .noBytes
  | op :: rest =>
    match opcodeRow op with
    | none => .error (.unimplementedOpcode op)
    | some row => decodeOperands op row.mnemonic row.format rest

/-- The instruction of a decoding, if there is one. -/
def Decoded.instr? : Decoded → Option Instr
  | .instr i _ => some i
  | .error _ => none

/-- The opcode byte of a mnemonic (R87, read from the mnemonic to the byte). -/
def Mnemonic.opcode : Mnemonic → Byte
  | .ldaImm => 0xA9
  | .ldxImm => 0xA2
  | .ldyImm => 0xA0
  | .ldaAbs => 0xAD
  | .ldxAbs => 0xAE
  | .ldyAbs => 0xAC
  | .staAbs => 0x8D
  | .inx => 0xE8
  | .iny => 0xC8
  | .dex => 0xCA
  | .dey => 0x88
  | .tax => 0xAA
  | .txa => 0x8A
  | .tay => 0xA8
  | .tya => 0x98
  | .nop => 0xEA
  | .brk => 0x00

/-- The operand bytes in the order they are stored (R83, R85: the low address byte first). -/
def Instr.operandBytes : Instr → List Byte
  | .ldaImm b | .ldxImm b | .ldyImm b => [b]
  | .ldaAbs w | .ldxAbs w | .ldyAbs w | .staAbs w => [lowByte w, highByte w]
  | .inx | .iny | .dex | .dey | .tax | .txa | .tay | .tya | .nop | .brk => []

/-- The encoder: the bytes of an instruction, the opcode at the lowest address (R83). -/
def encode (i : Instr) : List Byte := i.mnemonic.opcode :: i.operandBytes

/-- The `n` bytes of a table word, byte `j` being its bits `8j+7..8j`. -/
def tableBytes (n w : Nat) : List Byte :=
  match n with
  | 0 => []
  | n + 1 => BitVec.ofNat 8 w :: tableBytes n (w / 256)

/-- The three bytes the table word `w` of `nbits` bits lays out: the bits above `nbits` are 0. -/
def fetchBytes (nbits w : Nat) : List Byte := tableBytes 3 (w % 2 ^ nbits)

/-- What the decoder reads from a table word (the host's fixed name). -/
def decodeTableWord (nbits w : Nat) : Option Instr := (decode (fetchBytes nbits w)).instr?

end Sys2Proof
end

