-- ==== Sys2Proof/Machine/State.lean ====
section
/-! DEFINITION. The machine's state (spec/10_state.md R20–R41), the reasons a step stops, the creation state (R12) and
the state after reset (R331–R336). -/

namespace Sys2Proof.Machine

/-- The storage of one chip (R24): `(local address, byte)` pairs, addresses rising, no entry equal to the chip's
creation fill, which is what an unlisted address reads as. -/
abbrev Memory := List Host.Cell

/-- The four severities (R310). -/
inductive Severity where
  | info | warning | error | debug
  deriving DecidableEq, Repr

/-- The direction of an unmapped access (R301). -/
inductive Access where
  | read | write
  deriving DecidableEq, Repr

/-- The kind of a diagnostic event with its information (R301). -/
inductive DiagKind where
  | outOfRange (k : Nat) (a : Nat)
  | unmapped (addr : Addr) (dir : Access)
  | busTimeout (id : ComponentId)
  | unimplementedOpcode (op : Byte) (opaddr : Addr)
  | resetVectorFallback
  deriving DecidableEq, Repr

/-- One diagnostic event (R40, R310). -/
structure DiagEvent where
  severity : Severity
  kind : DiagKind
  deriving DecidableEq, Repr

/-- The reasons a run stops. -/
inductive Fault where
  /-- `PinIndexOutOfRange(i)` (R114): raised by the host's `set_pin`/`get_pin` with `i ≥ BUS_WIDTH`; the step after it
  and every later one stops (R41).  Safe: the spec makes it a fault of the model. -/
  | pinIndexOutOfRange (i : Nat)
  deriving DecidableEq, Repr

/-- The reasons an instruction has no meaning. -/
inductive Refusal where
  /-- The instruction is not modelled yet; raised by `exec`'s refused arms.  Safe.  No arm raises it now. -/
  | notModelled (mnemonic : String)
  deriving DecidableEq, Repr

/-- The bus (R20–R22). -/
structure Bus where
  power : Bool
  pins : Pins
  owner : Option ComponentId
  deriving DecidableEq, Repr

/-- The phases of a chip agent (R27). -/
inductive ChipPhase where
  | top | try | wait | drive | rel
  deriving DecidableEq, Repr

/-- One memory chip with its agent's locals (R24–R27). -/
structure Chip where
  kind : ChipKind
  capacity : Nat
  storage : Memory
  ceN : Bool
  oeN : Bool
  weN : Bool
  aPins : Addr
  dPins : Byte
  phase : ChipPhase
  latch : Byte
  alive : Bool
  deriving DecidableEq, Repr

/-- The clock's modes (R30). -/
inductive ClockMode where
  | astable | monostable
  deriving DecidableEq, Repr

/-- The clock generator (R29–R32).  `clkPin` is also the CPU's `PHI0` (R37). -/
structure Clock where
  speedHz : F32
  mode : ClockMode
  clkPin : Bool
  alive : Bool
  deriving DecidableEq, Repr

/-- The status flags (R36). -/
structure Flags where
  n : Bool
  v : Bool
  u : Bool
  b : Bool
  d : Bool
  i : Bool
  z : Bool
  c : Bool
  deriving DecidableEq, Repr

/-- `Cpu.state` (R38). -/
inductive ExecState where
  | powerOff | powerOn | reset | running | halted
  deriving DecidableEq, Repr

/-- `Cpu.seq`, the sequencer phase (R38). -/
inductive Seq where
  | waitHi | fetchOp | fetchB1 | fetchB2 | exec
  | absTry | absWait | absAddr | absMem | absData | absRel
  | waitLo
  | rstTry | rstWait | rstAddrLo | rstReadLo | rstAddrHi | rstReadHi | rstRel | rstEnd
  deriving DecidableEq, Repr

/-- The CPU: registers (R33–R36), pins (R37) and execution state (R38).  `PHI0` is not here: it is the clock's pin. -/
structure Cpu where
  a : Byte
  x : Byte
  y : Byte
  sp : Byte
  pc : Addr
  flags : Flags
  rwb : Bool
  sync : Bool
  rdy : Bool
  irqb : Bool
  nmib : Bool
  resb : Bool
  state : ExecState
  seq : Seq
  opaddr : Addr
  op : Byte
  b1 : Byte
  b2 : Byte
  ea : Addr
  tmp : Byte
  vecOk : Bool
  alive : Bool
  deriving DecidableEq, Repr

/-- The host agent's local (R39). -/
inductive HostPhase where
  | idle | wait
  deriving DecidableEq, Repr

/-- The whole machine.  `sched` and `draws` are the model's own fields, not the spec's: the events still scheduled, and
how many events were drawn from `Config.freeEvent` (assumption log 1). -/
structure State where
  cfg : Config
  bus : Bus
  chips : List Chip
  clock : Clock
  cpu : Cpu
  hostPhase : HostPhase
  diag : List DiagEvent
  fault : Option Fault
  sched : List Event
  draws : Nat
  deriving DecidableEq, Repr

/-- What a step answers. -/
abbrev Result := Host.Outcome State Fault Refusal

/-- A chip just created (R24–R27): every byte its fill, deselected, at the top of its loop. -/
def Chip.create (c : ChipConfig) : Chip where
  kind := c.kind
  capacity := c.capacity
  storage := []
  ceN := true
  oeN := true
  weN := true
  aPins := 0
  dPins := 0
  phase := .top
  latch := 0
  alive := true

/-- The values R33–R36 leave unspecified at creation: a draw for each. -/
structure CpuDraw where
  a : Byte
  x : Byte
  y : Byte
  sp : Byte
  pc : Addr
  flags : Flags
  deriving DecidableEq, Repr

/-- The CPU at creation (R33–R38, D23), for any draw of its registers. -/
def Cpu.create (r : CpuDraw) : Cpu where
  a := r.a
  x := r.x
  y := r.y
  sp := r.sp
  pc := r.pc
  flags := r.flags
  rwb := true
  sync := false
  rdy := true
  irqb := true
  nmib := true
  resb := true
  state := .powerOff
  seq := .waitHi
  opaddr := 0
  op := 0
  b1 := 0
  b2 := 0
  ea := 0
  tmp := 0
  vecOk := false
  alive := true

/-- The system the host assembles (R12), before any agent has stepped: the creation values of spec/10_state.md §8. -/
def State.create (c : Config) (r : CpuDraw) : State where
  cfg := c
  bus := { power := false, pins := 0, owner := none }
  chips := c.chips.map Chip.create
  clock := { speedHz := c.speedHz0, mode := .monostable, clkPin := false, alive := true }
  cpu := Cpu.create r
  hostPhase := .idle
  diag := []
  fault := none
  sched := []
  draws := 0

/-- The flags the reset entry sets (R331): all 0 but `I`. -/
def Flags.afterReset : Flags where
  n := false
  v := false
  u := false
  b := false
  d := false
  i := true
  z := false
  c := false

/-- The CPU right after a reset whose vector read succeeded, with nothing stored in the ROM (R331, R334, R336): the
vector bytes both read 0xFF. -/
def Cpu.afterReset : Cpu where
  a := 0
  x := 0
  y := 0
  sp := 0
  pc := 0xFFFF
  flags := Flags.afterReset
  rwb := true
  sync := false
  rdy := true
  irqb := true
  nmib := true
  resb := true
  state := .running
  seq := .waitLo
  opaddr := 0
  op := 0
  b1 := 0xFF
  b2 := 0xFF
  ea := 0
  tmp := 0
  vecOk := true
  alive := true

/-- The machine right after reset (R330–R336): SYS-R just created, powered on, its reset sequence run with the bus free.
`Bus.address` holds `RESET_VECTOR + 1` (R332), nothing is listed in any memory, nothing is scheduled. -/
def State.reset : State where
  cfg := Config.reference
  bus := { power := false, pins := 0xFFFD, owner := none }
  chips := Config.reference.chips.map Chip.create
  clock := { speedHz := Config.reference.speedHz0, mode := .monostable, clkPin := false, alive := true }
  cpu := Cpu.afterReset
  hostPhase := .idle
  diag := []
  fault := none
  sched := []
  draws := 0

end Sys2Proof.Machine
end

