-- ==== Sys2Proof/Machine/Flags.lean ====
section
/-! DEFINITION. Every flag computation of the subset (spec/44_cpu_sequencer.md R218, spec/10_state.md R36). -/

namespace Sys2Proof.Machine

/-- `SetNZ(v)` (R218): `N <- v[7]`, `Z <- (v = 0)`, no other flag. -/
def Flags.setNZ (v : Byte) (f : Flags) : Flags := { f with n := v.msb, z := v == 0 }

/-- One bit of a packed byte. -/
def flagBit (b : Bool) (i : Nat) : Byte := if b then BitVec.ofNat 8 (2 ^ i) else 0

/-- `P = {N, V, U, B, D, I, Z, C}` (R36), `P[7] = N` down to `P[0] = C`; read only by the inspection accessor. -/
def Flags.packed (f : Flags) : Byte :=
  flagBit f.n 7 ||| flagBit f.v 6 ||| flagBit f.u 5 ||| flagBit f.b 4 |||
  flagBit f.d 3 ||| flagBit f.i 2 ||| flagBit f.z 1 ||| flagBit f.c 0

end Sys2Proof.Machine
end

