-- ==== Sys2Proof/Machine/Operands.lean ====
section
/-! DEFINITION. The operand forms (spec/30_encoding.md R83–R85, R90): the registers an instruction names, the immediate
byte, and the two kinds of access to an absolute address. -/

namespace Sys2Proof.Machine

/-- The general registers (R33). -/
inductive Reg where
  | a | x | y
  deriving DecidableEq, Repr

/-- Read a general register; none is hardwired (R33). -/
def Cpu.reg (r : Reg) (c : Cpu) : Byte :=
  match r with
  | .a => c.a
  | .x => c.x
  | .y => c.y

/-- Write a general register. -/
def Cpu.setReg (r : Reg) (v : Byte) (c : Cpu) : Cpu :=
  match r with
  | .a => { c with a := v }
  | .x => { c with x := v }
  | .y => { c with y := v }

/-- `R <- v; SetNZ(v)`: how every instruction that writes `A`, `X` or `Y` writes it (R218). -/
def Cpu.loadReg (r : Reg) (v : Byte) (c : Cpu) : Cpu :=
  { c.setReg r v with flags := c.flags.setNZ v }

/-- The immediate operand is the byte itself, with no extension, scaling or shift (R84). -/
def immediateOperand (imm : Byte) : Byte := imm

/-- What an absolute instruction does at its effective address (R243): a load into `Rd`, or the store of `A`. -/
inductive AbsAccess where
  | load (rd : Reg)
  | store
  deriving DecidableEq, Repr

/-- The access of an instruction, `none` if it is not absolute (R243). -/
def absAccessOf (i : Instr) : Option AbsAccess :=
  match i with
  | .ldaAbs _ => some (.load .a)
  | .ldxAbs _ => some (.load .x)
  | .ldyAbs _ => some (.load .y)
  | .staAbs _ => some .store
  | .ldaImm _ | .ldxImm _ | .ldyImm _ => none
  | .inx | .iny | .dex | .dey | .tax | .txa | .tay | .tya | .nop | .brk => none

/-- The effective stack address `0x0100 + SP` (R35); no instruction uses it. -/
def stackAddress (c : Cpu) : Addr := 0x0100 + c.sp.setWidth 16

end Sys2Proof.Machine
end

