-- ==== Sys2Proof/Machine/Ops.lean ====
section
/-! DEFINITION. The named operations over the shared state: the bus pins and the arbiter (spec/40_bus_arbiter.md), chip
storage and the direct accessors (spec/41_chip_protocol.md R140–R144), the decoder (spec/42_address_decoder.md), the
diagnostic stream (R310), fetching a byte, halting, and entering and ending a reset. -/

namespace Sys2Proof.Machine

/-! ### Whole components of State -/

/-- Rewrite the CPU. -/
def State.mapCpu (f : Cpu → Cpu) (s : State) : State := { s with cpu := f s.cpu }

/-- Rewrite the bus. -/
def State.mapBus (f : Bus → Bus) (s : State) : State := { s with bus := f s.bus }

/-- Rewrite the clock. -/
def State.mapClock (f : Clock → Clock) (s : State) : State := { s with clock := f s.clock }

/-- Put a chip at index `k`. -/
def State.setChip (k : Nat) (c : Chip) (s : State) : State := { s with chips := s.chips.set k c }

/-- Move the sequencer. -/
def State.goto (q : Seq) (s : State) : State := s.mapCpu fun c => { c with seq := q }

/-- `log(severity, kind, info)` (R310): append one event. -/
def State.log (sev : Severity) (kind : DiagKind) (s : State) : State := { s with diag := s.diag ++ [⟨sev, kind⟩] }

/-! ### Bus pins (R80, R108–R116) -/

/-- `Bus.address`, pins 15..0 (R80, R109). -/
def addressView (p : Pins) : Addr := p.extractLsb' 0 16

/-- `Bus.data`, pins 23..16 (R80, R111). -/
def dataView (p : Pins) : Byte := p.extractLsb' 16 8

/-- Pin `i` (R113). -/
def pinAt (i : Nat) (p : Pins) : Bool := p.getLsbD i

/-- Write `Bus.address`, no other bit (R108). -/
def putAddress (a : Addr) (p : Pins) : Pins := (p &&& ~~~(0xFFFF#255)) ||| a.setWidth 255

/-- Write `Bus.data`, no other bit (R110). -/
def putData (d : Byte) (p : Pins) : Pins := (p &&& ~~~(0xFF0000#255)) ||| (d.setWidth 255 <<< 16)

/-- Write pin `i`, no other bit (R112). -/
def putPin (i : Nat) (v : Bool) (p : Pins) : Pins :=
  if v then p ||| (1#255 <<< i) else p &&& ~~~(1#255 <<< i)

/-- `write_address(addr)`, with no ownership check (R108). -/
def writeAddress (a : Addr) (s : State) : State := s.mapBus fun b => { b with pins := putAddress a b.pins }

/-- `write_data(byte)`, with no ownership check (R110). -/
def writeData (d : Byte) (s : State) : State := s.mapBus fun b => { b with pins := putData d b.pins }

/-- `reset()` of the bus: pins 0, `power` and `owner` kept (R115). -/
def resetBus (s : State) : State := s.mapBus fun b => { b with pins := 0 }

/-! ### Arbitration (R100–R107) -/

/-- The bus is free: a try or a grant step can be granted (R101, R102). -/
def busFree (s : State) : Bool := s.bus.owner == none

/-- Take ownership for `id`: the grant (R101, R102). -/
def grantBus (id : ComponentId) (s : State) : State := s.mapBus fun b => { b with owner := some id }

/-- `release(id)`: only the holder's release frees the bus, any other is a no-op (R106, R107). -/
def releaseBus (id : ComponentId) (s : State) : State :=
  s.mapBus fun b => if b.owner = some id then { b with owner := none } else b

/-! ### Chip storage (R24, R140–R144) -/

/-- What an unlisted address of a chip reads as: its creation fill, 0xFF for ROM, 0x00 for RAM (R24). -/
def chipFill : ChipKind → Byte
  | .rom => 0xFF
  | .ram => 0x00

/-- The byte at `a`: the entry's, or the fill. -/
def Memory.read (fill : Byte) (m : Memory) (a : Nat) : Byte :=
  match m with
  | [] => fill
  | (k, v) :: t => if k = a then v else Memory.read fill t a

/-- Store a byte and keep the canonical form: storing the fill removes the entry. -/
def Memory.write (fill : Byte) (m : Memory) (a : Nat) (v : Byte) : Memory :=
  match m with
  | [] => if v = fill then [] else [(a, v)]
  | (k, w) :: t =>
    if a < k then (if v = fill then (k, w) :: t else (a, v) :: (k, w) :: t)
    else if a = k then (if v = fill then t else (a, v) :: t)
    else (k, w) :: Memory.write fill t a v

/-- The canonical form from address `lo` up: addresses rising, each below the capacity, no entry equal to the fill. -/
def Memory.wfFrom (fill : Byte) (capacity : Nat) (lo : Nat) (m : Memory) : Bool :=
  match m with
  | [] => true
  | (k, v) :: t => decide (lo ≤ k) && decide (k < capacity) && v != fill && Memory.wfFrom fill capacity (k + 1) t

/-- The canonical form of a chip's storage. -/
def Memory.wf (fill : Byte) (capacity : Nat) (m : Memory) : Bool := Memory.wfFrom fill capacity 0 m

/-- `storage[a]` of a chip. -/
def Chip.peek (c : Chip) (a : Nat) : Byte := Memory.read (chipFill c.kind) c.storage a

/-- `storage[a] <- v`; ROM-kind chips are written the same way (R145). -/
def Chip.poke (c : Chip) (a : Nat) (v : Byte) : Chip := { c with storage := Memory.write (chipFill c.kind) c.storage a v }

/-- The out-of-range event (R142, R301). -/
def logOutOfRange (k a : Nat) (s : State) : State := s.log .warning (.outOfRange k a)

/-- What `read_byte(a)` of chip `k` returns: the byte, or the sentinel 0xFF from `CAP[k]` up (R140, R142).  A chip number
past `NCHIPS`, which no well-formed assembly has, reads as a chip of no bytes (assumption log 12). -/
def chipByte (k a : Nat) (s : State) : Byte :=
  match s.chips[k]? with
  | some c => if a < c.capacity then c.peek a else 0xFF
  | none => 0xFF

/-- `read_byte(a)` of chip `k` (R140): the byte, and the state with the out-of-range event if there is one. -/
def chipReadByte (k a : Nat) (s : State) : Byte × State :=
  (chipByte k a s,
   match s.chips[k]? with
   | some c => if a < c.capacity then s else logOutOfRange k a s
   | none => logOutOfRange k a s)

/-- `write_byte(a, v)` of chip `k` (R141). -/
def chipWriteByte (k a : Nat) (v : Byte) (s : State) : State :=
  match s.chips[k]? with
  | some c => if a < c.capacity then s.setChip k (c.poke a v) else logOutOfRange k a s
  | none => logOutOfRange k a s

/-- What `read_word(a)` of chip `k` returns: little-endian, and 0xFFFF unless both bytes are in range (R143). -/
def chipWord (k a : Nat) (s : State) : Addr :=
  match s.chips[k]? with
  | some c => if a + 1 < c.capacity then wordOfBytes (c.peek a) (c.peek (a + 1)) else 0xFFFF
  | none => 0xFFFF

/-- `read_word(a)` of chip `k` (R143). -/
def chipReadWord (k a : Nat) (s : State) : Addr × State :=
  (chipWord k a s,
   match s.chips[k]? with
   | some c => if a + 1 < c.capacity then s else logOutOfRange k a s
   | none => logOutOfRange k a s)

/-- `write_word(a, w)` of chip `k`: both bytes or neither (R144). -/
def chipWriteWord (k a : Nat) (w : Addr) (s : State) : State :=
  match s.chips[k]? with
  | some c =>
    if a + 1 < c.capacity then s.setChip k ((c.poke a (lowByte w)).poke (a + 1) (highByte w))
    else logOutOfRange k a s
  | none => logOutOfRange k a s

/-! ### The address decoder (R160–R169) -/

/-- A mapping contains an address, compared as unsigned, both ends included (R160). -/
def mappingContains (m : Mapping) (addr : Addr) : Bool :=
  decide (m.first.toNat ≤ addr.toNat) && decide (addr.toNat ≤ m.last.toNat)

/-- `route(addr)`: the first mapping that contains the address gives the chip and the local address, computed without
wrap; `none` is a miss (R161, R166). -/
def route (ms : List Mapping) (addr : Addr) : Option (Nat × Nat) :=
  match ms with
  | [] => none
  | m :: rest => if mappingContains m addr then some (m.chip, addr.toNat - m.first.toNat) else route rest addr

/-- Where the decoder of this machine routes an address. -/
def State.routeOf (s : State) (addr : Addr) : Option (Nat × Nat) := route s.cfg.mappings addr

/-- The byte a CPU address reads as: the chip's, or the unmapped sentinel 0xFF (R162, R163, R167). -/
def memByte (addr : Addr) (s : State) : Byte :=
  match s.routeOf addr with
  | some ka => chipByte ka.1 ka.2 s
  | none => 0xFF

/-- `MemRead(addr, 1)`: `(byte, hit)`, and the state with the event of a miss or of an out-of-range local address
(R162, R163). -/
def memRead (addr : Addr) (s : State) : (Byte × Bool) × State :=
  match s.routeOf addr with
  | some ka => ((memByte addr s, true), (chipReadByte ka.1 ka.2 s).2)
  | none => ((memByte addr s, false), s.log .error (.unmapped addr .read))

/-- `MemWrite(addr, 1, v)` (R164, R165). -/
def memWrite (addr : Addr) (v : Byte) (s : State) : State :=
  match s.routeOf addr with
  | some ka => chipWriteByte ka.1 ka.2 v s
  | none => s.log .warning (.unmapped addr .write)

/-! ### The CPU's shared operations -/

/-- `halt()` (R216): the only non-local effect an error has (R300). -/
def halt (s : State) : State := s.mapCpu fun c => { c with state := .halted, seq := .waitLo }

/-- `Fetch()` (R210, R215): one decoder read at `PC`; `PC` moves on (modulo 2^16) even on a miss, and a miss halts. -/
def fetch (s : State) : (Byte × Bool) × State :=
  let r := memRead s.cpu.pc s
  let moved := r.2.mapCpu fun c => { c with pc := c.pc + 1 }
  (r.1, if r.1.2 then moved else halt moved)

/-- The end of an `EXEC` step: the register effect, then `seq <- WAIT_LO` (R217). -/
def finishExec (f : Cpu → Cpu) (s : State) : Result :=
  .next (s.mapCpu fun c => { f c with seq := .waitLo })

/-- What the reset entry writes (R330, R331): the state, the registers, the flags, `RWB` and `vec_ok`. -/
def Cpu.enterReset (c : Cpu) : Cpu :=
  { c with
    state := .reset
    a := 0
    x := 0
    y := 0
    sp := 0
    flags := Flags.afterReset
    rwb := true
    vecOk := false
    seq := .rstTry }

/-- The reset entry (R330): this block's only transfer of control that an event outside the program causes.  The block
has no trap (R300). -/
def resetEntry (s : State) : State := s.mapCpu Cpu.enterReset

/-- The end of a reset (R334): `PC` from the vector or 0x0000, and back to `Running`, whichever state the reset came from. -/
def resetEnd (s : State) : State :=
  s.mapCpu fun c =>
    { c with pc := if c.vecOk then wordOfBytes c.b1 c.b2 else 0, state := .running, seq := .waitLo }

end Sys2Proof.Machine
end

