-- ==== Sys2Proof/Machine/ChipAgent.lean ====
section
/-! DEFINITION. The chip agents (spec/41_chip_protocol.md R130–R139): the poll, the write cycle, the read cycle's steps and
its timeout.  `none` is "no step". -/

namespace Sys2Proof.Machine

/-- What the control code `{ce_n, oe_n, we_n}` selects (R82). -/
inductive ChipAction where
  | disabled | write | read | noAction
  deriving DecidableEq, Repr

/-- The control-code table (R82, R131): active-low pins, `true` is 1. -/
def chipAction (c : Chip) : ChipAction :=
  if c.ceN then .disabled
  else if c.oeN && !c.weN then .write
  else if !c.oeN && c.weN then .read
  else .noAction

/-- The write cycle (R133): `storage[a_pins] <- d_pins`, or the out-of-range event; the phase stays `C_TOP`. -/
def writeCycle (k : Nat) (c : Chip) (s : State) : State :=
  if c.aPins.toNat < c.capacity then s.setChip k (c.poke c.aPins.toNat c.dPins)
  else logOutOfRange k c.aPins.toNat s

/-- Line 1 of the read cycle (R134): drive `d_pins`, latch the value, go to `C_TRY`. -/
def readCycle (k : Nat) (c : Chip) (s : State) : State :=
  if c.aPins.toNat < c.capacity then
    s.setChip k { c with dPins := c.peek c.aPins.toNat, latch := c.peek c.aPins.toNat, phase := .try }
  else
    (logOutOfRange k c.aPins.toNat s).setChip k { c with dPins := 0xFF, latch := 0xFF, phase := .try }

/-- The poll step (R131–R136). -/
def poll (k : Nat) (c : Chip) (s : State) : State :=
  match chipAction c with
  | .disabled => s
  | .write => writeCycle k c s
  | .read => readCycle k c s
  | .noAction => s

/-- Take the bus for chip `k` and go to `C_DRIVE` (R134 lines 2 and 2'). -/
def chipGranted (k : Nat) (c : Chip) (s : State) : State := (grantBus (.chip k) s).setChip k { c with phase := .drive }

/-- The step of chip `k` standing as `c` (R131, R134, R138). -/
def chipPhaseStep (k : Nat) (c : Chip) (s : State) : Option State :=
  match c.phase with
  | .top => if c.alive then some (poll k c s) else none
  | .try => some (if busFree s then chipGranted k c s else s.setChip k { c with phase := .wait })
  | .wait => if busFree s then some (chipGranted k c s) else none
  | .drive => some ((writeData c.latch s).setChip k { c with phase := .rel })
  | .rel => some ((releaseBus (.chip k) s).setChip k { c with phase := .top })

/-- Chip `k`'s step. -/
def chipStep (k : Nat) (s : State) : Option State :=
  match s.chips[k]? with
  | some c => chipPhaseStep k c s
  | none => none

/-- Chip `k`'s timeout step in `C_WAIT` (R135). -/
def chipTimeoutStep (k : Nat) (s : State) : Option State :=
  match s.chips[k]? with
  | some c =>
    if c.phase = .wait then some ((s.log .warning (.busTimeout (.chip k))).setChip k { c with phase := .top }) else none
  | none => none

end Sys2Proof.Machine
end

