-- ==== Sys2Proof/Machine/ClockAgent.lean ====
section
/-! DEFINITION. The clock generator (spec/43_clock.md R180–R189).  `none` is "no step". -/

namespace Sys2Proof.Machine

/-- `speed_hz` is a finite value greater than zero (R186, R188): sign 0, exponent not all ones, not zero. -/
def speedValid (f : F32) : Bool :=
  !f.msb && (f.extractLsb' 23 8 != 0xFF) && (f.extractLsb' 0 31 != 0)

/-- Toggle `clk_pin` (R181, R186). -/
def toggleClock (s : State) : State := s.mapClock fun c => { c with clkPin := !c.clkPin }

/-- The oscillator's step (R186), enabled in astable mode, alive, with a valid speed (R188, R189). -/
def clockAgentStep (s : State) : Option State :=
  if s.clock.mode = .astable ∧ s.clock.alive = true ∧ speedValid s.clock.speedHz = true then some (toggleClock s) else none

/-- `sasm()` (R182). -/
def setAstable (s : State) : State := s.mapClock fun c => { c with mode := .astable }

/-- `smsm()` (R183). -/
def setMonostable (s : State) : State := s.mapClock fun c => { c with mode := .monostable }

/-- `set_speed(s)` accepts every `f32` (R184). -/
def setSpeed (f : F32) (s : State) : State := s.mapClock fun c => { c with speedHz := f }

end Sys2Proof.Machine
end

