-- ==== Sys2Proof/Machine/HostActions.lean ====
section
/-! DEFINITION. The host agent (spec/00_scope.md R11, R13; spec/40_bus_arbiter.md R119): the effect of each action, and
what an action returns to the host.  `none` is "no step". -/

namespace Sys2Proof.Machine

/-- What a host step returns to the host. -/
inductive Reply where
  | nothing
  | bool (b : Bool)
  | byte (b : Byte)
  | word (w : Addr)
  | byteHit (b : Byte) (hit : Bool)
  | speed (f : F32)
  | execState (x : ExecState)
  /-- A request that was not granted at once: the host waits (R100, R119). -/
  | waiting
  deriving DecidableEq, Repr

/-- The inspection accessors (R223); a read has no side effect. -/
def inspect (q : Query) (s : State) : Reply :=
  match q with
  | .a => .byte s.cpu.a
  | .x => .byte s.cpu.x
  | .y => .byte s.cpu.y
  | .sp => .byte s.cpu.sp
  | .pc => .word s.cpu.pc
  | .flagN => .bool s.cpu.flags.n
  | .flagV => .bool s.cpu.flags.v
  | .flagU => .bool s.cpu.flags.u
  | .flagB => .bool s.cpu.flags.b
  | .flagD => .bool s.cpu.flags.d
  | .flagI => .bool s.cpu.flags.i
  | .flagZ => .bool s.cpu.flags.z
  | .flagC => .bool s.cpu.flags.c
  | .packedFlags => .byte s.cpu.flags.packed
  | .execState => .execState s.cpu.state
  | .pinRwb => .bool s.cpu.rwb
  | .pinSync => .bool s.cpu.sync
  | .pinRdy => .bool s.cpu.rdy
  | .pinIrqb => .bool s.cpu.irqb
  | .pinNmib => .bool s.cpu.nmib
  | .pinResb => .bool s.cpu.resb
  | .pinPhi0 => .bool s.clock.clkPin

/-- An access to pin `i ≥ BUS_WIDTH`: the model fault, no other effect (R114). -/
def pinFault (i : Nat) (s : State) : State := { s with fault := some (.pinIndexOutOfRange i) }

/-- `set_pin(i, v)` (R112, R114). -/
def setPin (i : Nat) (v : Bool) (s : State) : State :=
  if i < s.cfg.busWidth then s.mapBus fun b => { b with pins := putPin i v b.pins } else pinFault i s

/-- `get_pin(i)` (R113, R114). -/
def getPin (i : Nat) (s : State) : State := if i < s.cfg.busWidth then s else pinFault i s

/-- The host's try step (R101, R119): enabled in `H_IDLE` only. -/
def hostRequest (s : State) : Option State :=
  match s.hostPhase with
  | .idle => some (if busFree s then grantBus .host s else { s with hostPhase := .wait })
  | .wait => none

/-- The host's grant step in `H_WAIT` (R102, R119). -/
def hostGrantStep (s : State) : Option State :=
  if s.hostPhase = .wait ∧ busFree s = true then some { grantBus .host s with hostPhase := .idle } else none

/-- The host's timeout step in `H_WAIT` (R103, R119). -/
def hostTimeoutStep (s : State) : Option State :=
  if s.hostPhase = .wait then some { s with hostPhase := .idle } else none

/-- Drive pins of a chip (R130). -/
def Chip.drive (p : ChipDrive) (c : Chip) : Chip :=
  { c with
    ceN := p.ceN.getD c.ceN
    oeN := p.oeN.getD c.oeN
    weN := p.weN.getD c.weN
    aPins := p.aPins.getD c.aPins
    dPins := p.dPins.getD c.dPins }

/-- Drive the CPU's input pins (R222). -/
def Cpu.drive (p : CpuDrive) (c : Cpu) : Cpu :=
  { c with
    rdy := p.rdy.getD c.rdy
    resb := p.resb.getD c.resb
    irqb := p.irqb.getD c.irqb
    nmib := p.nmib.getD c.nmib }

/-- An action on chip `k`, which is one of the assembly's chips. -/
def onChip (k : Nat) (s : State) (f : Chip → State) : Option State := (s.chips[k]?).map f

/-- `power_on()` (R201). -/
def powerOn (s : State) : State :=
  s.mapCpu fun c => if c.state = .powerOff then { c with state := .powerOn } else c

/-- Clear an agent's run flag (R13).  Nothing sets it again. -/
def stopAgent (a : AgentId) (s : State) : Option State :=
  match a with
  | .cpu => some (s.mapCpu fun c => { c with alive := false })
  | .chip k => onChip k s fun c => s.setChip k { c with alive := false }
  | .clock => some (s.mapClock fun c => { c with alive := false })

/-- A host action (R11). -/
def hostStep (act : HostAction) (s : State) : Option State :=
  match act with
  | .writeAddress addr => some (writeAddress addr s)
  | .readAddress => some s
  | .writeData d => some (writeData d s)
  | .readData => some s
  | .setPin i v => some (setPin i v s)
  | .getPin i => some (getPin i s)
  | .resetBus => some (resetBus s)
  | .request => hostRequest s
  | .release => some (releaseBus .host s)
  | .setPower v => some (s.mapBus fun b => { b with power := v })
  | .driveChip k p => onChip k s fun c => s.setChip k (c.drive p)
  | .readByte k a => onChip k s fun _ => (chipReadByte k a s).2
  | .writeByte k a v => onChip k s fun _ => chipWriteByte k a v s
  | .readWord k a => onChip k s fun _ => (chipReadWord k a s).2
  | .writeWord k a w => onChip k s fun _ => chipWriteWord k a w s
  | .decoderRead addr => some (memRead addr s).2
  | .decoderWrite addr v => some (memWrite addr v s)
  | .clockStep => some (toggleClock s)
  | .sasm => some (setAstable s)
  | .smsm => some (setMonostable s)
  | .setSpeed f => some (setSpeed f s)
  | .getSpeed => some s
  | .powerOn => some (powerOn s)
  | .driveCpu p => some (s.mapCpu (Cpu.drive p))
  | .inspect _ => some s
  | .stop a => stopAgent a s

/-- What a host action returns, read from the state it acts on (R100, R109, R111, R113, R140, R143, R162, R163, R185, R223).
DESIGN CHOICE (assumption log 23): `get_pin(i)` with `i ≥ BUS_WIDTH` returns nothing; R114 gives the fault and no result. -/
def hostReply (act : HostAction) (s : State) : Reply :=
  match act with
  | .readAddress => .word (addressView s.bus.pins)
  | .readData => .byte (dataView s.bus.pins)
  | .getPin i => if i < s.cfg.busWidth then .bool (pinAt i s.bus.pins) else .nothing
  | .request => if busFree s then .bool true else .waiting
  | .readByte k a => .byte (chipByte k a s)
  | .readWord k a => .word (chipWord k a s)
  | .decoderRead addr => .byteHit (memRead addr s).1.1 (memRead addr s).1.2
  | .getSpeed => .speed s.clock.speedHz
  | .inspect q => inspect q s
  | .writeAddress _ | .writeData _ | .setPin _ _ | .resetBus | .release | .setPower _ | .driveChip _ _
  | .writeByte _ _ _ | .writeWord _ _ _ | .decoderWrite _ _ | .clockStep | .sasm | .smsm | .setSpeed _
  | .powerOn | .driveCpu _ | .stop _ => .nothing

end Sys2Proof.Machine
end

