-- ==== Sys2Proof/Machine/Bracket.lean ====
section
/-! DEFINITION. The bus bracket of an absolute load or store, one definition per atomic step (spec/45_cpu_load_store.md
R243, R244), and the whole bracket run with no other agent's step between its steps. -/

namespace Sys2Proof.Machine

/-- `ABS_TRY` (R243 line 1, R101). -/
def absTry (s : State) : State :=
  if busFree s then (grantBus .cpu s).goto .absAddr else s.goto .absWait

/-- The grant step of `ABS_WAIT` (R243 line 1', R102), enabled while the bus is free. -/
def absGrant (s : State) : Option State :=
  if busFree s then some ((grantBus .cpu s).goto .absAddr) else none

/-- The timeout step of `ABS_WAIT` (R244): the attempt is skipped and retried from its opcode. -/
def absTimeout (s : State) : State :=
  (s.log .warning (.busTimeout .cpu)).mapCpu fun c => { c with pc := c.opaddr, seq := .waitLo }

/-- `ABS_ADDR` (R243 line 2). -/
def absAddr (acc : AbsAccess) (ea : Addr) (s : State) : State :=
  match acc with
  | .load _ => (writeAddress ea s).goto .absMem
  | .store => (writeAddress ea (s.mapCpu fun c => { c with rwb := false })).goto .absData

/-- `ABS_MEM` (R243: line 3 of a load, line 4 of a store). -/
def absMem (acc : AbsAccess) (ea : Addr) (s : State) : State :=
  match acc with
  | .load rd =>
    let r := memRead ea s
    r.2.mapCpu fun c => { c.loadReg rd r.1.1 with tmp := r.1.1, seq := .absData }
  | .store => (memWrite ea s.cpu.tmp s).goto .absRel

/-- `ABS_DATA` (R243: line 4 of a load, line 3 of a store). -/
def absData (acc : AbsAccess) (s : State) : State :=
  match acc with
  | .load _ => (writeData s.cpu.tmp s).goto .absRel
  | .store => ((writeData s.cpu.a s).mapCpu fun c => { c with tmp := c.a }).goto .absMem

/-- `ABS_REL` (R243 line 5). -/
def absRel (s : State) : State :=
  (releaseBus .cpu s).mapCpu fun c => { c with rwb := true, seq := .waitLo }

/-- The steps after the grant (R243): a load accesses memory and then mirrors the data, a store the other way round. -/
def absGranted (acc : AbsAccess) (ea : Addr) (s : State) : State :=
  match acc with
  | .load rd => absRel (absData (.load rd) (absMem (.load rd) ea (absAddr (.load rd) ea s)))
  | .store => absRel (absMem .store ea (absData .store (absAddr .store ea s)))

/-- The whole bracket with no other agent's step in it.  If the bus is free the try is granted and the instruction
completes (R243); if it is held nobody releases it during the wait, so the wait can only end in the timeout (R103, R244). -/
def absBracket (acc : AbsAccess) (ea : Addr) (s : State) : State :=
  if busFree s then absGranted acc ea (absTry s) else absTimeout (absTry s)

end Sys2Proof.Machine
end

