-- ==== Sys2Proof/Machine/LoadStore.lean ====
section
/-! DEFINITION. The meanings of the loads and stores (spec/45_cpu_load_store.md R245–R251), from the step after the
instruction's last fetch: the `EXEC` step of an immediate load, the bus bracket of an absolute access. -/

namespace Sys2Proof.Machine

/-- `LDA #imm` (R245). -/
def execLdaImm (imm : Byte) (s : State) : Result := finishExec (Cpu.loadReg .a (immediateOperand imm)) s

/-- `LDX #imm` (R246). -/
def execLdxImm (imm : Byte) (s : State) : Result := finishExec (Cpu.loadReg .x (immediateOperand imm)) s

/-- `LDY #imm` (R247). -/
def execLdyImm (imm : Byte) (s : State) : Result := finishExec (Cpu.loadReg .y (immediateOperand imm)) s

/-- `LDA abs` (R248). -/
def execLdaAbs (ea : Addr) (s : State) : Result := .next (absBracket (.load .a) ea s)

/-- `LDX abs` (R249). -/
def execLdxAbs (ea : Addr) (s : State) : Result := .next (absBracket (.load .x) ea s)

/-- `LDY abs` (R250). -/
def execLdyAbs (ea : Addr) (s : State) : Result := .next (absBracket (.load .y) ea s)

/-- `STA abs` (R251): no flag. -/
def execStaAbs (ea : Addr) (s : State) : Result := .next (absBracket .store ea s)

end Sys2Proof.Machine
end

