-- ==== Sys2Proof/Machine/RegisterOps.lean ====
section
/-! DEFINITION. The meanings of the register operations, the no-op and the halt (spec/46_cpu_register_ops.md R271–R280):
the `EXEC` step of each (R217). -/

namespace Sys2Proof.Machine

/-- `INX` (R271), modulo 2^8. -/
def execInx (s : State) : Result := finishExec (fun c => c.loadReg .x (c.x + 1)) s

/-- `INY` (R272). -/
def execIny (s : State) : Result := finishExec (fun c => c.loadReg .y (c.y + 1)) s

/-- `DEX` (R273), modulo 2^8. -/
def execDex (s : State) : Result := finishExec (fun c => c.loadReg .x (c.x - 1)) s

/-- `DEY` (R274). -/
def execDey (s : State) : Result := finishExec (fun c => c.loadReg .y (c.y - 1)) s

/-- `TAX` (R275). -/
def execTax (s : State) : Result := finishExec (fun c => c.loadReg .x c.a) s

/-- `TXA` (R276). -/
def execTxa (s : State) : Result := finishExec (fun c => c.loadReg .a c.x) s

/-- `TAY` (R277). -/
def execTay (s : State) : Result := finishExec (fun c => c.loadReg .y c.a) s

/-- `TYA` (R278). -/
def execTya (s : State) : Result := finishExec (fun c => c.loadReg .a c.y) s

/-- `NOP` (R279): nothing but the end of the step. -/
def execNop (s : State) : Result := finishExec (fun c => c) s

/-- `BRK` (R280): `halt()`, with no push, no vector, no flag and no event. -/
def execBrk (s : State) : Result := .next (halt s)

end Sys2Proof.Machine
end

