-- ==== Sys2Proof/Machine/ResetSequence.lean ====
section
/-! DEFINITION. The reset-vector transaction, one definition per atomic step (spec/70_reset_and_hazards.md R332, R333),
and the whole reset run with no other agent's step between its steps. -/

namespace Sys2Proof.Machine

/-- `RST_TRY` (R332 line 1, R101). -/
def rstTry (s : State) : State :=
  if busFree s then (grantBus .cpu s).goto .rstAddrLo else s.goto .rstWait

/-- The grant step of `RST_WAIT` (R332 line 1', R102), enabled while the bus is free. -/
def rstGrant (s : State) : Option State :=
  if busFree s then some ((grantBus .cpu s).goto .rstAddrLo) else none

/-- The timeout step of `RST_WAIT`: the vector fallback, not retried (R333). -/
def rstTimeout (s : State) : State := (s.log .error .resetVectorFallback).goto .rstEnd

/-- `RST_ADDR_LO` (R332 line 2). -/
def rstAddrLo (s : State) : State := (writeAddress s.cfg.resetVector s).goto .rstReadLo

/-- `RST_READ_LO` (R332 line 3): an unmapped vector byte is 0xFF and no halt (R336). -/
def rstReadLo (s : State) : State :=
  let r := memRead s.cfg.resetVector s
  r.2.mapCpu fun c => { c with b1 := r.1.1, seq := .rstAddrHi }

/-- `RST_ADDR_HI` (R332 line 4): `V + 1` modulo 2^16. -/
def rstAddrHi (s : State) : State := (writeAddress (s.cfg.resetVector + 1) s).goto .rstReadHi

/-- `RST_READ_HI` (R332 line 5). -/
def rstReadHi (s : State) : State :=
  let r := memRead (s.cfg.resetVector + 1) s
  r.2.mapCpu fun c => { c with b2 := r.1.1, seq := .rstRel }

/-- `RST_REL` (R332 line 6). -/
def rstRel (s : State) : State := (releaseBus .cpu s).mapCpu fun c => { c with vecOk := true, seq := .rstEnd }

/-- The vector transaction after the grant, to `RST_END` (R332 lines 2–6). -/
def rstGranted (s : State) : State := rstRel (rstReadHi (rstAddrHi (rstReadLo (rstAddrLo s))))

/-- A whole reset with no other agent's step in it (R330–R334): granted at once if the bus is free, else the timeout. -/
def resetSpan (s : State) : State :=
  if busFree s then resetEnd (rstGranted (rstTry (resetEntry s))) else resetEnd (rstTimeout (rstTry (resetEntry s)))

end Sys2Proof.Machine
end

