-- ==== Sys2Proof/Machine/Sequencer.lean ====
section
/-! DEFINITION. The CPU sequencer (spec/44_cpu_sequencer.md): dispatch, fetch and decode, the CPU agent's one enabled step
(`cpuStep`), its timeout step (`cpuTimeoutStep`), and its steps from a dispatch to the next `WAIT_LO` as one (`cpuSpanStep`).
`none` is "no step": the CPU waits. -/

namespace Sys2Proof.Machine

/-- What a dispatch starts (R203). -/
inductive Start where
  | reset
  | instruction
  deriving DecidableEq, Repr

/-- Dispatch (R203–R209), in the order of R209: `alive`, `RESB`, `Halted`, `RDY`, instruction start. -/
def dispatchStart (s : State) : Option Start :=
  if s.cpu.seq = .waitHi ∧ s.clock.clkPin = true ∧ s.cpu.alive = true ∧ (s.cpu.state = .running ∨ s.cpu.state = .halted) then
    if s.cpu.resb = false then some .reset
    else if s.cpu.state = .halted then none
    else if s.cpu.rdy = false then none
    else some .instruction
  else none

/-- Instruction start (R206). -/
def startInstr (s : State) : State := s.mapCpu fun c => { c with opaddr := c.pc, seq := .fetchOp }

/-- The dispatch step (R203). -/
def dispatchStep (s : State) : Option State :=
  match dispatchStart s with
  | some .reset => some (resetEntry s)
  | some .instruction => some (startInstr s)
  | none => none

/-- An opcode outside the map (R214): one event, then `halt()`. -/
def unimplemented (op : Byte) (s : State) : State := halt (s.log .error (.unimplementedOpcode op s.cpu.opaddr))

/-- Phase `FETCH_OP` (R211, R214, R215). -/
def fetchOp (s : State) : State :=
  let r := fetch s
  let t := r.2.mapCpu fun c => { c with op := r.1.1 }
  if r.1.2 then
    match formatOf r.1.1 with
    | some .imp => t.goto .exec
    | some .imm => t.goto .fetchB1
    | some .abs => t.goto .fetchB1
    | none => unimplemented r.1.1 t
  else t

/-- Phase `FETCH_B1` (R212, R215). -/
def fetchB1 (s : State) : State :=
  let r := fetch s
  let t := r.2.mapCpu fun c => { c with b1 := r.1.1 }
  if r.1.2 then
    match formatOf t.cpu.op with
    | some .imm => t.goto .exec
    | some .abs => t.goto .fetchB2
    | some .imp => t
    | none => t
  else t

/-- Phase `FETCH_B2` (R213, R215). -/
def fetchB2 (s : State) : State :=
  let r := fetch s
  let t := r.2.mapCpu fun c => { c with b2 := r.1.1 }
  if r.1.2 then t.mapCpu fun c => { c with ea := wordOfBytes c.b1 c.b2, seq := .absTry } else t

/-- The instruction the latches hold, read by the decoder (R83). -/
def latchedInstr (s : State) : Option Instr := (decode [s.cpu.op, s.cpu.b1, s.cpu.b2]).instr?

/-- Phase `EXEC` (R217): the meaning of the latched implied or immediate instruction. -/
def execStep (s : State) : Option Result :=
  match latchedInstr s with
  | some i => if i.format = .abs then none else some (exec i s)
  | none => none

/-- The access of the latched absolute instruction (R243). -/
def latchedAccess (s : State) : Option AbsAccess := (latchedInstr s).bind absAccessOf

/-- Phase `WAIT_LO` (R219). -/
def waitLoStep (s : State) : Option State :=
  if s.clock.clkPin = false ∧ (s.cpu.state = .running ∨ s.cpu.state = .halted) then some (s.goto .waitHi) else none

/-- A step that always answers a next state. -/
def answers (o : Option State) : Option Result := o.map Host.Outcome.next

/-- The CPU's step at its sequencer phase; in a wait phase, its grant step. -/
def phaseStep (s : State) : Option Result :=
  match s.cpu.seq with
  | .waitHi => answers (dispatchStep s)
  | .fetchOp => some (.next (fetchOp s))
  | .fetchB1 => some (.next (fetchB1 s))
  | .fetchB2 => some (.next (fetchB2 s))
  | .exec => execStep s
  | .absTry => some (.next (absTry s))
  | .absWait => answers (absGrant s)
  | .absAddr => answers ((latchedAccess s).map fun acc => absAddr acc s.cpu.ea s)
  | .absMem => answers ((latchedAccess s).map fun acc => absMem acc s.cpu.ea s)
  | .absData => answers ((latchedAccess s).map fun acc => absData acc s)
  | .absRel => some (.next (absRel s))
  | .waitLo => answers (waitLoStep s)
  | .rstTry => some (.next (rstTry s))
  | .rstWait => answers (rstGrant s)
  | .rstAddrLo => some (.next (rstAddrLo s))
  | .rstReadLo => some (.next (rstReadLo s))
  | .rstAddrHi => some (.next (rstAddrHi s))
  | .rstReadHi => some (.next (rstReadHi s))
  | .rstRel => some (.next (rstRel s))
  | .rstEnd => some (.next (resetEnd s))

/-- The `PowerOn` step is enabled whatever `PHI0` holds (R202, R208). -/
def powerOnReady (s : State) : Bool := s.cpu.state == .powerOn && s.cpu.alive

/-- The CPU's step (R200, R202, R203–R219): none in `PowerOff`, the reset entry in `PowerOn`, else its phase's. -/
def cpuStep (s : State) : Option Result :=
  match s.cpu.state with
  | .powerOff => none
  | .powerOn => if powerOnReady s then some (.next (resetEntry s)) else none
  | .reset => phaseStep s
  | .running => phaseStep s
  | .halted => phaseStep s

/-- The CPU is switched on: `PowerOff` has no step (R200) and `PowerOn` only the reset entry (R202). -/
def switchedOn (s : State) : Bool := s.cpu.state != .powerOff && s.cpu.state != .powerOn

/-- The CPU's timeout step, enabled at every step of a wait phase (R103, R244, R333). -/
def cpuTimeoutStep (s : State) : Option Result :=
  if switchedOn s then
    match s.cpu.seq with
    | .absWait => some (.next (absTimeout s))
    | .rstWait => some (.next (rstTimeout s))
    | .waitHi | .fetchOp | .fetchB1 | .fetchB2 | .exec | .absTry | .absAddr | .absMem | .absData | .absRel | .waitLo
    | .rstTry | .rstAddrLo | .rstReadLo | .rstAddrHi | .rstReadHi | .rstRel | .rstEnd => none
  else none

/-- The operand fetches an opcode asks for (R211–R213), each only if the sequencer stands at it. -/
def fetchOperands (s : State) : State :=
  let s1 := if s.cpu.seq = .fetchB1 then fetchB1 s else s
  if s1.cpu.seq = .fetchB2 then fetchB2 s1 else s1

/-- Dispatch and all fetches of an instruction (R206, R210–R213). -/
def fetchInstr (s : State) : State := fetchOperands (fetchOp (startInstr s))

/-- Run the fetched instruction, unless a fetch halted the CPU (R214, R215). -/
def runFetched (s : State) : Result :=
  if s.cpu.seq = .exec ∨ s.cpu.seq = .absTry then
    match latchedInstr s with
    | some i => exec i s
    | none => .next s
  else .next s

/-- The CPU's steps from a dispatch, or from `PowerOn`, to the next `WAIT_LO`, none of another agent's between them. -/
def cpuSpanStep (s : State) : Option Result :=
  if powerOnReady s then some (.next (resetSpan s))
  else
    match dispatchStart s with
    | some .reset => some (.next (resetSpan s))
    | some .instruction => some (runFetched (fetchInstr s))
    | none => none

end Sys2Proof.Machine
end

