-- ==== Sys2Proof/Machine/Agents.lean ====
section
/-! DEFINITION. One scheduled event (spec/00_scope.md R8, R10): the step of the agent it names, `none` where that agent has
no such step enabled. -/

namespace Sys2Proof.Machine

/-- The step an event names, a fault aside. -/
def agentStep (e : Event) (s : State) : Option Result :=
  match e with
  | .cpu => cpuStep s
  | .cpuTimeout => cpuTimeoutStep s
  | .cpuSpan => cpuSpanStep s
  | .chip k => answers (chipStep k s)
  | .chipTimeout k => answers (chipTimeoutStep k s)
  | .clock => answers (clockAgentStep s)
  | .hostGrant => answers (hostGrantStep s)
  | .hostTimeout => answers (hostTimeoutStep s)
  | .host act => answers (hostStep act s)

/-- The step an event names; none while a fault stands (R41). -/
def eventStep (e : Event) (s : State) : Option Result :=
  match s.fault with
  | some _ => none
  | none => agentStep e s

/-- An event that is not enabled changes nothing: its agent waits. -/
def runEvent (e : Event) (s : State) : Result := (eventStep e s).getD (.next s)

end Sys2Proof.Machine
end

