-- ==== Sys2Proof/Machine/Boot.lean ====
section
/-! DEFINITION. Placing bytes and scheduling a run: the host's preload (spec/00_scope.md R12), the boot order
(spec/70_reset_and_hazards.md R338) as a schedule, and the bytes of one instruction at the program counter. -/

namespace Sys2Proof.Machine

/-- One preload entry: a chip, a local address, a byte. -/
abbrev ImageByte := Nat × Nat × Byte

/-- Preload chip storage with the direct accessors (R12, R338). -/
def preload (image : List ImageByte) (s : State) : State :=
  match image with
  | [] => s
  | (k, a, v) :: rest => preload rest (chipWriteByte k a v s)

/-- The events of a boot from the creation state with the bus free (R338 step 5, R330–R334). -/
def bootEvents : List Event :=
  [.host .powerOn, .cpu, .cpu, .cpu, .cpu, .cpu, .cpu, .cpu, .cpu]

/-- One `PHI0` period of a single-stepped CPU that stands at `WAIT_LO` (R219, R342): the clock low, the CPU past
`WAIT_LO`, the clock high, one instruction. -/
def periodEvents : List Event := [.host .clockStep, .cpu, .host .clockStep, .cpuSpan]

/-- The first period after a reset, from `clk_pin = 0`. -/
def firstPeriodEvents : List Event := [.cpu, .host .clockStep, .cpuSpan]

/-- `n` periods after the first. -/
def periods (n : Nat) : List Event :=
  match n with
  | 0 => []
  | n + 1 => periodEvents ++ periods n

/-- Store bytes where the decoder routes the CPU addresses from `addr` on, with no event. -/
def placeBytes (addr : Addr) (bytes : List Byte) (s : State) : State :=
  match bytes with
  | [] => s
  | v :: rest =>
    placeBytes (addr + 1) rest
      (match s.routeOf addr with
       | some ka =>
         (match s.chips[ka.1]? with
          | some c => if ka.2 < c.capacity then s.setChip ka.1 (c.poke ka.2 v) else s
          | none => s)
       | none => s)

/-- Make the very next step a dispatch of the instruction at `PC`: the CPU running at `WAIT_HI`, the clock high, `RESB` and
`RDY` high, the agent alive, no fault, and the CPU's span next in the schedule. -/
def readyToDispatch (s : State) : State :=
  { s with
    fault := none
    clock := { s.clock with clkPin := true }
    cpu := { s.cpu with state := .running, seq := .waitHi, alive := true, resb := true, rdy := true }
    sched := .cpuSpan :: s.sched }

end Sys2Proof.Machine
end

