-- ==== Sys2Proof/Machine/Step.lean ====
section
/-! DEFINITION. The machine's one step: the next event of the schedule, or a free one (spec/20_memory.md R69). -/

namespace Sys2Proof.Machine

/-- The event the next step takes: the schedule's first, or a free value where nothing is scheduled. -/
def State.nextEvent (s : State) : Event :=
  match s.sched with
  | e :: _ => e
  | [] => Config.freeEvent s.draws

/-- The state with that event taken off the schedule, or its draw counted. -/
def State.takeEvent (s : State) : State :=
  match s.sched with
  | _ :: rest => { s with sched := rest }
  | [] => { s with draws := s.draws + 1 }

/-- One step of the machine: the run ends at a fault (R41); else the next event's agent steps, or waits. -/
def step (s : State) : Host.Outcome State Fault Refusal :=
  match s.fault with
  | some r => .fault r
  | none => runEvent s.nextEvent s.takeEvent

/-- The state whose next step fetches and runs exactly the instruction of the table word `w` (the host's fixed name): its
bytes stored at `PC`, and the CPU at a dispatch with its span scheduled. -/
def State.withFetchWord (s : State) (nbits w : Nat) : State :=
  readyToDispatch (placeBytes s.cpu.pc (fetchBytes nbits w) s)

end Sys2Proof.Machine
end

