-- ==== Sys2Proof/Safety.lean ====
section
/-! DEFINITION. The terms that claims use: the invariant of the machine, what a memory access logs and stores to, the state
after an instruction's fetches, and runs with their fairness (spec/20_memory.md R69, spec/92_eei_decisions.md D49). -/

namespace Sys2Proof.Machine

/-! ### Phases -/

/-- The CPU phases between a grant and the release (R243, R332). -/
def Seq.holdsBus : Seq → Bool
  | .absAddr | .absMem | .absData | .absRel => true
  | .rstAddrLo | .rstReadLo | .rstAddrHi | .rstReadHi | .rstRel => true
  | .waitHi | .fetchOp | .fetchB1 | .fetchB2 | .exec | .absTry | .absWait | .waitLo | .rstTry | .rstWait | .rstEnd => false

/-- The phases of a reset (R332–R334). -/
def Seq.inReset : Seq → Bool
  | .rstTry | .rstWait | .rstAddrLo | .rstReadLo | .rstAddrHi | .rstReadHi | .rstRel | .rstEnd => true
  | .waitHi | .fetchOp | .fetchB1 | .fetchB2 | .exec => false
  | .absTry | .absWait | .absAddr | .absMem | .absData | .absRel | .waitLo => false

/-- The phases of the bus bracket (R243). -/
def Seq.inBracket : Seq → Bool
  | .absTry | .absWait | .absAddr | .absMem | .absData | .absRel => true
  | .waitHi | .fetchOp | .fetchB1 | .fetchB2 | .exec | .waitLo => false
  | .rstTry | .rstWait | .rstAddrLo | .rstReadLo | .rstAddrHi | .rstReadHi | .rstRel | .rstEnd => false

/-- The chip phases between a grant and the release (R134). -/
def ChipPhase.holdsBus : ChipPhase → Bool
  | .drive | .rel => true
  | .top | .try | .wait => false

/-! ### The invariant -/

/-- The CPU owns the bus exactly in the phases between its grant and its release (R105, R243, R332). -/
def State.cpuOwnerOk (s : State) : Prop := s.bus.owner = some .cpu ↔ s.cpu.seq.holdsBus = true

/-- Chip `k` owns the bus exactly in the phases between its grant and its release (R105, R134). -/
def State.chipOwnerOk (s : State) : Prop :=
  ∀ k, s.bus.owner = some (.chip k) ↔ ∃ c, s.chips[k]? = some c ∧ c.phase.holdsBus = true

/-- The sequencer phase belongs to the execution state (R200–R219, R330–R334). -/
def State.phaseOk (s : State) : Prop :=
  match s.cpu.state with
  | .powerOff => s.cpu.seq = .waitHi
  | .powerOn => s.cpu.seq = .waitHi
  | .reset => s.cpu.seq.inReset = true
  | .running => s.cpu.seq.inReset = false
  | .halted => s.cpu.seq = .waitHi ∨ s.cpu.seq = .waitLo

/-- The latched opcode has the format its phase is reached with, and in the bracket `ea` is the latched operand
(R211–R213, R217). -/
def State.latchOk (s : State) : Prop :=
  (s.cpu.seq = .fetchB1 → formatOf s.cpu.op = some .imm ∨ formatOf s.cpu.op = some .abs) ∧
  (s.cpu.seq = .fetchB2 → formatOf s.cpu.op = some .abs) ∧
  (s.cpu.seq = .exec → formatOf s.cpu.op = some .imp ∨ formatOf s.cpu.op = some .imm) ∧
  (s.cpu.seq.inBracket = true → formatOf s.cpu.op = some .abs ∧ s.cpu.ea = wordOfBytes s.cpu.b1 s.cpu.b2)

/-- `RWB` is 0 only between steps 2 and 5 of a store (R243). -/
def State.rwbOk (s : State) : Prop :=
  s.cpu.rwb = false ↔
    latchedAccess s = some .store ∧ (s.cpu.seq = .absData ∨ s.cpu.seq = .absMem ∨ s.cpu.seq = .absRel)

/-- Every chip's storage is in canonical form, below its capacity. -/
def State.memoryOk (s : State) : Prop := ∀ c ∈ s.chips, Memory.wf (chipFill c.kind) c.capacity c.storage = true

/-- No pin from `BUS_WIDTH` up (R21). -/
def State.pinsOk (s : State) : Prop := ∀ i, s.cfg.busWidth ≤ i → pinAt i s.bus.pins = false

/-- The chips are the assembly's, with their kinds and capacities (R7, R25). -/
def State.chipsOk (s : State) : Prop := s.chips.map (fun c => (⟨c.kind, c.capacity⟩ : ChipConfig)) = s.cfg.chips

/-- The invariant of the machine. -/
structure State.Inv (s : State) : Prop where
  config : s.cfg.wellFormed = true
  cpuOwner : s.cpuOwnerOk
  chipOwner : s.chipOwnerOk
  phase : s.phaseOk
  latch : s.latchOk
  rwb : s.rwbOk
  /-- `SYNC` is never written (R225). -/
  sync : s.cpu.sync = false
  memory : s.memoryOk
  pins : s.pinsOk
  chips : s.chipsOk

/-! ### Memory accesses -/

/-- `CAP[k]`; a chip number past `NCHIPS` has no bytes. -/
def chipCapacity (k : Nat) (s : State) : Nat :=
  match s.chips[k]? with
  | some c => c.capacity
  | none => 0

/-- The events of a direct access to `size` bytes of chip `k` at `a`: one if the last byte is out of range (R140–R144). -/
def directEvents (size k a : Nat) (s : State) : List DiagEvent :=
  if a + (size - 1) < chipCapacity k s then [] else [⟨.warning, .outOfRange k a⟩]

/-- The severity of an unmapped access (R163, R165, R311). -/
def unmappedSeverity : Access → Severity
  | .read => .error
  | .write => .warning

/-- The events of a decoder access (R162–R165, R167). -/
def accessEvents (dir : Access) (addr : Addr) (s : State) : List DiagEvent :=
  match s.routeOf addr with
  | some ka => directEvents 1 ka.1 ka.2 s
  | none => [⟨unmappedSeverity dir, .unmapped addr dir⟩]

/-- The storage byte a store to a CPU address writes, `none` if it writes none (R164, R165, R167). -/
def storeCell (addr : Addr) (s : State) : Option (Nat × Nat) :=
  match s.routeOf addr with
  | some ka => if ka.2 < chipCapacity ka.1 s then some ka else none
  | none => none

/-- A chip with its storage left out of the comparison. -/
def Chip.frame (c : Chip) : Chip := { c with storage := [] }

/-! ### Fetching an instruction -/

/-- The three bytes from an address on, modulo 2^16 (R83, R210). -/
def bytesAt (addr : Addr) (s : State) : List Byte := [memByte addr s, memByte (addr + 1) s, memByte (addr + 2) s]

/-- The first `n` addresses from `addr` on are mapped. -/
def mappedFrom (addr : Addr) (n : Nat) (s : State) : Prop := ∀ j, j < n → (s.routeOf (addr + BitVec.ofNat 16 j)).isSome = true

/-- The events of fetching `n` bytes from `addr` on. -/
def fetchEvents (addr : Addr) (n : Nat) (s : State) : List DiagEvent :=
  match n with
  | 0 => []
  | n + 1 => accessEvents .read addr s ++ fetchEvents (addr + 1) n s

/-- The CPU after dispatching and fetching an instruction of format `f` at `PC` (R206, R210–R213). -/
def fetchedCpu (f : Format) (s : State) : Cpu :=
  let c : Cpu :=
    { s.cpu with opaddr := s.cpu.pc, pc := s.cpu.pc + BitVec.ofNat 16 f.length, op := memByte s.cpu.pc s }
  match f with
  | .imp => { c with seq := .exec }
  | .imm => { c with b1 := memByte (s.cpu.pc + 1) s, seq := .exec }
  | .abs =>
    { c with
      b1 := memByte (s.cpu.pc + 1) s
      b2 := memByte (s.cpu.pc + 2) s
      ea := wordOfBytes (memByte (s.cpu.pc + 1) s) (memByte (s.cpu.pc + 2) s)
      seq := .absTry }

/-- The machine after those fetches: nothing else changed but the diagnostic stream. -/
def fetched (f : Format) (s : State) : State :=
  { s with cpu := fetchedCpu f s, diag := s.diag ++ fetchEvents s.cpu.pc f.length s }

/-! ### Outcomes and runs -/

/-- Rewrite the next state of an outcome. -/
def mapNext (f : State → State) (r : Result) : Result :=
  match r with
  | .next t => .next (f t)
  | .fault e => .fault e
  | .refused e => .refused e

/-- Two outcomes agree: the same stop, or next states that are related. -/
def outcomesAgree (related : State → State → Prop) (r r' : Result) : Prop :=
  match r, r' with
  | .next t, .next t' => related t t'
  | .fault e, .fault e' => e = e'
  | .refused e, .refused e' => e = e'
  | .next _, .fault _ => False
  | .next _, .refused _ => False
  | .fault _, .next _ => False
  | .fault _, .refused _ => False
  | .refused _, .next _ => False
  | .refused _, .fault _ => False

/-- Equal but for the pins and the field no rule reads: `IRQB`, `NMIB`, `SYNC` and `Bus.power` (R20, R116, R225, R305). -/
def equalButUnread (s t : State) : Prop :=
  s = { t with
        cpu := { t.cpu with irqb := s.cpu.irqb, nmib := s.cpu.nmib, sync := s.cpu.sync }
        bus := { t.bus with power := s.bus.power } }

/-- The step of an event is enabled. -/
def enabled (e : Event) (s : State) : Prop := eventStep e s ≠ none

/-- A run: every event is enabled and gives the next state (R69). -/
def IsRun (ev : Nat → Event) (r : Nat → State) : Prop := ∀ n, eventStep (ev n) (r n) = some (.next (r (n + 1)))

/-- The agents that fairness speaks of (D49); the host's actions are free, its waiting request is not (R104). -/
inductive FairAgent where
  | cpu
  | chip (k : Nat)
  | clock
  | hostRequest
  deriving DecidableEq, Repr

/-- The events that are steps of an agent. -/
def stepsOf (ag : FairAgent) (e : Event) : Prop :=
  match ag with
  | .cpu => e = .cpu ∨ e = .cpuTimeout ∨ e = .cpuSpan
  | .chip k => e = .chip k ∨ e = .chipTimeout k
  | .clock => e = .clock
  | .hostRequest => e = .hostGrant ∨ e = .hostTimeout

/-- Weak fairness (D49): an agent that has a step enabled from some point on takes one again and again. -/
def FairRun (ev : Nat → Event) (r : Nat → State) : Prop :=
  IsRun ev r ∧
  ∀ ag, (∃ n, ∀ m, n ≤ m → ∃ e, stepsOf ag e ∧ enabled e (r m)) → ∀ n, ∃ m, n ≤ m ∧ stepsOf ag (ev m)

/-- The CPU leaves `WAIT_HI` at step `n` of a run: a dispatch, or the `PowerOn` step (R202, R203). -/
def leavesWaitHi (r : Nat → State) (n : Nat) : Prop := (r n).cpu.seq = .waitHi ∧ (r (n + 1)).cpu.seq ≠ .waitHi

end Sys2Proof.Machine
end

