-- ==== Sys2Proof/Certificates/Slice0/Obligations.lean ====
section
/-! DEFINITION. The statements about the machine, from the numbered rules of spec/.  Rules marked [decision] in the spec are
its own choices; a statement that rests on one says so and is listed as derived. -/

open Sys2Proof Sys2Proof.Machine

/-! ### Encoding (spec/30_encoding.md) -/

/-- R83–R87: decoding the encoding of an instruction gives it back, whatever bytes follow, with every operand value. -/
def Obligations.DecodeOfEncodeIsTheInstruction : Prop :=
  ∀ (i : Instr) (rest : List Byte), i.wellFormed = true → decode (encode i ++ rest) = .instr i rest

/-- R83, R86: what the decoder reads is exactly what the encoder writes: no byte it consumed is dropped or invented. -/
def Obligations.EncodeOfDecodeIsTheBytes : Prop :=
  ∀ (bytes rest : List Byte) (i : Instr), decode bytes = .instr i rest → bytes = encode i ++ rest ∧ (encode i).length = i.length

/-- R88: an opcode byte outside the seventeen of R87 is unimplemented, there are 239 of them, and fetching one halts the CPU. -/
def Obligations.OpcodesOutsideTheMapAreUnimplemented : Prop :=
  (∀ (op : Byte) (rest : List Byte),
    decode (op :: rest) = .error (.unimplementedOpcode op) ↔
      op ∉ ([0xA9, 0xA2, 0xA0, 0xAD, 0xAE, 0xAC, 0x8D, 0xE8, 0xC8, 0xCA, 0x88, 0xAA, 0x8A, 0xA8, 0x98, 0xEA, 0x00] : List Byte)) ∧
  ((List.range 256).filter fun n => (formatOf (BitVec.ofNat 8 n)).isNone).length = 239 ∧
  ∀ s : State, (s.routeOf s.cpu.pc).isSome = true → formatOf (memByte s.cpu.pc s) = none →
    (fetchOp s).cpu.state = .halted

/-- R85, R87, §8 of the source: words written out from the spec decode to their instructions (byte values other than 0xA9,
0x8D and 0x00 are general knowledge, assumption log 9). -/
def Obligations.WordsOfTheOpcodeTableDecode : Prop :=
  decode [0xA9, 0x42] = .instr (.ldaImm 0x42) [] ∧
  decode [0x8D, 0x00, 0x02] = .instr (.staAbs 0x0200) [] ∧
  decode [0xAC, 0x01, 0x80] = .instr (.ldyAbs 0x8001) [] ∧
  decode [0xE8] = .instr .inx [] ∧
  decode [0x00] = .instr .brk []

/-! ### The step -/

/-- R41, R69: a fault ends the run; else the scheduled event's agent steps if that step is enabled, and waits if it is not
(the schedule is the model's form of the free interleaving, assumption log 1). -/
def Obligations.StepRunsTheScheduledEvent : Prop :=
  (∀ (s : State) (r : Fault), s.fault = some r → step s = .fault r) ∧
  (∀ (s : State) (e : Event) (rest : List Event) (r : Result), s.fault = none → s.sched = e :: rest →
    agentStep e { s with sched := rest } = some r → step s = r) ∧
  (∀ (s : State) (e : Event) (rest : List Event), s.fault = none → s.sched = e :: rest →
    agentStep e { s with sched := rest } = none → step s = .next { s with sched := rest }) ∧
  (∀ s : State, s.fault = none → s.sched = [] →
    step s = runEvent (Config.freeEvent s.draws) { s with draws := s.draws + 1 })

/-- R203, R206, R210–R213: where a dispatch can start an instruction and the bytes at `PC` are mapped and decode to `i`, the
step that runs the CPU's whole span is `exec i` of the state after the dispatch and the fetches (the span event is the model's own,
assumption log 2; a chip number past `NCHIPS` is assumption log 12). -/
def Obligations.StepRunsTheDecodedInstruction : Prop :=
  ∀ (s : State) (evs : List Event) (i : Instr) (rest : List Byte),
    s.fault = none → s.sched = .cpuSpan :: evs →
    s.cpu.state = .running → s.cpu.seq = .waitHi → s.clock.clkPin = true →
    s.cpu.alive = true → s.cpu.resb = true → s.cpu.rdy = true →
    decode (bytesAt s.cpu.pc s) = .instr i rest → i.wellFormed = true → mappedFrom s.cpu.pc i.length s →
    step s = exec i (fetched i.format { s with sched := evs })

/-- R10, R221: a whole span is a run of the CPU's own atomic steps with no other agent's step between, and it ends at `WAIT_LO`
(the span event is the model's own, assumption log 2). -/
def Obligations.SpanIsARunOfCpuSteps : Prop :=
  ∀ (s t : State) (rest : List Event), s.fault = none →
    step { s with sched := .cpuSpan :: rest } = .next t →
    (∃ evs : List Event, (∀ e ∈ evs, e = .cpu ∨ e = .cpuTimeout) ∧
      Host.Core.run Sys2Proof.core evs.length { s with sched := evs ++ rest } = .next t) ∧
    (enabled .cpuSpan s → t.cpu.seq = .waitLo)

/-! ### Loads and stores (spec/45_cpu_load_store.md) -/

/-- R245–R247, R218: an immediate load writes its register, `N` and `Z`, and nothing else but the sequencer phase. -/
def Obligations.ImmediateLoadsWriteTheOperand : Prop :=
  ∀ (imm : Byte) (s : State),
    exec (.ldaImm imm) s = .next { s with
      cpu := { s.cpu with a := imm, flags := { s.cpu.flags with n := imm.msb, z := imm == 0 }, seq := .waitLo } } ∧
    exec (.ldxImm imm) s = .next { s with
      cpu := { s.cpu with x := imm, flags := { s.cpu.flags with n := imm.msb, z := imm == 0 }, seq := .waitLo } } ∧
    exec (.ldyImm imm) s = .next { s with
      cpu := { s.cpu with y := imm, flags := { s.cpu.flags with n := imm.msb, z := imm == 0 }, seq := .waitLo } }

/-- R243, R248–R250: with the bus free, an absolute load completes: the register, `N`, `Z` and `tmp` from the byte the address
reads as (0xFF if unmapped or past the chip), the address and the data mirrored on the bus, the access's event if it has one,
and nothing else (a past-the-chip event's severity is the spec's choice D27; a chip number past `NCHIPS` is assumption log 12). -/
def Obligations.AbsoluteLoadsCompleteWhenTheBusIsFree : Prop :=
  ∀ (ea : Addr) (s : State), s.bus.owner = none →
    ∀ v, v = memByte ea s →
    exec (.ldaAbs ea) s = .next { s with
      cpu := { s.cpu with
        a := v, flags := { s.cpu.flags with n := v.msb, z := v == 0 }, tmp := v, rwb := true, seq := .waitLo }
      bus := { s.bus with pins := putData v (putAddress ea s.bus.pins) }
      diag := s.diag ++ accessEvents .read ea s } ∧
    exec (.ldxAbs ea) s = .next { s with
      cpu := { s.cpu with
        x := v, flags := { s.cpu.flags with n := v.msb, z := v == 0 }, tmp := v, rwb := true, seq := .waitLo }
      bus := { s.bus with pins := putData v (putAddress ea s.bus.pins) }
      diag := s.diag ++ accessEvents .read ea s } ∧
    exec (.ldyAbs ea) s = .next { s with
      cpu := { s.cpu with
        y := v, flags := { s.cpu.flags with n := v.msb, z := v == 0 }, tmp := v, rwb := true, seq := .waitLo }
      bus := { s.bus with pins := putData v (putAddress ea s.bus.pins) }
      diag := s.diag ++ accessEvents .read ea s }

/-- R243, R251, R73: with the bus free, `STA abs` completes: the byte the decoder routes the address to, if there is one, holds
`A`, every other byte of every chip and every other CPU address reads as before, so a later fetch sees the store; no flag and
no register changes (D27 and assumption log 12 as for the loads). -/
def Obligations.StoreCompletesWhenTheBusIsFree : Prop :=
  ∀ (ea : Addr) (s : State), s.bus.owner = none → s.memoryOk →
    ∃ t, exec (.staAbs ea) s = .next t ∧
      t = { s with
        cpu := { s.cpu with tmp := s.cpu.a, rwb := true, seq := .waitLo }
        bus := { s.bus with pins := putData s.cpu.a (putAddress ea s.bus.pins) }
        chips := t.chips
        diag := s.diag ++ accessEvents .write ea s } ∧
      t.chips.map Chip.frame = s.chips.map Chip.frame ∧
      (∀ k a, chipByte k a t = if storeCell ea s = some (k, a) then s.cpu.a else chipByte k a s) ∧
      (∀ addr, memByte addr t =
        if (storeCell ea s).isSome = true ∧ s.routeOf addr = s.routeOf ea then s.cpu.a else memByte addr s)

/-- R244: with the bus held and nobody to release it, an absolute load or store times out: one event, `PC` back at the opcode,
and no register, flag, memory byte, bus pin or `RWB` changes (retrying is the spec's choice D9). -/
def Obligations.AbsoluteAccessTimesOutWhenTheBusIsHeld : Prop :=
  ∀ (ea : Addr) (s : State) (i : Instr), s.bus.owner ≠ none →
    (i = .ldaAbs ea ∨ i = .ldxAbs ea ∨ i = .ldyAbs ea ∨ i = .staAbs ea) →
    exec i s = .next { s with
      cpu := { s.cpu with pc := s.cpu.opaddr, seq := .waitLo }
      diag := s.diag ++ [⟨.warning, .busTimeout .cpu⟩] }

/-- R243, R244, R332–R334: the bracket of an absolute access and that of the reset vector, step by step as the CPU agent takes them.  In
a wait phase the CPU has a grant step exactly while the bus is free and a timeout step whatever the owner (D3; D9, D39 for what a
timeout does, D27 and assumption log 12 for an address past its chip). -/
def Obligations.BracketRunsStepByStep : Prop :=
  (∀ (s : State) (acc : AbsAccess), s.cpu.state = .running → latchedAccess s = some acc →
    (s.cpu.seq = .absTry → s.bus.owner = none →
      cpuStep s = some (.next { s with bus := { s.bus with owner := some .cpu }, cpu := { s.cpu with seq := .absAddr } })) ∧
    (s.cpu.seq = .absTry → s.bus.owner ≠ none →
      cpuStep s = some (.next { s with cpu := { s.cpu with seq := .absWait } })) ∧
    (s.cpu.seq = .absAddr → ∀ rd, acc = .load rd →
      cpuStep s = some (.next { s with
        bus := { s.bus with pins := putAddress s.cpu.ea s.bus.pins }, cpu := { s.cpu with seq := .absMem } })) ∧
    (s.cpu.seq = .absAddr → acc = .store →
      cpuStep s = some (.next { s with
        bus := { s.bus with pins := putAddress s.cpu.ea s.bus.pins }, cpu := { s.cpu with rwb := false, seq := .absData } })) ∧
    (s.cpu.seq = .absMem → ∀ rd, acc = .load rd →
      cpuStep s = some (.next { s with
        cpu := { (s.cpu.setReg rd (memByte s.cpu.ea s)) with
          flags := { s.cpu.flags with n := (memByte s.cpu.ea s).msb, z := memByte s.cpu.ea s == 0 }
          tmp := memByte s.cpu.ea s
          seq := .absData }
        diag := s.diag ++ accessEvents .read s.cpu.ea s })) ∧
    (s.cpu.seq = .absMem → acc = .store →
      cpuStep s = some (.next ((memWrite s.cpu.ea s.cpu.tmp s).goto .absRel))) ∧
    (s.cpu.seq = .absData → ∀ rd, acc = .load rd →
      cpuStep s = some (.next { s with
        bus := { s.bus with pins := putData s.cpu.tmp s.bus.pins }, cpu := { s.cpu with seq := .absRel } })) ∧
    (s.cpu.seq = .absData → acc = .store →
      cpuStep s = some (.next { s with
        bus := { s.bus with pins := putData s.cpu.a s.bus.pins }, cpu := { s.cpu with tmp := s.cpu.a, seq := .absMem } })) ∧
    (s.cpu.seq = .absRel → s.bus.owner = some .cpu →
      cpuStep s = some (.next { s with
        bus := { s.bus with owner := none }, cpu := { s.cpu with rwb := true, seq := .waitLo } }))) ∧
  (∀ s : State, s.cpu.state = .running → s.cpu.seq = .absWait →
    (s.bus.owner = none →
      cpuStep s = some (.next { s with bus := { s.bus with owner := some .cpu }, cpu := { s.cpu with seq := .absAddr } })) ∧
    (s.bus.owner ≠ none → cpuStep s = none) ∧
    cpuTimeoutStep s = some (.next { s with
      cpu := { s.cpu with pc := s.cpu.opaddr, seq := .waitLo }, diag := s.diag ++ [⟨.warning, .busTimeout .cpu⟩] })) ∧
  ∀ s : State, s.cpu.state = .reset → ∀ v, v = s.cfg.resetVector →
    (s.cpu.seq = .rstTry ∨ s.cpu.seq = .rstWait → s.bus.owner = none →
      cpuStep s = some (.next { s with bus := { s.bus with owner := some .cpu }, cpu := { s.cpu with seq := .rstAddrLo } })) ∧
    (s.cpu.seq = .rstTry → s.bus.owner ≠ none →
      cpuStep s = some (.next { s with cpu := { s.cpu with seq := .rstWait } })) ∧
    (s.cpu.seq = .rstWait → s.bus.owner ≠ none → cpuStep s = none) ∧
    (s.cpu.seq = .rstWait →
      cpuTimeoutStep s = some (.next { s with
        cpu := { s.cpu with seq := .rstEnd }, diag := s.diag ++ [⟨.error, .resetVectorFallback⟩] })) ∧
    (s.cpu.seq = .rstAddrLo →
      cpuStep s = some (.next { s with
        bus := { s.bus with pins := putAddress v s.bus.pins }, cpu := { s.cpu with seq := .rstReadLo } })) ∧
    (s.cpu.seq = .rstReadLo →
      cpuStep s = some (.next { s with
        cpu := { s.cpu with b1 := memByte v s, seq := .rstAddrHi }, diag := s.diag ++ accessEvents .read v s })) ∧
    (s.cpu.seq = .rstAddrHi →
      cpuStep s = some (.next { s with
        bus := { s.bus with pins := putAddress (v + 1) s.bus.pins }, cpu := { s.cpu with seq := .rstReadHi } })) ∧
    (s.cpu.seq = .rstReadHi →
      cpuStep s = some (.next { s with
        cpu := { s.cpu with b2 := memByte (v + 1) s, seq := .rstRel }
        diag := s.diag ++ accessEvents .read (v + 1) s })) ∧
    (s.cpu.seq = .rstRel → s.bus.owner = some .cpu →
      cpuStep s = some (.next { s with
        bus := { s.bus with owner := none }, cpu := { s.cpu with vecOk := true, seq := .rstEnd } })) ∧
    (s.cpu.seq = .rstEnd →
      cpuStep s = some (.next { s with cpu := { s.cpu with
        pc := if s.cpu.vecOk then s.cpu.b2 ++ s.cpu.b1 else 0x0000, state := .running, seq := .waitLo } }))

/-! ### Register operations (spec/46_cpu_register_ops.md) -/

/-- R271–R274, R218: the increments and decrements, modulo 2^8, with `N` and `Z` from the result and nothing else. -/
def Obligations.IncrementsAndDecrements : Prop :=
  ∀ s : State,
    exec .inx s = .next { s with cpu := { s.cpu with
      x := s.cpu.x + 1, flags := { s.cpu.flags with n := (s.cpu.x + 1).msb, z := s.cpu.x + 1 == 0 }, seq := .waitLo } } ∧
    exec .iny s = .next { s with cpu := { s.cpu with
      y := s.cpu.y + 1, flags := { s.cpu.flags with n := (s.cpu.y + 1).msb, z := s.cpu.y + 1 == 0 }, seq := .waitLo } } ∧
    exec .dex s = .next { s with cpu := { s.cpu with
      x := s.cpu.x - 1, flags := { s.cpu.flags with n := (s.cpu.x - 1).msb, z := s.cpu.x - 1 == 0 }, seq := .waitLo } } ∧
    exec .dey s = .next { s with cpu := { s.cpu with
      y := s.cpu.y - 1, flags := { s.cpu.flags with n := (s.cpu.y - 1).msb, z := s.cpu.y - 1 == 0 }, seq := .waitLo } }

/-- R275–R278, R218: the transfers, with `N` and `Z` from the value moved and nothing else. -/
def Obligations.TransfersMoveTheRegister : Prop :=
  ∀ s : State,
    exec .tax s = .next { s with cpu := { s.cpu with
      x := s.cpu.a, flags := { s.cpu.flags with n := s.cpu.a.msb, z := s.cpu.a == 0 }, seq := .waitLo } } ∧
    exec .txa s = .next { s with cpu := { s.cpu with
      a := s.cpu.x, flags := { s.cpu.flags with n := s.cpu.x.msb, z := s.cpu.x == 0 }, seq := .waitLo } } ∧
    exec .tay s = .next { s with cpu := { s.cpu with
      y := s.cpu.a, flags := { s.cpu.flags with n := s.cpu.a.msb, z := s.cpu.a == 0 }, seq := .waitLo } } ∧
    exec .tya s = .next { s with cpu := { s.cpu with
      a := s.cpu.y, flags := { s.cpu.flags with n := s.cpu.y.msb, z := s.cpu.y == 0 }, seq := .waitLo } }

/-- R279, R280: `NOP` does nothing but end its step; `BRK` only halts, with no push, vector, flag or event. -/
def Obligations.NoOpAndHalt : Prop :=
  ∀ s : State,
    exec .nop s = .next { s with cpu := { s.cpu with seq := .waitLo } } ∧
    exec .brk s = .next { s with cpu := { s.cpu with state := .halted, seq := .waitLo } }

/-- R90, R218, R307: what no instruction changes, whatever its form and whether it completes or times out. -/
def Obligations.InstructionFrame : Prop :=
  ∀ (i : Instr) (s t : State), exec i s = .next t →
    t.cfg = s.cfg ∧ t.clock = s.clock ∧ t.hostPhase = s.hostPhase ∧ t.fault = s.fault ∧
    t.sched = s.sched ∧ t.draws = s.draws ∧ t.bus.power = s.bus.power ∧ t.bus.owner = s.bus.owner ∧
    (∀ j, 24 ≤ j → pinAt j t.bus.pins = pinAt j s.bus.pins) ∧
    (i.format ≠ .abs → t.bus = s.bus ∧ t.diag = s.diag ∧ t.cpu.tmp = s.cpu.tmp ∧ t.cpu.rwb = s.cpu.rwb ∧ t.cpu.pc = s.cpu.pc) ∧
    t.cpu.sp = s.cpu.sp ∧ t.cpu.sync = s.cpu.sync ∧ t.cpu.rdy = s.cpu.rdy ∧ t.cpu.resb = s.cpu.resb ∧
    t.cpu.irqb = s.cpu.irqb ∧ t.cpu.nmib = s.cpu.nmib ∧ t.cpu.alive = s.cpu.alive ∧ t.cpu.vecOk = s.cpu.vecOk ∧
    t.cpu.opaddr = s.cpu.opaddr ∧ t.cpu.op = s.cpu.op ∧ t.cpu.b1 = s.cpu.b1 ∧ t.cpu.b2 = s.cpu.b2 ∧ t.cpu.ea = s.cpu.ea ∧
    { t.cpu.flags with n := s.cpu.flags.n, z := s.cpu.flags.z } = s.cpu.flags ∧
    (i = .brk ∨ i = .nop ∨ absAccessOf i = some .store → t.cpu.flags = s.cpu.flags) ∧
    (i ≠ .brk → t.cpu.state = s.cpu.state) ∧
    (t.cpu.a ≠ s.cpu.a → i.mnemonic = .ldaImm ∨ i.mnemonic = .ldaAbs ∨ i = .txa ∨ i = .tya) ∧
    (t.cpu.x ≠ s.cpu.x → i.mnemonic = .ldxImm ∨ i.mnemonic = .ldxAbs ∨ i = .inx ∨ i = .dex ∨ i = .tax) ∧
    (t.cpu.y ≠ s.cpu.y → i.mnemonic = .ldyImm ∨ i.mnemonic = .ldyAbs ∨ i = .iny ∨ i = .dey ∨ i = .tay) ∧
    (absAccessOf i ≠ some .store → t.chips = s.chips ∧ ∀ addr, memByte addr t = memByte addr s)

/-! ### The sequencer (spec/44_cpu_sequencer.md) -/

/-- R201–R209: what `power_on` does (the spec's choice D32), the `PowerOn` step, which is the reset entry whatever `PHI0` holds unless
the CPU is stopped (D15), and what a dispatch does, in the order of R209 (the order and the sampling are D12, D13, D42). -/
def Obligations.DispatchFollowsItsPriority : Prop :=
  (∀ s : State, s.fault = none →
    (s.cpu.state = .powerOff →
      eventStep (.host .powerOn) s = some (.next { s with cpu := { s.cpu with state := .powerOn } })) ∧
    (s.cpu.state ≠ .powerOff → eventStep (.host .powerOn) s = some (.next s))) ∧
  (∀ s : State, s.cpu.state = .powerOn →
    (s.cpu.alive = true → cpuStep s = some (.next (resetEntry s)) ∧ cpuSpanStep s = some (.next (resetSpan s))) ∧
    (s.cpu.alive = false → cpuStep s = none ∧ cpuSpanStep s = none)) ∧
  ∀ s : State, s.cpu.seq = .waitHi → (s.cpu.state = .running ∨ s.cpu.state = .halted) →
    (s.clock.clkPin = false → cpuStep s = none) ∧
    (s.cpu.alive = false → cpuStep s = none) ∧
    (s.clock.clkPin = true → s.cpu.alive = true →
      (s.cpu.resb = false →
        cpuStep s = some (.next (resetEntry s)) ∧ cpuSpanStep s = some (.next (resetSpan s))) ∧
      (s.cpu.resb = true →
        (s.cpu.state = .halted → cpuStep s = none) ∧
        (s.cpu.state = .running → s.cpu.rdy = false → cpuStep s = none) ∧
        (s.cpu.state = .running → s.cpu.rdy = true →
          cpuStep s = some (.next { s with cpu := { s.cpu with opaddr := s.cpu.pc, seq := .fetchOp } }))))

/-- R200: a CPU in `PowerOff` has no step, only the host's `power_on` takes it out of `PowerOff`, and `PowerOff` is initial. -/
def Obligations.PowerOffIsLeftOnlyByPowerOn : Prop :=
  (∀ s : State, s.cpu.state = .powerOff → cpuStep s = none ∧ cpuTimeoutStep s = none ∧ cpuSpanStep s = none) ∧
  (∀ (e : Event) (s t : State), s.cpu.state = .powerOff → eventStep e s = some (.next t) → t.cpu.state ≠ .powerOff →
    e = .host .powerOn) ∧
  ∀ (c : Config) (draw : CpuDraw), (State.create c draw).cpu.state = .powerOff

/-- R210, R215: one decoder read at `PC`, `PC + 1` modulo 2^16 even on a miss, a miss halts, nothing else but the read's
event; no bus pin and no ownership (D8, D19; D27 and assumption log 12 for an address past its chip). -/
def Obligations.FetchReadsAtPcAndAdvancesIt : Prop :=
  ∀ s : State,
    (fetch s).1 = (memByte s.cpu.pc s, (s.routeOf s.cpu.pc).isSome) ∧
    ((s.routeOf s.cpu.pc).isSome = true →
      (fetch s).2 = { s with
        cpu := { s.cpu with pc := s.cpu.pc + 1 }, diag := s.diag ++ accessEvents .read s.cpu.pc s }) ∧
    (s.routeOf s.cpu.pc = none →
      memByte s.cpu.pc s = 0xFF ∧
      (fetch s).2 = { s with
        cpu := { s.cpu with pc := s.cpu.pc + 1, state := .halted, seq := .waitLo }
        diag := s.diag ++ [⟨.error, .unmapped s.cpu.pc .read⟩] })

/-- R211, R214, R215: phase `FETCH_OP`: a miss halts; else the opcode's format gives the next phase; an unimplemented opcode logs
one event and halts.  That a missed fetch leaves the sentinel in `op` is the model's deduction (DEDUCED, assumption log 17). -/
def Obligations.OpcodeFetchDecodes : Prop :=
  ∀ s : State, s.cpu.state = .running → s.cpu.seq = .fetchOp →
    ∀ op, op = memByte s.cpu.pc s →
    (s.routeOf s.cpu.pc = none → cpuStep s = some (.next { s with
      cpu := { s.cpu with pc := s.cpu.pc + 1, op := op, state := .halted, seq := .waitLo }
      diag := s.diag ++ [⟨.error, .unmapped s.cpu.pc .read⟩] })) ∧
    ((s.routeOf s.cpu.pc).isSome = true →
      (formatOf op = some .imp → cpuStep s = some (.next { s with
        cpu := { s.cpu with pc := s.cpu.pc + 1, op := op, seq := .exec }
        diag := s.diag ++ accessEvents .read s.cpu.pc s })) ∧
      (formatOf op = some .imm ∨ formatOf op = some .abs → cpuStep s = some (.next { s with
        cpu := { s.cpu with pc := s.cpu.pc + 1, op := op, seq := .fetchB1 }
        diag := s.diag ++ accessEvents .read s.cpu.pc s })) ∧
      (formatOf op = none → cpuStep s = some (.next { s with
        cpu := { s.cpu with pc := s.cpu.pc + 1, op := op, state := .halted, seq := .waitLo }
        diag := s.diag ++ accessEvents .read s.cpu.pc s ++ [⟨.error, .unimplementedOpcode op s.cpu.opaddr⟩] })))

/-- R212, R213, R215: the operand fetches: a miss halts; else the byte is latched and the format gives the next phase.  That a missed
fetch leaves the sentinel in `b1` or `b2` is the model's deduction (DEDUCED, assumption log 17). -/
def Obligations.OperandFetchesLatchTheOperand : Prop :=
  ∀ s : State, s.cpu.state = .running →
    ∀ b, b = memByte s.cpu.pc s →
    (s.cpu.seq = .fetchB1 →
      (s.routeOf s.cpu.pc = none → cpuStep s = some (.next { s with
        cpu := { s.cpu with pc := s.cpu.pc + 1, b1 := b, state := .halted, seq := .waitLo }
        diag := s.diag ++ [⟨.error, .unmapped s.cpu.pc .read⟩] })) ∧
      ((s.routeOf s.cpu.pc).isSome = true → formatOf s.cpu.op = some .imm → cpuStep s = some (.next { s with
        cpu := { s.cpu with pc := s.cpu.pc + 1, b1 := b, seq := .exec }
        diag := s.diag ++ accessEvents .read s.cpu.pc s })) ∧
      ((s.routeOf s.cpu.pc).isSome = true → formatOf s.cpu.op = some .abs → cpuStep s = some (.next { s with
        cpu := { s.cpu with pc := s.cpu.pc + 1, b1 := b, seq := .fetchB2 }
        diag := s.diag ++ accessEvents .read s.cpu.pc s }))) ∧
    (s.cpu.seq = .fetchB2 →
      (s.routeOf s.cpu.pc = none → cpuStep s = some (.next { s with
        cpu := { s.cpu with pc := s.cpu.pc + 1, b2 := b, state := .halted, seq := .waitLo }
        diag := s.diag ++ [⟨.error, .unmapped s.cpu.pc .read⟩] })) ∧
      ((s.routeOf s.cpu.pc).isSome = true → cpuStep s = some (.next { s with
        cpu := { s.cpu with pc := s.cpu.pc + 1, b2 := b, ea := wordOfBytes s.cpu.b1 b, seq := .absTry }
        diag := s.diag ++ accessEvents .read s.cpu.pc s })))

/-- R219: `WAIT_LO` passes when `PHI0` is 0, in `Running` and in `Halted`, and sets nothing but the phase; a clock toggle lifts the
wait. -/
def Obligations.WaitLoPassesAtALowClock : Prop :=
  ∀ s : State, s.cpu.seq = .waitLo → (s.cpu.state = .running ∨ s.cpu.state = .halted) →
    (s.clock.clkPin = false → cpuStep s = some (.next { s with cpu := { s.cpu with seq := .waitHi } })) ∧
    (s.clock.clkPin = true → cpuStep s = none ∧ (cpuStep (toggleClock s)).isSome = true)

/-- R224: the transitions of `Cpu.state`, each with what makes it; the span event is left out because it makes several at once. -/
def Obligations.ExecStateTransitions : Prop :=
  ∀ (e : Event) (s t : State), s.Inv → e ≠ .cpuSpan → eventStep e s = some (.next t) → t.cpu.state ≠ s.cpu.state →
    (s.cpu.state = .powerOff ∧ t.cpu.state = .powerOn ∧ e = .host .powerOn) ∨
    (s.cpu.state = .powerOn ∧ t.cpu.state = .reset ∧ e = .cpu) ∨
    ((s.cpu.state = .running ∨ s.cpu.state = .halted) ∧ t.cpu.state = .reset ∧ e = .cpu ∧
      s.cpu.seq = .waitHi ∧ s.cpu.resb = false ∧ s.clock.clkPin = true ∧ s.cpu.alive = true) ∨
    (s.cpu.state = .reset ∧ t.cpu.state = .running ∧ e = .cpu ∧ s.cpu.seq = .rstEnd) ∨
    (s.cpu.state = .running ∧ t.cpu.state = .halted ∧ e = .cpu ∧
      ((s.cpu.seq = .exec ∧ latchedInstr s = some .brk) ∨
       (s.cpu.seq = .fetchOp ∧ (s.routeOf s.cpu.pc = none ∨ formatOf (memByte s.cpu.pc s) = none)) ∨
       ((s.cpu.seq = .fetchB1 ∨ s.cpu.seq = .fetchB2) ∧ s.routeOf s.cpu.pc = none)))

/-- R220: between two dispatches of a run the CPU passes `WAIT_LO` with `PHI0` low, so one high level never starts two. -/
def Obligations.DispatchesAreDebounced : Prop :=
  ∀ (ev : Nat → Event) (r : Nat → State), IsRun ev r →
    ∀ n m, n < m → leavesWaitHi r n → leavesWaitHi r m →
    ∃ j, n < j ∧ j < m ∧ (r j).cpu.seq = .waitLo ∧ (r j).clock.clkPin = false ∧ (r (j + 1)).cpu.seq = .waitHi

/-- R226, R227: after a dispatch the CPU's step does not depend on `RESB`, `RDY`, `IRQB`, `NMIB` or its run flag until its next
`WAIT_HI`. -/
def Obligations.NoAbortInsideAnInstruction : Prop :=
  ∀ (s : State) (resb rdy irqb nmib alive : Bool), s.cpu.seq ≠ .waitHi → switchedOn s = true →
    cpuStep { s with cpu := { s.cpu with resb := resb, rdy := rdy, irqb := irqb, nmib := nmib, alive := alive } } =
      (cpuStep s).map (mapNext fun t =>
        { t with cpu := { t.cpu with resb := resb, rdy := rdy, irqb := irqb, nmib := nmib, alive := alive } })

/-! ### Reset and boot (spec/70_reset_and_hazards.md) -/

/-- R330, R331: what the reset entry writes, and nothing else (`SP` and `U` at 0 are the spec's choice D11). -/
def Obligations.ResetEntryClearsTheRegisters : Prop :=
  ∀ s : State, resetEntry s = { s with cpu := { s.cpu with
    state := .reset, seq := .rstTry, a := 0x00, x := 0x00, y := 0x00, sp := 0x00, rwb := true, vecOk := false,
    flags := { n := false, v := false, u := false, b := false, d := false, i := true, z := false, c := false } } }

/-- R330–R336: a whole reset with the bus free: the registers cleared, `PC` from the two vector bytes (0xFF where unmapped), the
address pins at the vector's second byte, and no data pin, storage, clock or ownership changed (D11, D19, D38, D39; D27 and
assumption log 12 for an address past its chip). -/
def Obligations.ResetReadsTheVectorWhenTheBusIsFree : Prop :=
  ∀ s : State, s.bus.owner = none →
    ∀ v, v = s.cfg.resetVector →
    resetSpan s = { s with
      cpu := { s.cpu with
        a := 0, x := 0, y := 0, sp := 0, flags := Flags.afterReset, rwb := true, vecOk := true
        b1 := memByte v s, b2 := memByte (v + 1) s
        pc := memByte (v + 1) s ++ memByte v s
        state := .running, seq := .waitLo }
      bus := { s.bus with pins := putAddress (v + 1) s.bus.pins }
      diag := s.diag ++ accessEvents .read v s ++ accessEvents .read (v + 1) s }

/-- R333, R334, R339: a whole reset with the bus held and nobody to release it: one event, `PC` at 0x0000, no bus pin changed. -/
def Obligations.ResetFallsBackWhenTheBusIsHeld : Prop :=
  ∀ s : State, s.bus.owner ≠ none →
    resetSpan s = { s with
      cpu := { s.cpu with
        a := 0, x := 0, y := 0, sp := 0, flags := Flags.afterReset, rwb := true, vecOk := false
        pc := 0x0000, state := .running, seq := .waitLo }
      diag := s.diag ++ [⟨.error, .resetVectorFallback⟩] }

/-- R338, R12: from any assembly, whatever the CPU's registers were drawn as, and with any image preloaded, the boot schedule with
the bus free runs exactly the reset. -/
def Obligations.BootRunsTheReset : Prop :=
  ∀ (c : Config) (draw : CpuDraw) (image : List ImageByte) (rest : List Event),
    Host.Core.run Sys2Proof.core bootEvents.length
        { preload image (State.create c draw) with sched := bootEvents ++ rest } =
      .next (resetSpan { preload image (State.create c draw) with sched := rest })

/-- R24, R331–R336: the reference assembly, just created and booted with the bus free, is the model's reset state, whatever its
registers were drawn as (the reference values are assumption log 8). -/
def Obligations.ResetStateIsTheBootedReference : Prop :=
  ∀ draw : CpuDraw,
    Host.Core.run Sys2Proof.core bootEvents.length { State.create Config.reference draw with sched := bootEvents } =
      .next State.reset

/-! ### Bus arbiter and pins (spec/40_bus_arbiter.md) -/

/-- R106, R107: a release by the holder frees the bus, writes no pin, and enables every waiting requester's grant step; any other
release changes nothing. -/
def Obligations.OnlyTheHolderReleasesTheBus : Prop :=
  ∀ (id : ComponentId) (s : State),
    (s.bus.owner = some id →
      releaseBus id s = { s with bus := { s.bus with owner := none } } ∧
      (absGrant (releaseBus id s)).isSome = true ∧ (rstGrant (releaseBus id s)).isSome = true ∧
      (s.hostPhase = .wait → (hostGrantStep (releaseBus id s)).isSome = true) ∧
      ∀ k c, s.chips[k]? = some c → c.phase = .wait → (chipStep k (releaseBus id s)).isSome = true) ∧
    (s.bus.owner ≠ some id → releaseBus id s = s)

/-- R101–R103, R119, R134, R135: the try, grant and timeout steps of the host and of a chip (the CPU's are in
`BracketRunsStepByStep`); a timeout is enabled whatever the owner and writes nothing to the bus (D3). -/
def Obligations.RequestsAreTriedGrantedOrTimedOut : Prop :=
  ∀ s : State,
    (s.hostPhase = .idle → s.bus.owner = none →
      hostStep .request s = some { s with bus := { s.bus with owner := some .host } }) ∧
    (s.hostPhase = .idle → s.bus.owner ≠ none → hostStep .request s = some { s with hostPhase := .wait }) ∧
    (s.hostPhase = .wait → hostStep .request s = none ∧ hostTimeoutStep s = some { s with hostPhase := .idle }) ∧
    (s.hostPhase = .wait → s.bus.owner = none →
      hostGrantStep s = some { s with bus := { s.bus with owner := some .host }, hostPhase := .idle }) ∧
    (s.bus.owner ≠ none → hostGrantStep s = none) ∧
    (∀ k c, s.chips[k]? = some c →
      (c.phase = .try ∨ c.phase = .wait → s.bus.owner = none →
        chipStep k s = some { s with
          bus := { s.bus with owner := some (.chip k) }, chips := s.chips.set k { c with phase := .drive } }) ∧
      (c.phase = .try → s.bus.owner ≠ none →
        chipStep k s = some { s with chips := s.chips.set k { c with phase := .wait } }) ∧
      (c.phase = .wait → s.bus.owner ≠ none → chipStep k s = none) ∧
      (c.phase = .wait → chipTimeoutStep k s = some { s with
        chips := s.chips.set k { c with phase := .top }, diag := s.diag ++ [⟨.warning, .busTimeout (.chip k)⟩] }))

/-- R105: in one step, the bus passes from one owner to another only through a release; it is taken only from nobody, by the agent
whose step it is, and given back only by its owner's step. -/
def Obligations.OwnershipPassesThroughARelease : Prop :=
  ∀ (e : Event) (s t : State), eventStep e s = some (.next t) → t.bus.owner ≠ s.bus.owner →
    (s.bus.owner = none ∧
      ((t.bus.owner = some .cpu ∧ e = .cpu) ∨ (∃ k, t.bus.owner = some (.chip k) ∧ e = .chip k) ∨
       (t.bus.owner = some .host ∧ (e = .host .request ∨ e = .hostGrant)))) ∨
    (t.bus.owner = none ∧
      ((s.bus.owner = some .cpu ∧ e = .cpu) ∨ (∃ k, s.bus.owner = some (.chip k) ∧ e = .chip k) ∨
       (s.bus.owner = some .host ∧ e = .host .release)))

/-- R80, R108–R112, R115: each accessor, as a step of the host, writes its own bits and no other; a view reads what was written to it; and
the bus reset zeroes the pins and keeps `power` and `owner` (the bit positions are the spec's choice D1; that the CPU reset makes
no bus reset, D38). -/
def Obligations.PinAccessorsWriteOnlyTheirBits : Prop :=
  (∀ (a : Addr) (p : Pins), addressView (putAddress a p) = a ∧ dataView (putAddress a p) = dataView p ∧
    ∀ j, 16 ≤ j → pinAt j (putAddress a p) = pinAt j p) ∧
  (∀ (d : Byte) (p : Pins), dataView (putData d p) = d ∧ addressView (putData d p) = addressView p ∧
    ∀ j, j < 16 ∨ 24 ≤ j → pinAt j (putData d p) = pinAt j p) ∧
  (∀ (i : Nat) (v : Bool) (s : State), s.cfg.wellFormed = true → i < s.cfg.busWidth →
    setPin i v s = { s with bus := { s.bus with pins := putPin i v s.bus.pins } } ∧
    ∀ j, pinAt j (putPin i v s.bus.pins) = if j = i then v else pinAt j s.bus.pins) ∧
  (∀ (p : Pins) (j : Nat), (j < 16 → pinAt j p = (addressView p).getLsbD j) ∧
    (j < 8 → pinAt (16 + j) p = (dataView p).getLsbD j)) ∧
  ∀ s : State, s.fault = none →
    (∀ a, eventStep (.host (.writeAddress a)) s =
      some (.next { s with bus := { s.bus with pins := putAddress a s.bus.pins } })) ∧
    (∀ d, eventStep (.host (.writeData d)) s = some (.next { s with bus := { s.bus with pins := putData d s.bus.pins } })) ∧
    (∀ i v, i < s.cfg.busWidth → eventStep (.host (.setPin i v)) s =
      some (.next { s with bus := { s.bus with pins := putPin i v s.bus.pins } })) ∧
    (eventStep (.host .readAddress) s = some (.next s) ∧ hostReply .readAddress s = .word (addressView s.bus.pins)) ∧
    (eventStep (.host .readData) s = some (.next s) ∧ hostReply .readData s = .byte (dataView s.bus.pins)) ∧
    eventStep (.host .resetBus) s =
      some (.next { s with bus := { power := s.bus.power, pins := 0, owner := s.bus.owner } })

/-- R113: `get_pin(i)` below the bus width returns the pin and writes nothing. -/
def Obligations.GetPinReadsThePin : Prop :=
  ∀ (i : Nat) (s : State), s.fault = none → i < s.cfg.busWidth →
    eventStep (.host (.getPin i)) s = some (.next s) ∧ hostReply (.getPin i) s = .bool (pinAt i s.bus.pins)

/-- R41, R114: the model fault is raised by a pin index from the bus width up, by nothing else, with no other effect; it is never
cleared and ends the run (D36). -/
def Obligations.FaultIsRaisedOnlyByAPinIndex : Prop :=
  (∀ (i : Nat) (v : Bool) (s : State), s.fault = none → s.cfg.busWidth ≤ i →
    eventStep (.host (.setPin i v)) s = some (.next { s with fault := some (.pinIndexOutOfRange i) }) ∧
    eventStep (.host (.getPin i)) s = some (.next { s with fault := some (.pinIndexOutOfRange i) })) ∧
  (∀ (e : Event) (s t : State), eventStep e s = some (.next t) → t.fault ≠ none →
    ∃ i, s.cfg.busWidth ≤ i ∧ t.fault = some (.pinIndexOutOfRange i) ∧
      (e = .host (.getPin i) ∨ ∃ v, e = .host (.setPin i v))) ∧
  (∀ (e : Event) (s : State), s.fault ≠ none → eventStep e s = none) ∧
  (∀ (s : State) (r : Fault), s.fault = some r → step s = .fault r)

/-! ### Chips (spec/41_chip_protocol.md) -/

/-- R131–R133, R136: the poll of a selected or deselected chip that is not read: a write cycle stores `d_pins` at `a_pins` or logs,
every other code changes nothing (codes 000 and 011 are the spec's choice D25). -/
def Obligations.ChipPollWritesOrDoesNothing : Prop :=
  ∀ (k : Nat) (c : Chip) (s : State), s.chips[k]? = some c → c.phase = .top → c.alive = true →
    (c.ceN = true → chipStep k s = some s) ∧
    (c.ceN = false → c.oeN = false → c.weN = false → chipStep k s = some s) ∧
    (c.ceN = false → c.oeN = true → c.weN = true → chipStep k s = some s) ∧
    (c.ceN = false → c.oeN = true → c.weN = false →
      (c.aPins.toNat < c.capacity → chipStep k s = some (chipWriteByte k c.aPins.toNat c.dPins s)) ∧
      (c.capacity ≤ c.aPins.toNat → chipStep k s = some { s with
        diag := s.diag ++ [⟨.warning, .outOfRange k c.aPins.toNat⟩] }))

/-- R134, R135: a read cycle of four steps with the bus free: `d_pins` and then `Bus.data` get the addressed byte (0xFF out of range), the
bus is released, and no storage changes; and one whose request times out: `d_pins` keeps the byte, `Bus.data` is unchanged, one
event (D33). -/
def Obligations.ChipReadCycleDrivesTheBusOrSkipsIt : Prop :=
  ∀ (k : Nat) (c : Chip) (s : State) (rest : List Event), s.fault = none →
    s.chips[k]? = some c → c.phase = .top → c.alive = true → c.ceN = false → c.oeN = false → c.weN = true →
    (s.bus.owner = none → Host.Core.run Sys2Proof.core 4 { s with sched := .chip k :: .chip k :: .chip k :: .chip k :: rest } =
      .next { s with
        chips := s.chips.set k { c with dPins := chipByte k c.aPins.toNat s, latch := chipByte k c.aPins.toNat s }
        bus := { s.bus with pins := putData (chipByte k c.aPins.toNat s) s.bus.pins }
        diag := s.diag ++ directEvents 1 k c.aPins.toNat s
        sched := rest }) ∧
    (s.bus.owner ≠ none → Host.Core.run Sys2Proof.core 3 { s with sched := .chip k :: .chip k :: .chipTimeout k :: rest } =
      .next { s with
        chips := s.chips.set k { c with dPins := chipByte k c.aPins.toNat s, latch := chipByte k c.aPins.toNat s }
        diag := s.diag ++ directEvents 1 k c.aPins.toNat s ++ [⟨.warning, .busTimeout (.chip k)⟩]
        sched := rest })

/-- R146, R132: a chip's step changes the bus pins only as the bus's owner, in the drive step of its read cycle, and only the data
view; it drives its own data pins only when a poll finds the read code. -/
def Obligations.ChipDrivesTheBusOnlyAsItsOwner : Prop :=
  ∀ (k : Nat) (c : Chip) (s t : State), s.Inv → s.chips[k]? = some c →
    (eventStep (.chip k) s = some (.next t) ∨ eventStep (.chipTimeout k) s = some (.next t)) →
    (t.bus.pins ≠ s.bus.pins →
      s.bus.owner = some (.chip k) ∧ c.phase = .drive ∧ t.bus.pins = putData c.latch s.bus.pins) ∧
    (∀ c', t.chips[k]? = some c' → c'.dPins ≠ c.dPins →
      c.phase = .top ∧ c.ceN = false ∧ c.oeN = false ∧ c.weN = true) ∧
    (∀ j, j ≠ k → t.chips[j]? = s.chips[j]?)

/-- R13, R138, R189, R208: a stopped agent has no step at its loop top, and a stopped chip there never holds the bus. -/
def Obligations.StoppedAgentsTakeNoStepAtTheirTop : Prop :=
  ∀ s : State,
    (s.cpu.alive = false → s.cpu.seq = .waitHi → cpuStep s = none ∧ cpuSpanStep s = none) ∧
    (∀ k c, s.chips[k]? = some c → c.alive = false → c.phase = .top →
      chipStep k s = none ∧ chipTimeoutStep k s = none ∧ (s.Inv → s.bus.owner ≠ some (.chip k))) ∧
    (s.clock.alive = false → clockAgentStep s = none ∧ hostStep .clockStep s = some (toggleClock s))

/-- R140–R142, §8 of the source, R11 row 5: a direct byte write is read back in range, leaves every other byte, and out of range reads
0xFF and writes nothing, with one event (D27); the host's byte accesses are these, each one step. -/
def Obligations.DirectByteAccess : Prop :=
  ∀ (k a : Nat) (c : Chip) (v : Byte) (s : State), s.memoryOk → s.chips[k]? = some c →
    (a < c.capacity →
      (chipReadByte k a s).2 = s ∧ (chipWriteByte k a v s).diag = s.diag ∧
      ∀ j b, chipByte j b (chipWriteByte k a v s) = if j = k ∧ b = a then v else chipByte j b s) ∧
    (c.capacity ≤ a →
      chipByte k a s = 0xFF ∧
      (chipReadByte k a s).2 = { s with diag := s.diag ++ [⟨.warning, .outOfRange k a⟩] } ∧
      chipWriteByte k a v s = { s with diag := s.diag ++ [⟨.warning, .outOfRange k a⟩] }) ∧
    (s.fault = none →
      eventStep (.host (.readByte k a)) s = some (.next (chipReadByte k a s).2) ∧
      hostReply (.readByte k a) s = .byte (chipByte k a s) ∧
      eventStep (.host (.writeByte k a v)) s = some (.next (chipWriteByte k a v s)))

/-- R63, with the in-range part of R143 and R144: a word is its two bytes, the low one first; written in one step, read back, and no
other byte changes. -/
def Obligations.DirectWordAccess : Prop :=
  ∀ (k a : Nat) (c : Chip) (w : Addr) (s : State), s.memoryOk → s.chips[k]? = some c → a + 1 < c.capacity →
    chipWord k a s = chipByte k (a + 1) s ++ chipByte k a s ∧ (chipReadWord k a s).2 = s ∧
    chipWord k a (chipWriteWord k a w s) = w ∧ (chipWriteWord k a w s).diag = s.diag ∧
    (∀ l h, chipWord k a (chipWriteByte k (a + 1) h (chipWriteByte k a l s)) = h ++ l) ∧
    ∀ j b, chipByte j b (chipWriteWord k a w s) =
      if j = k ∧ b = a then lowByte w else if j = k ∧ b = a + 1 then highByte w else chipByte j b s

/-- R143, R144, R11 row 5: a word whose high byte is out of range reads 0xFFFF and writes neither byte, with one event (the spec's
choices D24, D27); the host's word accesses, in range or past the end, are these, each one step. -/
def Obligations.DirectWordPastTheEnd : Prop :=
  ∀ (k a : Nat) (c : Chip) (w : Addr) (s : State), s.chips[k]? = some c →
    (c.capacity ≤ a + 1 →
      chipWord k a s = 0xFFFF ∧
      (chipReadWord k a s).2 = { s with diag := s.diag ++ [⟨.warning, .outOfRange k a⟩] } ∧
      chipWriteWord k a w s = { s with diag := s.diag ++ [⟨.warning, .outOfRange k a⟩] }) ∧
    (s.fault = none →
      eventStep (.host (.readWord k a)) s = some (.next (chipReadWord k a s).2) ∧
      hostReply (.readWord k a) s = .word (chipWord k a s) ∧
      eventStep (.host (.writeWord k a w)) s = some (.next (chipWriteWord k a w s)))

/-- R24: at creation every byte of a ROM-kind chip reads 0xFF and every byte of a RAM-kind chip 0x00. -/
def Obligations.CreatedStorageReadsItsFill : Prop :=
  ∀ (cfg : Config) (draw : CpuDraw) (k a : Nat) (kc : ChipConfig), cfg.chips[k]? = some kc → a < kc.capacity →
    (kc.kind = .rom → chipByte k a (State.create cfg draw) = 0xFF) ∧
    (kc.kind = .ram → chipByte k a (State.create cfg draw) = 0x00)

/-- The canonical form is one for each contents: storages in canonical form that read the same everywhere are the same list (the form
is the model's, assumption log 6). -/
def Obligations.CanonicalStorageIsUnique : Prop :=
  ∀ (fill : Byte) (cap : Nat) (m m' : Memory), Memory.wf fill cap m = true → Memory.wf fill cap m' = true →
    (∀ a, Memory.read fill m a = Memory.read fill m' a) → m = m'

/-! ### Address decoder (spec/42_address_decoder.md) -/

/-- R161, R166: an address is routed by the first mapping that contains it, in insertion order, to the local address `addr - start`
computed without wrap; it is a miss exactly if none contains it. -/
def Obligations.RoutingTakesTheFirstMatch : Prop :=
  ∀ (ms : List Mapping) (addr : Addr),
    (∀ (pre post : List Mapping) (m : Mapping), ms = pre ++ m :: post →
      (∀ p ∈ pre, ¬ (p.first.toNat ≤ addr.toNat ∧ addr.toNat ≤ p.last.toNat)) →
      m.first.toNat ≤ addr.toNat → addr.toNat ≤ m.last.toNat →
      route ms addr = some (m.chip, addr.toNat - m.first.toNat) ∧
      addr.toNat - m.first.toNat ≤ m.last.toNat - m.first.toNat) ∧
    (route ms addr = none ↔ ∀ m ∈ ms, ¬ (m.first.toNat ≤ addr.toNat ∧ addr.toNat ≤ m.last.toNat))

/-- R162–R165, R167, R11 row 6: a decoder read or write is the routed chip's direct access, or on a miss the sentinel 0xFF with `hit`
false and an error event, and no effect but a warning event; the host's decoder calls are these, each one step.  The severity
of `OutOfRange` is the spec's choice D27, a range larger than its chip D28; a chip number past `NCHIPS` is assumption log 12. -/
def Obligations.DecoderReadsAndWritesTheRoutedChip : Prop :=
  ∀ (addr : Addr) (v : Byte) (s : State),
    (∀ k a, s.routeOf addr = some (k, a) →
      (memRead addr s).1 = ((chipReadByte k a s).1, true) ∧ (memRead addr s).2 = (chipReadByte k a s).2 ∧
      memWrite addr v s = chipWriteByte k a v s ∧
      (a < chipCapacity k s → (memRead addr s).2 = s) ∧
      (chipCapacity k s ≤ a →
        memRead addr s = ((0xFF, true), { s with diag := s.diag ++ [⟨.warning, .outOfRange k a⟩] }) ∧
        memWrite addr v s = { s with diag := s.diag ++ [⟨.warning, .outOfRange k a⟩] })) ∧
    (s.routeOf addr = none →
      memRead addr s = ((0xFF, false), { s with diag := s.diag ++ [⟨.error, .unmapped addr .read⟩] }) ∧
      memWrite addr v s = { s with diag := s.diag ++ [⟨.warning, .unmapped addr .write⟩] }) ∧
    (s.fault = none →
      eventStep (.host (.decoderRead addr)) s = some (.next (memRead addr s).2) ∧
      hostReply (.decoderRead addr) s = .byteHit (memRead addr s).1.1 (memRead addr s).1.2 ∧
      eventStep (.host (.decoderWrite addr v)) s = some (.next (memWrite addr v s)))

/-- R169: a decoder access neither requests nor checks ownership and touches no bus pin; what it reads and writes depends on the mappings
and the chips alone, so on no permission and no caller; and its only translation is the subtraction of `start`. -/
def Obligations.DecoderUsesNoBus : Prop :=
  ∀ (addr : Addr) (v : Byte) (s : State),
    (memRead addr s).2.bus = s.bus ∧ (memWrite addr v s).bus = s.bus ∧
    (∀ b : Bus, memRead addr { s with bus := b } = ((memRead addr s).1, { (memRead addr s).2 with bus := b }) ∧
      memWrite addr v { s with bus := b } = { memWrite addr v s with bus := b }) ∧
    (∀ s' : State, s'.cfg = s.cfg → s'.chips = s.chips →
      (memRead addr s').1 = (memRead addr s).1 ∧ (memWrite addr v s').chips = (memWrite addr v s).chips) ∧
    ∀ k a, s.routeOf addr = some (k, a) → ∃ m ∈ s.cfg.mappings, m.chip = k ∧ m.first.toNat + a = addr.toNat

/-! ### Clock (spec/43_clock.md) -/

/-- R182, R183, R185: `sasm` and `smsm` set the mode and leave `clk_pin`; astable mode enables the oscillator of a running clock with a
valid speed; in monostable mode it has no step and only `step()` changes `clk_pin`; `get_speed` returns the speed.  When the
oscillator has a step rests on the spec's choices D29 and D30 (R186, R188, R189), and which bit patterns are a valid speed is
PRESUMED binary32 (assumption log 7). -/
def Obligations.ClockOperations : Prop :=
  ∀ s : State, s.fault = none →
    eventStep (.host .sasm) s = some (.next { s with clock := { s.clock with mode := .astable } }) ∧
    (s.clock.alive = true → speedValid s.clock.speedHz = true → (clockAgentStep (setAstable s)).isSome = true) ∧
    eventStep (.host .smsm) s = some (.next { s with clock := { s.clock with mode := .monostable } }) ∧
    clockAgentStep (setMonostable s) = none ∧
    (s.clock.mode = .monostable →
      ∀ e t, eventStep e s = some (.next t) → t.clock.clkPin ≠ s.clock.clkPin → e = .host .clockStep) ∧
    eventStep (.host .getSpeed) s = some (.next s) ∧ hostReply .getSpeed s = .speed s.clock.speedHz

/-- R181, R184, R186, R188, R189: `step()` toggles `clk_pin` in either mode and `set_speed` takes every value; `clk_pin` changes only by
`step()` or by the oscillator, which is alive, in astable mode, with a finite speed above zero (the spec's choices D29, D30).  That the
bit patterns of the finite values above zero are 0x00000001 to 0x7F7FFFFF is the format IEEE-754 binary32, which is PRESUMED
(assumption log 7). -/
def Obligations.ClockPinChangesOnlyByAToggle : Prop :=
  (∀ (s : State) (f : F32), s.fault = none →
    eventStep (.host .clockStep) s = some (.next { s with clock := { s.clock with clkPin := !s.clock.clkPin } }) ∧
    eventStep (.host (.setSpeed f)) s = some (.next { s with clock := { s.clock with speedHz := f } })) ∧
  (∀ s : State, s.fault = none → s.clock.mode = .astable → s.clock.alive = true →
    0 < s.clock.speedHz.toNat → s.clock.speedHz.toNat < 0x7F800000 →
    eventStep .clock s = some (.next { s with clock := { s.clock with clkPin := !s.clock.clkPin } })) ∧
  ∀ (e : Event) (s t : State), eventStep e s = some (.next t) → t.clock.clkPin ≠ s.clock.clkPin →
    e = .host .clockStep ∨
    (e = .clock ∧ s.clock.mode = .astable ∧ s.clock.alive = true ∧
      s.clock.speedHz.toNat < 0x7F800000 ∧ 0 < s.clock.speedHz.toNat)

/-- R187: in a fair run in which the oscillator stays enabled, `clk_pin` keeps toggling (fairness is the spec's choice D49; which bit
patterns are a valid speed is PRESUMED, assumption log 7). -/
def Obligations.AstableClockKeepsToggling : Prop :=
  ∀ (ev : Nat → Event) (r : Nat → State), FairRun ev r →
    (∃ n, ∀ m, n ≤ m →
      (r m).clock.mode = .astable ∧ (r m).clock.alive = true ∧ speedValid (r m).clock.speedHz = true) →
    ∀ n, ∃ m, n ≤ m ∧ (r (m + 1)).clock.clkPin ≠ (r m).clock.clkPin

/-! ### The whole machine -/

/-- R223: the CPU's registers, program counter and flags are written only by its own steps, and an inspection changes nothing. -/
def Obligations.CpuRegistersAreWrittenOnlyByTheCpu : Prop :=
  (∀ (e : Event) (s t : State), eventStep e s = some (.next t) →
    e ≠ .cpu → e ≠ .cpuTimeout → e ≠ .cpuSpan →
    t.cpu.a = s.cpu.a ∧ t.cpu.x = s.cpu.x ∧ t.cpu.y = s.cpu.y ∧ t.cpu.sp = s.cpu.sp ∧ t.cpu.pc = s.cpu.pc ∧
    t.cpu.flags = s.cpu.flags ∧ t.cpu.seq = s.cpu.seq ∧ t.cpu.rwb = s.cpu.rwb) ∧
  (∀ (q : Query) (s : State), s.fault = none → eventStep (.host (.inspect q)) s = some (.next s)) ∧
  ∀ s : State,
    inspect .a s = .byte s.cpu.a ∧ inspect .x s = .byte s.cpu.x ∧ inspect .y s = .byte s.cpu.y ∧
    inspect .sp s = .byte s.cpu.sp ∧ inspect .pc s = .word s.cpu.pc ∧ inspect .execState s = .execState s.cpu.state ∧
    inspect .flagN s = .bool s.cpu.flags.n ∧ inspect .flagV s = .bool s.cpu.flags.v ∧
    inspect .flagU s = .bool s.cpu.flags.u ∧ inspect .flagB s = .bool s.cpu.flags.b ∧
    inspect .flagD s = .bool s.cpu.flags.d ∧ inspect .flagI s = .bool s.cpu.flags.i ∧
    inspect .flagZ s = .bool s.cpu.flags.z ∧ inspect .flagC s = .bool s.cpu.flags.c ∧
    inspect .pinRwb s = .bool s.cpu.rwb ∧ inspect .pinSync s = .bool s.cpu.sync ∧
    inspect .pinRdy s = .bool s.cpu.rdy ∧ inspect .pinIrqb s = .bool s.cpu.irqb ∧
    inspect .pinNmib s = .bool s.cpu.nmib ∧ inspect .pinResb s = .bool s.cpu.resb ∧
    inspect .pinPhi0 s = .bool s.clock.clkPin

/-- R130, R222, R116, R13: the host drives a chip's pins, the CPU's input pins and `Bus.power`, and clears a run flag; each writes what it
names and nothing else (who drives the pins, D6, and the flags, D30, are the spec's choices; one step may drive several pins of
a component, assumption log 14). -/
def Obligations.HostDrivesPinsAndRunFlags : Prop :=
  ∀ s : State, s.fault = none →
    (∀ v, eventStep (.host (.setPower v)) s = some (.next { s with bus := { s.bus with power := v } })) ∧
    (∀ p : CpuDrive, eventStep (.host (.driveCpu p)) s = some (.next { s with cpu := { s.cpu with
      rdy := p.rdy.getD s.cpu.rdy, resb := p.resb.getD s.cpu.resb
      irqb := p.irqb.getD s.cpu.irqb, nmib := p.nmib.getD s.cpu.nmib } })) ∧
    (∀ k c (p : ChipDrive), s.chips[k]? = some c →
      eventStep (.host (.driveChip k p)) s = some (.next { s with chips := s.chips.set k { c with
        ceN := p.ceN.getD c.ceN, oeN := p.oeN.getD c.oeN, weN := p.weN.getD c.weN
        aPins := p.aPins.getD c.aPins, dPins := p.dPins.getD c.dPins } })) ∧
    eventStep (.host (.stop .cpu)) s = some (.next { s with cpu := { s.cpu with alive := false } }) ∧
    (∀ k c, s.chips[k]? = some c →
      eventStep (.host (.stop (.chip k))) s = some (.next { s with chips := s.chips.set k { c with alive := false } })) ∧
    eventStep (.host (.stop .clock)) s = some (.next { s with clock := { s.clock with alive := false } })

/-- R25, R28: no step changes the configuration, a chip's kind or capacity, or the number of chips; capacities that are `CAP[k]` stay so. -/
def Obligations.ConfigurationIsConstant : Prop :=
  ∀ s t : State, step s = .next t →
    t.cfg = s.cfg ∧
    t.chips.map (fun c => (c.kind, c.capacity)) = s.chips.map (fun c => (c.kind, c.capacity)) ∧
    (s.chipsOk → t.chipsOk)

/-- R40, R310: events are only appended, and no step reads them: a step from a state with other events before it does the same and
keeps them. -/
def Obligations.DiagnosticsAreAppendedAndUnread : Prop :=
  ∀ (s : State) (d : List DiagEvent),
    step { s with diag := d ++ s.diag } = mapNext (fun t => { t with diag := d ++ t.diag }) (step s)

/-- R20, R116, R225, R305: `IRQB`, `NMIB`, `SYNC` and `Bus.power` are read by no step: two states that differ in nothing else step
to states that differ in nothing else (D21, D22, D32). -/
def Obligations.UnreadPinsHaveNoEffect : Prop :=
  ∀ s t : State, equalButUnread s t → outcomesAgree equalButUnread (step s) (step t)

/-- R21, R25, R105, R138, R200–R219, R225, R243: every step, whatever is scheduled or drawn, keeps the invariant: one owner in its own
bracket, phases that fit the state, `RWB` low only inside a store, canonical storage, no pin past the bus width. -/
def Obligations.EveryStepKeepsTheInvariant : Prop :=
  ∀ s t : State, s.Inv → step s = .next t → t.Inv

/-- The model's reset state meets the invariant. -/
def Obligations.ResetMeetsTheInvariant : Prop := State.reset.Inv

/-- R12, R24–R39: every well-formed assembly meets the invariant at creation, whatever its registers were drawn as, and with any image
preloaded. -/
def Obligations.EveryAssemblyMeetsTheInvariant : Prop :=
  ∀ (c : Config) (draw : CpuDraw) (image : List ImageByte), c.wellFormed = true → (preload image (State.create c draw)).Inv

/-- R104: in a fair run no requester waits for ever: the CPU, a chip and the host each leave their wait phase. -/
def Obligations.WaitsEndInAFairRun : Prop :=
  ∀ (ev : Nat → Event) (r : Nat → State), FairRun ev r → ∀ n, (r n).Inv →
    ((r n).cpu.seq = .absWait ∨ (r n).cpu.seq = .rstWait → ∃ m, n < m ∧ (r m).cpu.seq ≠ (r n).cpu.seq) ∧
    (∀ (k : Nat) (c : Chip), (r n).chips[k]? = some c → c.phase = .wait →
      ∃ (m : Nat) (c' : Chip), n < m ∧ (r m).chips[k]? = some c' ∧ c'.phase ≠ .wait) ∧
    ((r n).hostPhase = .wait → ∃ m, n < m ∧ (r m).hostPhase = .idle)
end

