-- ==== Sys2Proof/Laws/State.lean ====
section
/-! SUPPORT. One lemma per field of State and per whole-component update, so that no later proof unfolds a record update. -/

namespace Sys2Proof.Machine

variable (s : State)

@[simp] theorem State.mapCpu_cfg (f : Cpu → Cpu) : (s.mapCpu f).cfg = s.cfg := rfl
@[simp] theorem State.mapCpu_bus (f : Cpu → Cpu) : (s.mapCpu f).bus = s.bus := rfl
@[simp] theorem State.mapCpu_chips (f : Cpu → Cpu) : (s.mapCpu f).chips = s.chips := rfl
@[simp] theorem State.mapCpu_clock (f : Cpu → Cpu) : (s.mapCpu f).clock = s.clock := rfl
@[simp] theorem State.mapCpu_cpu (f : Cpu → Cpu) : (s.mapCpu f).cpu = f s.cpu := rfl
@[simp] theorem State.mapCpu_hostPhase (f : Cpu → Cpu) : (s.mapCpu f).hostPhase = s.hostPhase := rfl
@[simp] theorem State.mapCpu_diag (f : Cpu → Cpu) : (s.mapCpu f).diag = s.diag := rfl
@[simp] theorem State.mapCpu_fault (f : Cpu → Cpu) : (s.mapCpu f).fault = s.fault := rfl
@[simp] theorem State.mapCpu_sched (f : Cpu → Cpu) : (s.mapCpu f).sched = s.sched := rfl
@[simp] theorem State.mapCpu_draws (f : Cpu → Cpu) : (s.mapCpu f).draws = s.draws := rfl

@[simp] theorem State.mapBus_cfg (f : Bus → Bus) : (s.mapBus f).cfg = s.cfg := rfl
@[simp] theorem State.mapBus_bus (f : Bus → Bus) : (s.mapBus f).bus = f s.bus := rfl
@[simp] theorem State.mapBus_chips (f : Bus → Bus) : (s.mapBus f).chips = s.chips := rfl
@[simp] theorem State.mapBus_clock (f : Bus → Bus) : (s.mapBus f).clock = s.clock := rfl
@[simp] theorem State.mapBus_cpu (f : Bus → Bus) : (s.mapBus f).cpu = s.cpu := rfl
@[simp] theorem State.mapBus_hostPhase (f : Bus → Bus) : (s.mapBus f).hostPhase = s.hostPhase := rfl
@[simp] theorem State.mapBus_diag (f : Bus → Bus) : (s.mapBus f).diag = s.diag := rfl
@[simp] theorem State.mapBus_fault (f : Bus → Bus) : (s.mapBus f).fault = s.fault := rfl
@[simp] theorem State.mapBus_sched (f : Bus → Bus) : (s.mapBus f).sched = s.sched := rfl
@[simp] theorem State.mapBus_draws (f : Bus → Bus) : (s.mapBus f).draws = s.draws := rfl

@[simp] theorem State.mapClock_cfg (f : Clock → Clock) : (s.mapClock f).cfg = s.cfg := rfl
@[simp] theorem State.mapClock_bus (f : Clock → Clock) : (s.mapClock f).bus = s.bus := rfl
@[simp] theorem State.mapClock_chips (f : Clock → Clock) : (s.mapClock f).chips = s.chips := rfl
@[simp] theorem State.mapClock_clock (f : Clock → Clock) : (s.mapClock f).clock = f s.clock := rfl
@[simp] theorem State.mapClock_cpu (f : Clock → Clock) : (s.mapClock f).cpu = s.cpu := rfl
@[simp] theorem State.mapClock_hostPhase (f : Clock → Clock) : (s.mapClock f).hostPhase = s.hostPhase := rfl
@[simp] theorem State.mapClock_diag (f : Clock → Clock) : (s.mapClock f).diag = s.diag := rfl
@[simp] theorem State.mapClock_fault (f : Clock → Clock) : (s.mapClock f).fault = s.fault := rfl
@[simp] theorem State.mapClock_sched (f : Clock → Clock) : (s.mapClock f).sched = s.sched := rfl
@[simp] theorem State.mapClock_draws (f : Clock → Clock) : (s.mapClock f).draws = s.draws := rfl

@[simp] theorem State.setChip_cfg (k : Nat) (c : Chip) : (s.setChip k c).cfg = s.cfg := rfl
@[simp] theorem State.setChip_bus (k : Nat) (c : Chip) : (s.setChip k c).bus = s.bus := rfl
@[simp] theorem State.setChip_chips (k : Nat) (c : Chip) : (s.setChip k c).chips = s.chips.set k c := rfl
@[simp] theorem State.setChip_clock (k : Nat) (c : Chip) : (s.setChip k c).clock = s.clock := rfl
@[simp] theorem State.setChip_cpu (k : Nat) (c : Chip) : (s.setChip k c).cpu = s.cpu := rfl
@[simp] theorem State.setChip_hostPhase (k : Nat) (c : Chip) : (s.setChip k c).hostPhase = s.hostPhase := rfl
@[simp] theorem State.setChip_diag (k : Nat) (c : Chip) : (s.setChip k c).diag = s.diag := rfl
@[simp] theorem State.setChip_fault (k : Nat) (c : Chip) : (s.setChip k c).fault = s.fault := rfl
@[simp] theorem State.setChip_sched (k : Nat) (c : Chip) : (s.setChip k c).sched = s.sched := rfl
@[simp] theorem State.setChip_draws (k : Nat) (c : Chip) : (s.setChip k c).draws = s.draws := rfl

@[simp] theorem State.log_cfg (sev : Severity) (kind : DiagKind) : (s.log sev kind).cfg = s.cfg := rfl
@[simp] theorem State.log_bus (sev : Severity) (kind : DiagKind) : (s.log sev kind).bus = s.bus := rfl
@[simp] theorem State.log_chips (sev : Severity) (kind : DiagKind) : (s.log sev kind).chips = s.chips := rfl
@[simp] theorem State.log_clock (sev : Severity) (kind : DiagKind) : (s.log sev kind).clock = s.clock := rfl
@[simp] theorem State.log_cpu (sev : Severity) (kind : DiagKind) : (s.log sev kind).cpu = s.cpu := rfl
@[simp] theorem State.log_hostPhase (sev : Severity) (kind : DiagKind) : (s.log sev kind).hostPhase = s.hostPhase := rfl
@[simp] theorem State.log_diag (sev : Severity) (kind : DiagKind) : (s.log sev kind).diag = s.diag ++ [⟨sev, kind⟩] := rfl
@[simp] theorem State.log_fault (sev : Severity) (kind : DiagKind) : (s.log sev kind).fault = s.fault := rfl
@[simp] theorem State.log_sched (sev : Severity) (kind : DiagKind) : (s.log sev kind).sched = s.sched := rfl
@[simp] theorem State.log_draws (sev : Severity) (kind : DiagKind) : (s.log sev kind).draws = s.draws := rfl

@[simp] theorem State.goto_cfg (q : Seq) : (s.goto q).cfg = s.cfg := rfl
@[simp] theorem State.goto_bus (q : Seq) : (s.goto q).bus = s.bus := rfl
@[simp] theorem State.goto_chips (q : Seq) : (s.goto q).chips = s.chips := rfl
@[simp] theorem State.goto_clock (q : Seq) : (s.goto q).clock = s.clock := rfl
@[simp] theorem State.goto_cpu (q : Seq) : (s.goto q).cpu = { s.cpu with seq := q } := rfl
@[simp] theorem State.goto_hostPhase (q : Seq) : (s.goto q).hostPhase = s.hostPhase := rfl
@[simp] theorem State.goto_diag (q : Seq) : (s.goto q).diag = s.diag := rfl
@[simp] theorem State.goto_fault (q : Seq) : (s.goto q).fault = s.fault := rfl
@[simp] theorem State.goto_sched (q : Seq) : (s.goto q).sched = s.sched := rfl
@[simp] theorem State.goto_draws (q : Seq) : (s.goto q).draws = s.draws := rfl

/-! ### The routing table is configuration: only `cfg` decides where an address goes -/

theorem State.routeOf_congr {s t : State} (h : t.cfg = s.cfg) (addr : Addr) : t.routeOf addr = s.routeOf addr := by
  simp [State.routeOf, h]

/-! ### The register writes of the CPU -/

@[simp] theorem Cpu.loadReg_flags (r : Reg) (v : Byte) (c : Cpu) : (c.loadReg r v).flags = c.flags.setNZ v := rfl

@[simp] theorem Cpu.loadReg_reg_same (r : Reg) (v : Byte) (c : Cpu) : (c.loadReg r v).reg r = v := by
  cases r <;> rfl

theorem Cpu.loadReg_reg_other {r r' : Reg} (h : r' ≠ r) (v : Byte) (c : Cpu) : (c.loadReg r v).reg r' = c.reg r' := by
  cases r <;> cases r' <;> first | rfl | exact absurd rfl h

/-! ### What `step` does with the schedule -/

theorem step_of_fault {s : State} {r : Fault} (h : s.fault = some r) : step s = .fault r := by
  simp [step, h]

theorem step_of_sched {s : State} {e : Event} {rest : List Event} (hf : s.fault = none) (hs : s.sched = e :: rest) :
    step s = runEvent e { s with sched := rest } := by
  simp [step, hf, State.nextEvent, State.takeEvent, hs]

theorem step_of_no_sched {s : State} (hf : s.fault = none) (hs : s.sched = []) :
    step s = runEvent (Config.freeEvent s.draws) { s with draws := s.draws + 1 } := by
  simp [step, hf, State.nextEvent, State.takeEvent, hs]

theorem runEvent_of_enabled {e : Event} {s : State} {r : Result} (h : eventStep e s = some r) : runEvent e s = r := by
  simp [runEvent, h]

theorem runEvent_of_disabled {e : Event} {s : State} (h : eventStep e s = none) : runEvent e s = .next s := by
  simp [runEvent, h]

theorem eventStep_of_no_fault {e : Event} {s : State} (h : s.fault = none) : eventStep e s = agentStep e s := by
  simp [eventStep, h]

end Sys2Proof.Machine
end

