-- ==== Sys2Proof/Laws/Memory.lean ====
section
/-! SUPPORT. Chip storage: a read after a write, and that every memory operation keeps the canonical form. -/

namespace Sys2Proof.Machine

/-- Reading an address below the first entry gives the fill. -/
theorem Memory.read_of_lt (fill : Byte) (cap : Nat) :
    ∀ (m : Memory) (lo a : Nat), Memory.wfFrom fill cap lo m = true → a < lo → Memory.read fill m a = fill
  | [], _, _, _, _ => rfl
  | (k, v) :: t, lo, a, h, ha => by
    simp [Memory.wfFrom] at h
    have hk : ¬ k = a := by omega
    simp only [Memory.read, hk, if_false]
    exact Memory.read_of_lt fill cap t (k + 1) a h.2 (by omega)

/-- A larger bound is harder to meet. -/
theorem Memory.wfFrom_mono (fill : Byte) (cap : Nat) {lo lo' : Nat} (hl : lo' ≤ lo) :
    ∀ {m : Memory}, Memory.wfFrom fill cap lo m = true → Memory.wfFrom fill cap lo' m = true
  | [], _ => rfl
  | (k, v) :: t, h => by
    simp [Memory.wfFrom] at h ⊢
    exact ⟨⟨⟨by omega, h.1.1.2⟩, h.1.2⟩, h.2⟩

/-- A write keeps the canonical form from any bound at or below its address. -/
theorem Memory.wfFrom_write (fill : Byte) (cap : Nat) (a : Nat) (v : Byte) (ha : a < cap) :
    ∀ (m : Memory) (lo : Nat), lo ≤ a → Memory.wfFrom fill cap lo m = true →
      Memory.wfFrom fill cap lo (Memory.write fill m a v) = true
  | [], lo, hlo, _ => by
    by_cases hv : v = fill <;> simp [Memory.write, Memory.wfFrom, hv, hlo, ha]
  | (k, w) :: t, lo, hlo, h => by
    simp [Memory.wfFrom] at h
    by_cases h1 : a < k
    · by_cases hv : v = fill
      · simp [Memory.write, Memory.wfFrom, h1, hv, h]
      · have : a + 1 ≤ k := h1
        simp [Memory.write, Memory.wfFrom, h1, hv, h, hlo, ha, this]
    · by_cases h2 : a = k
      · by_cases hv : v = fill
        · have : Memory.wfFrom fill cap lo t = true := Memory.wfFrom_mono fill cap (by omega) h.2
          simp [Memory.write, h2, hv, this]
        · subst h2
          simp [Memory.write, Memory.wfFrom, hv, h]
      · have := Memory.wfFrom_write fill cap a v ha t (k + 1) (by omega) h.2
        simp [Memory.write, Memory.wfFrom, h1, h2, h, this]

/-- Every store keeps the canonical form. -/
theorem Memory.wf_write {fill : Byte} {cap : Nat} {m : Memory} (h : Memory.wf fill cap m = true) (a : Nat) (v : Byte)
    (ha : a < cap) : Memory.wf fill cap (Memory.write fill m a v) = true :=
  Memory.wfFrom_write fill cap a v ha m 0 (Nat.zero_le a) h

/-- The memory with nothing listed has the canonical form. -/
@[simp] theorem Memory.wf_nil (fill : Byte) (cap : Nat) : Memory.wf fill cap [] = true := rfl

/-- A read after a write, in canonical memory. -/
theorem Memory.read_write_from (fill : Byte) (cap : Nat) (a b : Nat) (v : Byte) :
    ∀ (m : Memory) (lo : Nat), Memory.wfFrom fill cap lo m = true →
      Memory.read fill (Memory.write fill m a v) b = if b = a then v else Memory.read fill m b
  | [], _, _ => by
    by_cases hv : v = fill
    · simp [Memory.write, Memory.read, hv]
    · by_cases hb : b = a
      · simp [Memory.write, Memory.read, hv, hb]
      · have : ¬ a = b := fun h => hb h.symm
        simp [Memory.write, Memory.read, hv, hb, this]
  | (k, w) :: t, lo, h => by
    simp [Memory.wfFrom] at h
    by_cases h1 : a < k
    · by_cases hv : v = fill
      · by_cases hb : b = a
        · subst hb
          have : Memory.read fill ((k, w) :: t) b = fill :=
            Memory.read_of_lt fill cap ((k, w) :: t) (b + 1) b (by simp [Memory.wfFrom, h, h1]) (by omega)
          simp [Memory.write, h1, hv, this]
        · simp [Memory.write, h1, hv, hb]
      · by_cases hb : b = a
        · subst hb; simp [Memory.write, Memory.read, h1, hv]
        · have : ¬ a = b := fun h => hb h.symm
          simp [Memory.write, Memory.read, h1, hv, hb, this]
    · by_cases h2 : a = k
      · subst h2
        by_cases hb : b = a
        · subst hb
          by_cases hv : v = fill
          · have := Memory.read_of_lt fill cap t (b + 1) b h.2 (by omega)
            simp [Memory.write, hv, this]
          · simp [Memory.write, Memory.read, hv]
        · have : ¬ a = b := fun h => hb h.symm
          by_cases hv : v = fill <;> simp [Memory.write, Memory.read, hv, hb, this]
      · have ih := Memory.read_write_from fill cap a b v t (k + 1) h.2
        by_cases hk : k = b
        · subst hk
          have : ¬ k = a := fun e => h2 e.symm
          simp [Memory.write, Memory.read, h1, h2, this]
        · simp [Memory.write, Memory.read, h1, h2, hk, ih]

/-- A read after a write: the byte written at its address, every other byte as before. -/
theorem Memory.read_write {fill : Byte} {cap : Nat} {m : Memory} (h : Memory.wf fill cap m = true) (a b : Nat) (v : Byte) :
    Memory.read fill (Memory.write fill m a v) b = if b = a then v else Memory.read fill m b :=
  Memory.read_write_from fill cap a b v m 0 h

end Sys2Proof.Machine
end

