-- ==== Sys2Proof/Laws/Access.lean ====
section
/-! SUPPORT. One lemma per shared access to memory: what a decoder access and a direct access answer and leave, and the fetch
primitive. -/

namespace Sys2Proof.Machine

/-- A direct byte read (R140): the byte, and nothing changed but the event of an out-of-range address. -/
theorem chipReadByte_eq (k a : Nat) (s : State) :
    chipReadByte k a s = (chipByte k a s, { s with diag := s.diag ++ directEvents 1 k a s }) := by
  unfold chipReadByte directEvents chipCapacity
  cases s.chips[k]? with
  | none => rfl
  | some c => by_cases ha : a < c.capacity <;> simp [ha, logOutOfRange, State.log]

/-- A decoder read (R162, R163): the byte the address reads as, a hit if some mapping contains it, and nothing changed but the
access's event. -/
theorem memRead_eq (addr : Addr) (s : State) :
    memRead addr s =
      ((memByte addr s, (s.routeOf addr).isSome), { s with diag := s.diag ++ accessEvents .read addr s }) := by
  unfold memRead accessEvents
  cases s.routeOf addr with
  | none => rfl
  | some ka => simp [chipReadByte_eq]

/-- What an address reads as depends on the configuration and the chips alone. -/
theorem memByte_congr {s t : State} (hc : t.cfg = s.cfg) (hk : t.chips = s.chips) (addr : Addr) :
    memByte addr t = memByte addr s := by
  simp [memByte, State.routeOf, chipByte, hc, hk]

/-- The events of an access depend on the configuration and the chips alone. -/
theorem accessEvents_congr {s t : State} (hc : t.cfg = s.cfg) (hk : t.chips = s.chips) (dir : Access) (addr : Addr) :
    accessEvents dir addr t = accessEvents dir addr s := by
  simp [accessEvents, State.routeOf, directEvents, chipCapacity, hc, hk]

/-- A direct byte write (R141) either stores into one chip or appends one event. -/
theorem chipWriteByte_cases (k a : Nat) (v : Byte) (s : State) :
    (∃ c, s.chips[k]? = some c ∧ a < c.capacity ∧ chipWriteByte k a v s = s.setChip k (c.poke a v)) ∨
    (¬ a < chipCapacity k s ∧ chipWriteByte k a v s = logOutOfRange k a s) := by
  unfold chipWriteByte chipCapacity
  cases h : s.chips[k]? with
  | none => exact .inr ⟨by simp, rfl⟩
  | some c =>
    by_cases ha : a < c.capacity
    · exact .inl ⟨c, rfl, ha, by simp [ha]⟩
    · exact .inr ⟨by simpa using ha, by simp [ha]⟩

/-- A decoder write (R164, R165, R167): the store to the routed chip, or one event. -/
theorem memWrite_cases (addr : Addr) (v : Byte) (s : State) :
    (∃ k a c, s.routeOf addr = some (k, a) ∧ s.chips[k]? = some c ∧ a < c.capacity ∧
      memWrite addr v s = s.setChip k (c.poke a v)) ∨
    (∃ k a, s.routeOf addr = some (k, a) ∧ ¬ a < chipCapacity k s ∧ memWrite addr v s = logOutOfRange k a s) ∨
    (s.routeOf addr = none ∧ memWrite addr v s = s.log .warning (.unmapped addr .write)) := by
  unfold memWrite
  cases h : s.routeOf addr with
  | none => exact .inr (.inr ⟨rfl, rfl⟩)
  | some ka =>
    rcases chipWriteByte_cases ka.1 ka.2 v s with ⟨c, h1, h2, h3⟩ | ⟨h1, h2⟩
    · exact .inl ⟨ka.1, ka.2, c, rfl, h1, h2, h3⟩
    · exact .inr (.inl ⟨ka.1, ka.2, rfl, h1, h2⟩)

/-- A store into a chip keeps its canonical form. -/
theorem Chip.wf_poke {c : Chip} (h : Memory.wf (chipFill c.kind) c.capacity c.storage = true) {a : Nat} (v : Byte)
    (ha : a < c.capacity) :
    Memory.wf (chipFill (c.poke a v).kind) (c.poke a v).capacity (c.poke a v).storage = true :=
  Memory.wf_write h a v ha

/-- A byte of a chip after a store into it. -/
theorem Chip.peek_poke {c : Chip} (h : Memory.wf (chipFill c.kind) c.capacity c.storage = true) (a b : Nat) (v : Byte) :
    (c.poke a v).peek b = if b = a then v else c.peek b :=
  Memory.read_write h a b v

/-- The fetch primitive (R210, R215): the byte at `PC`, `PC` moved on, halted on a miss, an event or none. -/
theorem fetch_spec (s : State) :
    (fetch s).1 = (memByte s.cpu.pc s, (s.routeOf s.cpu.pc).isSome) ∧
    ∃ ev, (fetch s).2 =
      (if (s.routeOf s.cpu.pc).isSome then { s with diag := s.diag ++ ev, cpu := { s.cpu with pc := s.cpu.pc + 1 } }
       else { s with
              diag := s.diag ++ ev
              cpu := { s.cpu with pc := s.cpu.pc + 1, state := .halted, seq := .waitLo } }) := by
  refine ⟨by simp [fetch, memRead_eq], accessEvents .read s.cpu.pc s, ?_⟩
  simp only [fetch, memRead_eq]
  split <;> rfl

end Sys2Proof.Machine
end

