-- ==== Sys2Proof/Laws/Bytes.lean ====
section
/-! SUPPORT. The two bytes of a word (spec/20_memory.md R62, R63): splitting and joining undo each other. -/

namespace Sys2Proof

@[simp] theorem wordOfBytes_low_high (w : Addr) : wordOfBytes (lowByte w) (highByte w) = w := by
  simp only [wordOfBytes, lowByte, highByte]
  apply BitVec.eq_of_getLsbD_eq
  intro i hi
  rw [BitVec.getLsbD_append, BitVec.getLsbD_extractLsb', BitVec.getLsbD_extractLsb']
  by_cases h : i < 8
  · simp [h]
  · have h1 : i - 8 < 8 := by omega
    have h2 : 8 + (i - 8) = i := by omega
    simp [h, h1, h2]

@[simp] theorem lowByte_wordOfBytes (l h : Byte) : lowByte (wordOfBytes l h) = l := by
  simp only [wordOfBytes, lowByte]
  apply BitVec.eq_of_getLsbD_eq
  intro i hi
  rw [BitVec.getLsbD_extractLsb', BitVec.getLsbD_append]
  simp [hi]

@[simp] theorem highByte_wordOfBytes (l h : Byte) : highByte (wordOfBytes l h) = h := by
  simp only [wordOfBytes, highByte]
  apply BitVec.eq_of_getLsbD_eq
  intro i hi
  rw [BitVec.getLsbD_extractLsb', BitVec.getLsbD_append]
  simp [hi]

/-- A row found for an opcode is a row of the map with that opcode (R87). -/
theorem opcodeRow_some {op : Byte} {row : OpcodeRow} (h : opcodeRow op = some row) : row ∈ opcodeMap ∧ row.opcode = op :=
  ⟨List.mem_of_find?_eq_some h, by simpa using List.find?_some h⟩

end Sys2Proof
end

