-- ==== Sys2Proof/Laws/Frames.lean ====
section
/-! SUPPORT. What every CPU step leaves as it was, once for each shared operation and once for each kind of step
(spec/60_exceptions.md R312: the CPU shares the bus pins, the ownership and the chips' storage, and nothing else). -/

namespace Sys2Proof.Machine

/-- `t` differs from `s` at most in the CPU, the bus pins and ownership, chip storage and the diagnostic stream. -/
structure CpuFrame (s t : State) : Prop where
  cfg : t.cfg = s.cfg
  clock : t.clock = s.clock
  hostPhase : t.hostPhase = s.hostPhase
  fault : t.fault = s.fault
  sched : t.sched = s.sched
  draws : t.draws = s.draws
  power : t.bus.power = s.bus.power
  chips : t.chips.map Chip.frame = s.chips.map Chip.frame

theorem CpuFrame.refl (s : State) : CpuFrame s s := ⟨rfl, rfl, rfl, rfl, rfl, rfl, rfl, rfl⟩

theorem CpuFrame.trans {s t u : State} (h : CpuFrame s t) (k : CpuFrame t u) : CpuFrame s u :=
  ⟨k.cfg.trans h.cfg, k.clock.trans h.clock, k.hostPhase.trans h.hostPhase, k.fault.trans h.fault, k.sched.trans h.sched,
    k.draws.trans h.draws, k.power.trans h.power, k.chips.trans h.chips⟩

/-- Replacing a chip by one that differs in its storage only keeps every chip's frame. -/
theorem map_frame_set {l : List Chip} {k : Nat} {c c' : Chip} (h : l[k]? = some c) (hf : c'.frame = c.frame) :
    (l.set k c').map Chip.frame = l.map Chip.frame := by
  obtain ⟨hk, rfl⟩ := List.getElem?_eq_some_iff.mp h
  rw [List.map_set, hf]
  apply List.ext_getElem
  · simp
  · intro i h1 h2
    rw [List.getElem_set]
    split
    · next e => subst e; simp
    · rfl

/-! ### The shared operations -/

theorem frame_mapCpu (f : Cpu → Cpu) (s : State) : CpuFrame s (s.mapCpu f) := ⟨rfl, rfl, rfl, rfl, rfl, rfl, rfl, rfl⟩

theorem frame_goto (q : Seq) (s : State) : CpuFrame s (s.goto q) := frame_mapCpu _ s

theorem frame_log (sev : Severity) (kind : DiagKind) (s : State) : CpuFrame s (s.log sev kind) :=
  ⟨rfl, rfl, rfl, rfl, rfl, rfl, rfl, rfl⟩

theorem frame_writeAddress (a : Addr) (s : State) : CpuFrame s (writeAddress a s) := ⟨rfl, rfl, rfl, rfl, rfl, rfl, rfl, rfl⟩

theorem frame_writeData (d : Byte) (s : State) : CpuFrame s (writeData d s) := ⟨rfl, rfl, rfl, rfl, rfl, rfl, rfl, rfl⟩

theorem frame_grantBus (id : ComponentId) (s : State) : CpuFrame s (grantBus id s) := ⟨rfl, rfl, rfl, rfl, rfl, rfl, rfl, rfl⟩

theorem frame_releaseBus (id : ComponentId) (s : State) : CpuFrame s (releaseBus id s) :=
  ⟨rfl, rfl, rfl, rfl, rfl, rfl, by simp only [releaseBus, State.mapBus_bus]; split <;> rfl, rfl⟩

theorem frame_memRead (addr : Addr) (s : State) : CpuFrame s (memRead addr s).2 := by
  rw [memRead_eq]; exact ⟨rfl, rfl, rfl, rfl, rfl, rfl, rfl, rfl⟩

theorem frame_memWrite (addr : Addr) (v : Byte) (s : State) : CpuFrame s (memWrite addr v s) := by
  rcases memWrite_cases addr v s with ⟨k, a, c, _, hc, _, h⟩ | ⟨k, a, _, _, h⟩ | ⟨_, h⟩ <;> rw [h]
  · exact ⟨rfl, rfl, rfl, rfl, rfl, rfl, rfl, map_frame_set hc rfl⟩
  · exact frame_log _ _ s
  · exact frame_log _ _ s

theorem frame_halt (s : State) : CpuFrame s (halt s) := frame_mapCpu _ s

theorem frame_fetch (s : State) : CpuFrame s (fetch s).2 := by
  obtain ⟨_, ev, h⟩ := fetch_spec s
  rw [h]; split <;> exact ⟨rfl, rfl, rfl, rfl, rfl, rfl, rfl, rfl⟩

/-! ### The bracket -/

theorem frame_absTry (s : State) : CpuFrame s (absTry s) := by
  unfold absTry; split
  · exact (frame_grantBus _ s).trans (frame_goto _ _)
  · exact frame_goto _ s

theorem frame_absTimeout (s : State) : CpuFrame s (absTimeout s) := (frame_log _ _ s).trans (frame_mapCpu _ _)

theorem frame_absAddr (acc : AbsAccess) (ea : Addr) (s : State) : CpuFrame s (absAddr acc ea s) := by
  cases acc
  · exact (frame_writeAddress _ s).trans (frame_goto _ _)
  · exact (frame_mapCpu _ s).trans ((frame_writeAddress _ _).trans (frame_goto _ _))

theorem frame_absMem (acc : AbsAccess) (ea : Addr) (s : State) : CpuFrame s (absMem acc ea s) := by
  cases acc
  · unfold absMem; exact (frame_memRead _ s).trans (frame_mapCpu _ _)
  · exact (frame_memWrite _ _ s).trans (frame_goto _ _)

theorem frame_absData (acc : AbsAccess) (s : State) : CpuFrame s (absData acc s) := by
  cases acc
  · exact (frame_writeData _ s).trans (frame_goto _ _)
  · exact (frame_writeData _ s).trans ((frame_mapCpu _ _).trans (frame_goto _ _))

theorem frame_absRel (s : State) : CpuFrame s (absRel s) := (frame_releaseBus _ s).trans (frame_mapCpu _ _)

theorem frame_absBracket (acc : AbsAccess) (ea : Addr) (s : State) : CpuFrame s (absBracket acc ea s) := by
  unfold absBracket
  split
  · refine (frame_absTry s).trans ?_
    cases acc
    · exact (frame_absAddr _ _ _).trans ((frame_absMem _ _ _).trans ((frame_absData _ _).trans (frame_absRel _)))
    · exact (frame_absAddr _ _ _).trans ((frame_absData _ _).trans ((frame_absMem _ _ _).trans (frame_absRel _)))
  · exact (frame_absTry s).trans (frame_absTimeout _)

/-- Every instruction answers a next state, which keeps the frame. -/
theorem frame_exec (i : Instr) (s : State) : ∃ t, exec i s = .next t ∧ CpuFrame s t := by
  cases i with
  | ldaImm imm => exact ⟨_, rfl, frame_mapCpu _ s⟩
  | ldxImm imm => exact ⟨_, rfl, frame_mapCpu _ s⟩
  | ldyImm imm => exact ⟨_, rfl, frame_mapCpu _ s⟩
  | ldaAbs ea => exact ⟨_, rfl, frame_absBracket _ _ s⟩
  | ldxAbs ea => exact ⟨_, rfl, frame_absBracket _ _ s⟩
  | ldyAbs ea => exact ⟨_, rfl, frame_absBracket _ _ s⟩
  | staAbs ea => exact ⟨_, rfl, frame_absBracket _ _ s⟩
  | inx => exact ⟨_, rfl, frame_mapCpu _ s⟩
  | iny => exact ⟨_, rfl, frame_mapCpu _ s⟩
  | dex => exact ⟨_, rfl, frame_mapCpu _ s⟩
  | dey => exact ⟨_, rfl, frame_mapCpu _ s⟩
  | tax => exact ⟨_, rfl, frame_mapCpu _ s⟩
  | txa => exact ⟨_, rfl, frame_mapCpu _ s⟩
  | tay => exact ⟨_, rfl, frame_mapCpu _ s⟩
  | tya => exact ⟨_, rfl, frame_mapCpu _ s⟩
  | nop => exact ⟨_, rfl, frame_mapCpu _ s⟩
  | brk => exact ⟨_, rfl, frame_halt s⟩

/-! ### The reset -/

theorem frame_rstTry (s : State) : CpuFrame s (rstTry s) := by
  unfold rstTry; split
  · exact (frame_grantBus _ s).trans (frame_goto _ _)
  · exact frame_goto _ s

theorem frame_rstTimeout (s : State) : CpuFrame s (rstTimeout s) := (frame_log _ _ s).trans (frame_goto _ _)

theorem frame_rstAddrLo (s : State) : CpuFrame s (rstAddrLo s) := (frame_writeAddress _ s).trans (frame_goto _ _)

theorem frame_rstReadLo (s : State) : CpuFrame s (rstReadLo s) := by
  unfold rstReadLo; exact (frame_memRead _ s).trans (frame_mapCpu _ _)

theorem frame_rstAddrHi (s : State) : CpuFrame s (rstAddrHi s) := (frame_writeAddress _ s).trans (frame_goto _ _)

theorem frame_rstReadHi (s : State) : CpuFrame s (rstReadHi s) := by
  unfold rstReadHi; exact (frame_memRead _ s).trans (frame_mapCpu _ _)

theorem frame_rstRel (s : State) : CpuFrame s (rstRel s) := (frame_releaseBus _ s).trans (frame_mapCpu _ _)

theorem frame_resetEnd (s : State) : CpuFrame s (resetEnd s) := frame_mapCpu _ s

theorem frame_resetEntry (s : State) : CpuFrame s (resetEntry s) := frame_mapCpu _ s

theorem frame_resetSpan (s : State) : CpuFrame s (resetSpan s) := by
  have h := (frame_resetEntry s).trans (frame_rstTry _)
  unfold resetSpan rstGranted
  split
  · exact h.trans ((frame_rstAddrLo _).trans ((frame_rstReadLo _).trans ((frame_rstAddrHi _).trans ((frame_rstReadHi _).trans
      ((frame_rstRel _).trans (frame_resetEnd _))))))
  · exact h.trans ((frame_rstTimeout _).trans (frame_resetEnd _))

/-! ### The sequencer -/

theorem frame_startInstr (s : State) : CpuFrame s (startInstr s) := frame_mapCpu _ s

theorem frame_fetchOp (s : State) : CpuFrame s (fetchOp s) := by
  unfold fetchOp
  have h := (frame_fetch s).trans (frame_mapCpu (fun c => { c with op := (fetch s).1.1 }) _)
  dsimp only
  split
  · split
    · exact h.trans (frame_goto _ _)
    · exact h.trans (frame_goto _ _)
    · exact h.trans (frame_goto _ _)
    · exact h.trans ((frame_log _ _ _).trans (frame_halt _))
  · exact h

theorem frame_fetchB1 (s : State) : CpuFrame s (fetchB1 s) := by
  unfold fetchB1
  have h := (frame_fetch s).trans (frame_mapCpu (fun c => { c with b1 := (fetch s).1.1 }) _)
  dsimp only
  split
  · split
    · exact h.trans (frame_goto _ _)
    · exact h.trans (frame_goto _ _)
    · exact h
    · exact h
  · exact h

theorem frame_fetchB2 (s : State) : CpuFrame s (fetchB2 s) := by
  unfold fetchB2
  have h := (frame_fetch s).trans (frame_mapCpu (fun c => { c with b2 := (fetch s).1.1 }) _)
  dsimp only
  split
  · exact h.trans (frame_mapCpu _ _)
  · exact h

theorem frame_fetchInstr (s : State) : CpuFrame s (fetchInstr s) := by
  refine ((frame_startInstr s).trans (frame_fetchOp _)).trans ?_
  unfold fetchInstr fetchOperands
  dsimp only
  split
  · split
    · exact (frame_fetchB1 _).trans (frame_fetchB2 _)
    · exact frame_fetchB1 _
  · split
    · exact frame_fetchB2 _
    · exact CpuFrame.refl _

theorem answers_eq_some {o : Option State} {r : Result} (h : answers o = some r) : ∃ t, o = some t ∧ r = .next t := by
  cases o with
  | none => cases h
  | some t => exact ⟨t, rfl, (Option.some.inj h).symm⟩

/-- Every phase's step answers a next state, which keeps the frame. -/
theorem frame_phaseStep {s : State} {r : Result} (h : phaseStep s = some r) : ∃ t, r = .next t ∧ CpuFrame s t := by
  unfold phaseStep at h
  cases hq : s.cpu.seq <;> rw [hq] at h <;> dsimp only at h
  case waitHi =>
    obtain ⟨t, ht, rfl⟩ := answers_eq_some h
    unfold dispatchStep at ht
    split at ht <;> cases ht
    · exact ⟨_, rfl, frame_resetEntry s⟩
    · exact ⟨_, rfl, frame_startInstr s⟩
  case fetchOp => cases h; exact ⟨_, rfl, frame_fetchOp s⟩
  case fetchB1 => cases h; exact ⟨_, rfl, frame_fetchB1 s⟩
  case fetchB2 => cases h; exact ⟨_, rfl, frame_fetchB2 s⟩
  case exec =>
    unfold execStep at h
    split at h
    · split at h
      · cases h
      · cases h; exact frame_exec _ s
    · cases h
  case absTry => cases h; exact ⟨_, rfl, frame_absTry s⟩
  case absWait =>
    obtain ⟨t, ht, rfl⟩ := answers_eq_some h
    unfold absGrant at ht
    split at ht <;> cases ht
    exact ⟨_, rfl, (frame_grantBus _ s).trans (frame_goto _ _)⟩
  case absAddr =>
    obtain ⟨t, ht, rfl⟩ := answers_eq_some h
    obtain ⟨acc, _, rfl⟩ := Option.map_eq_some_iff.mp ht
    exact ⟨_, rfl, frame_absAddr _ _ s⟩
  case absMem =>
    obtain ⟨t, ht, rfl⟩ := answers_eq_some h
    obtain ⟨acc, _, rfl⟩ := Option.map_eq_some_iff.mp ht
    exact ⟨_, rfl, frame_absMem _ _ s⟩
  case absData =>
    obtain ⟨t, ht, rfl⟩ := answers_eq_some h
    obtain ⟨acc, _, rfl⟩ := Option.map_eq_some_iff.mp ht
    exact ⟨_, rfl, frame_absData _ s⟩
  case absRel => cases h; exact ⟨_, rfl, frame_absRel s⟩
  case waitLo =>
    obtain ⟨t, ht, rfl⟩ := answers_eq_some h
    unfold waitLoStep at ht
    split at ht <;> cases ht
    exact ⟨_, rfl, frame_goto _ s⟩
  case rstTry => cases h; exact ⟨_, rfl, frame_rstTry s⟩
  case rstWait =>
    obtain ⟨t, ht, rfl⟩ := answers_eq_some h
    unfold rstGrant at ht
    split at ht <;> cases ht
    exact ⟨_, rfl, (frame_grantBus _ s).trans (frame_goto _ _)⟩
  case rstAddrLo => cases h; exact ⟨_, rfl, frame_rstAddrLo s⟩
  case rstReadLo => cases h; exact ⟨_, rfl, frame_rstReadLo s⟩
  case rstAddrHi => cases h; exact ⟨_, rfl, frame_rstAddrHi s⟩
  case rstReadHi => cases h; exact ⟨_, rfl, frame_rstReadHi s⟩
  case rstRel => cases h; exact ⟨_, rfl, frame_rstRel s⟩
  case rstEnd => cases h; exact ⟨_, rfl, frame_resetEnd s⟩

/-- The CPU's step answers a next state, which keeps the frame. -/
theorem frame_cpuStep {s : State} {r : Result} (h : cpuStep s = some r) : ∃ t, r = .next t ∧ CpuFrame s t := by
  unfold cpuStep at h
  split at h
  · cases h
  · split at h <;> cases h
    exact ⟨_, rfl, frame_resetEntry s⟩
  · exact frame_phaseStep h
  · exact frame_phaseStep h
  · exact frame_phaseStep h

/-- The CPU's timeout step answers a next state, which keeps the frame. -/
theorem frame_cpuTimeoutStep {s : State} {r : Result} (h : cpuTimeoutStep s = some r) : ∃ t, r = .next t ∧ CpuFrame s t := by
  unfold cpuTimeoutStep at h
  split at h
  · split at h <;> cases h
    · exact ⟨_, rfl, frame_absTimeout s⟩
    · exact ⟨_, rfl, frame_rstTimeout s⟩
  · cases h

/-- The CPU's span answers a next state, which keeps the frame. -/
theorem frame_cpuSpanStep {s : State} {r : Result} (h : cpuSpanStep s = some r) : ∃ t, r = .next t ∧ CpuFrame s t := by
  unfold cpuSpanStep at h
  split at h
  · cases h; exact ⟨_, rfl, frame_resetSpan s⟩
  · split at h <;> cases h
    · exact ⟨_, rfl, frame_resetSpan s⟩
    · unfold runFetched
      split
      · split
        · obtain ⟨t, ht, hf⟩ := frame_exec _ (fetchInstr s)
          exact ⟨t, ht, (frame_fetchInstr s).trans hf⟩
        · exact ⟨_, rfl, frame_fetchInstr s⟩
      · exact ⟨_, rfl, frame_fetchInstr s⟩

end Sys2Proof.Machine
end

