-- ==== Sys2Proof/Laws/Events.lean ====
section
/-! SUPPORT. What each agent's step can do, one inversion lemma for each: a poll, a chip's step, the clock's, the host's, and an
event. -/

namespace Sys2Proof.Machine

/-- An event with a step is an agent's step in a state without a fault (R41). -/
theorem eventStep_some {e : Event} {s : State} {r : Result} (h : eventStep e s = some r) :
    s.fault = none ∧ agentStep e s = some r := by
  unfold eventStep at h
  split at h
  · cases h
  · exact ⟨by assumption, h⟩

/-- A poll (R131–R136): nothing, an event, a store below the capacity, or the first line of a read cycle with or without an
event. -/
theorem poll_cases (k : Nat) (c : Chip) (s : State) :
    poll k c s = s ∨
    poll k c s = logOutOfRange k c.aPins.toNat s ∨
    (c.aPins.toNat < c.capacity ∧ poll k c s = s.setChip k (c.poke c.aPins.toNat c.dPins)) ∨
    (c.ceN = false ∧ c.oeN = false ∧ c.weN = true ∧ ∃ v,
      (poll k c s = s.setChip k { c with dPins := v, latch := v, phase := .try } ∨
       poll k c s = (logOutOfRange k c.aPins.toNat s).setChip k { c with dPins := v, latch := v, phase := .try })) := by
  unfold poll chipAction
  by_cases h1 : c.ceN = true
  · exact .inl (by simp [h1])
  · have h1 : c.ceN = false := by simpa using h1
    cases h2 : c.oeN <;> cases h3 : c.weN
    · exact .inl (by simp [h1])
    · refine .inr (.inr (.inr ⟨h1, rfl, rfl, ?_⟩))
      by_cases ha : c.aPins.toNat < c.capacity
      · exact ⟨c.peek c.aPins.toNat, .inl (by simp [h1, h2, h3, readCycle, ha])⟩
      · exact ⟨0xFF, .inr (by simp [h1, h2, h3, readCycle, ha])⟩
    · by_cases ha : c.aPins.toNat < c.capacity
      · exact .inr (.inr (.inl ⟨ha, by simp [h1, writeCycle, ha]⟩))
      · exact .inr (.inl (by simp [h1, writeCycle, ha]))
    · exact .inl (by simp [h1])

/-- A chip's step by its phase (R131, R134, R138). -/
theorem chipStep_cases {k : Nat} {s t : State} (h : chipStep k s = some t) :
    ∃ c, s.chips[k]? = some c ∧
      ((c.phase = .top ∧ c.alive = true ∧ t = poll k c s) ∨
       ((c.phase = .try ∨ c.phase = .wait) ∧ s.bus.owner = none ∧ t = chipGranted k c s) ∨
       (c.phase = .try ∧ s.bus.owner ≠ none ∧ t = s.setChip k { c with phase := .wait }) ∨
       (c.phase = .drive ∧ t = (writeData c.latch s).setChip k { c with phase := .rel }) ∨
       (c.phase = .rel ∧ t = (releaseBus (.chip k) s).setChip k { c with phase := .top })) := by
  unfold chipStep at h
  split at h
  · next c hc =>
    refine ⟨c, hc, ?_⟩
    unfold chipPhaseStep at h
    cases hp : c.phase <;> rw [hp] at h <;> dsimp only at h
    · split at h <;> cases h
      next ha => exact .inl ⟨rfl, ha, rfl⟩
    · cases h
      by_cases hb : s.bus.owner = none
      · exact .inr (.inl ⟨.inl rfl, hb, by simp [busFree, hb]⟩)
      · exact .inr (.inr (.inl ⟨rfl, hb, by simp [busFree, hb]⟩))
    · split at h <;> cases h
      next hb => exact .inr (.inl ⟨.inr rfl, by simpa [busFree] using hb, rfl⟩)
    · cases h; exact .inr (.inr (.inr (.inl ⟨rfl, rfl⟩)))
    · cases h; exact .inr (.inr (.inr (.inr ⟨rfl, rfl⟩)))
  · cases h

/-- A chip's timeout step (R135). -/
theorem chipTimeoutStep_cases {k : Nat} {s t : State} (h : chipTimeoutStep k s = some t) :
    ∃ c, s.chips[k]? = some c ∧ c.phase = .wait ∧
      t = (s.log .warning (.busTimeout (.chip k))).setChip k { c with phase := .top } := by
  unfold chipTimeoutStep at h
  split at h
  · next c hc =>
    split at h <;> cases h
    exact ⟨c, hc, by assumption, rfl⟩
  · cases h

/-- The oscillator's step (R186). -/
theorem clockAgentStep_cases {s t : State} (h : clockAgentStep s = some t) :
    s.clock.mode = .astable ∧ s.clock.alive = true ∧ speedValid s.clock.speedHz = true ∧ t = toggleClock s := by
  unfold clockAgentStep at h
  split at h <;> cases h
  next hc => exact ⟨hc.1, hc.2.1, hc.2.2, rfl⟩

/-- The host's grant step (R119). -/
theorem hostGrantStep_cases {s t : State} (h : hostGrantStep s = some t) :
    s.hostPhase = .wait ∧ s.bus.owner = none ∧ t = { grantBus .host s with hostPhase := .idle } := by
  unfold hostGrantStep at h
  split at h <;> cases h
  next hc => exact ⟨hc.1, by simpa [busFree] using hc.2, rfl⟩

/-- The host's timeout step (R119). -/
theorem hostTimeoutStep_cases {s t : State} (h : hostTimeoutStep s = some t) :
    s.hostPhase = .wait ∧ t = { s with hostPhase := .idle } := by
  unfold hostTimeoutStep at h
  split at h <;> cases h
  exact ⟨by assumption, rfl⟩

/-- The host's try step (R101, R119). -/
theorem hostRequest_cases {s t : State} (h : hostRequest s = some t) :
    s.hostPhase = .idle ∧
      ((s.bus.owner = none ∧ t = grantBus .host s) ∨ (s.bus.owner ≠ none ∧ t = { s with hostPhase := .wait })) := by
  unfold hostRequest at h
  split at h
  · next hp =>
    cases h
    refine ⟨hp, ?_⟩
    by_cases hb : s.bus.owner = none
    · exact .inl ⟨hb, by simp [busFree, hb]⟩
    · exact .inr ⟨hb, by simp [busFree, hb]⟩
  · cases h

/-- An action on a chip of the assembly. -/
theorem onChip_some {k : Nat} {s t : State} {f : Chip → State} (h : onChip k s f = some t) :
    ∃ c, s.chips[k]? = some c ∧ t = f c := by
  obtain ⟨c, hc, e⟩ := Option.map_eq_some_iff.mp h
  exact ⟨c, hc, e.symm⟩

/-- A direct word write (R144) stores both bytes or appends one event. -/
theorem chipWriteWord_cases (k a : Nat) (w : Addr) (s : State) :
    (∃ c, s.chips[k]? = some c ∧ a + 1 < c.capacity ∧
      chipWriteWord k a w s = s.setChip k ((c.poke a (lowByte w)).poke (a + 1) (highByte w))) ∨
    chipWriteWord k a w s = logOutOfRange k a s := by
  unfold chipWriteWord
  cases h : s.chips[k]? with
  | none => exact .inr rfl
  | some c =>
    by_cases ha : a + 1 < c.capacity
    · exact .inl ⟨c, rfl, ha, by simp [ha]⟩
    · exact .inr (by simp [ha])

/-- A direct word read (R143) changes nothing or appends one event. -/
theorem chipReadWord_cases (k a : Nat) (s : State) :
    (chipReadWord k a s).2 = s ∨ (chipReadWord k a s).2 = logOutOfRange k a s := by
  unfold chipReadWord
  cases s.chips[k]? with
  | none => exact .inr rfl
  | some c => by_cases ha : a + 1 < c.capacity <;> simp [ha]

/-- Every step of every agent answers a next state: only a fault set before the step ends a run. -/
theorem agentStep_next {e : Event} {s : State} {r : Result} (h : agentStep e s = some r) : ∃ t, r = .next t := by
  cases e with
  | cpu => obtain ⟨t, rfl, _⟩ := frame_cpuStep h; exact ⟨t, rfl⟩
  | cpuTimeout => obtain ⟨t, rfl, _⟩ := frame_cpuTimeoutStep h; exact ⟨t, rfl⟩
  | cpuSpan => obtain ⟨t, rfl, _⟩ := frame_cpuSpanStep h; exact ⟨t, rfl⟩
  | chip k => obtain ⟨t, _, rfl⟩ := answers_eq_some h; exact ⟨t, rfl⟩
  | chipTimeout k => obtain ⟨t, _, rfl⟩ := answers_eq_some h; exact ⟨t, rfl⟩
  | clock => obtain ⟨t, _, rfl⟩ := answers_eq_some h; exact ⟨t, rfl⟩
  | hostGrant => obtain ⟨t, _, rfl⟩ := answers_eq_some h; exact ⟨t, rfl⟩
  | hostTimeout => obtain ⟨t, _, rfl⟩ := answers_eq_some h; exact ⟨t, rfl⟩
  | host act => obtain ⟨t, _, rfl⟩ := answers_eq_some h; exact ⟨t, rfl⟩

/-- A chip's step leaves the CPU as it was. -/
theorem chipStep_cpu {k : Nat} {s t : State} (h : chipStep k s = some t) : t.cpu = s.cpu := by
  obtain ⟨c, -, ⟨-, -, rfl⟩ | ⟨-, -, rfl⟩ | ⟨-, -, rfl⟩ | ⟨-, rfl⟩ | ⟨-, rfl⟩⟩ := chipStep_cases h
  · rcases poll_cases k c s with h | h | ⟨-, h⟩ | ⟨-, -, -, v, h | h⟩ <;> rw [h] <;> rfl
  all_goals rfl

/-- A host action leaves the CPU as it was, but for driving its pins, switching it on and stopping it. -/
theorem hostStep_cpu {act : HostAction} {s t : State} (h : hostStep act s = some t) :
    t.cpu = s.cpu ∨ (∃ p, act = .driveCpu p ∧ t = s.mapCpu (Cpu.drive p)) ∨ (act = .powerOn ∧ t = powerOn s) ∨
    (act = .stop .cpu ∧ t = s.mapCpu fun c => { c with alive := false }) := by
  cases act <;> simp only [hostStep] at h
  case request =>
    obtain ⟨-, ⟨-, rfl⟩ | ⟨-, rfl⟩⟩ := hostRequest_cases h <;> exact .inl rfl
  case setPin => cases h; unfold setPin; split <;> exact .inl rfl
  case getPin => cases h; unfold getPin; split <;> exact .inl rfl
  case driveChip => obtain ⟨c, -, rfl⟩ := onChip_some h; exact .inl rfl
  case readByte => obtain ⟨c, -, rfl⟩ := onChip_some h; rw [chipReadByte_eq]; exact .inl rfl
  case writeByte k a v =>
    obtain ⟨c, -, rfl⟩ := onChip_some h
    rcases chipWriteByte_cases k a v s with ⟨c', -, -, e⟩ | ⟨-, e⟩ <;> rw [e] <;> exact .inl rfl
  case readWord k a =>
    obtain ⟨c, -, rfl⟩ := onChip_some h
    rcases chipReadWord_cases k a s with e | e <;> rw [e] <;> exact .inl rfl
  case writeWord k a w =>
    obtain ⟨c, -, rfl⟩ := onChip_some h
    rcases chipWriteWord_cases k a w s with ⟨c', -, -, e⟩ | e <;> rw [e] <;> exact .inl rfl
  case decoderRead => cases h; rw [memRead_eq]; exact .inl rfl
  case decoderWrite addr v =>
    cases h
    rcases memWrite_cases addr v s with ⟨k, a, c, -, -, -, e⟩ | ⟨k, a, -, -, e⟩ | ⟨-, e⟩ <;> rw [e] <;> exact .inl rfl
  case powerOn => cases h; exact .inr (.inr (.inl ⟨rfl, rfl⟩))
  case driveCpu p => cases h; exact .inr (.inl ⟨p, rfl, rfl⟩)
  case stop a =>
    cases a <;> simp only [stopAgent] at h
    · cases h; exact .inr (.inr (.inr ⟨rfl, rfl⟩))
    · obtain ⟨c, -, rfl⟩ := onChip_some h; exact .inl rfl
    · cases h; exact .inl rfl
  all_goals (cases h; exact .inl rfl)

end Sys2Proof.Machine
end

