-- ==== Sys2Proof/Laws/PerInstr.lean ====
section
/-! SUPPORT. One lemma per constructor of `Instr`: the encoding has the length of the instruction's format (R83, R86). -/

namespace Sys2Proof.Laws.EncodeLength

/-- The encoding of an instruction has as many bytes as its format (R86). -/
def Statement (i : Instr) : Prop := (encode i).length = i.length

theorem ldaImm (imm : Byte) : Statement (.ldaImm imm) := rfl
theorem ldxImm (imm : Byte) : Statement (.ldxImm imm) := rfl
theorem ldyImm (imm : Byte) : Statement (.ldyImm imm) := rfl
theorem ldaAbs (ea : Addr) : Statement (.ldaAbs ea) := rfl
theorem ldxAbs (ea : Addr) : Statement (.ldxAbs ea) := rfl
theorem ldyAbs (ea : Addr) : Statement (.ldyAbs ea) := rfl
theorem staAbs (ea : Addr) : Statement (.staAbs ea) := rfl
theorem inx : Statement .inx := rfl
theorem iny : Statement .iny := rfl
theorem dex : Statement .dex := rfl
theorem dey : Statement .dey := rfl
theorem tax : Statement .tax := rfl
theorem txa : Statement .txa := rfl
theorem tay : Statement .tay := rfl
theorem tya : Statement .tya := rfl
theorem nop : Statement .nop := rfl
theorem brk : Statement .brk := rfl

end Sys2Proof.Laws.EncodeLength
end

