-- ==== Sys2Proof/Laws/Pins.lean ====
section
/-! SUPPORT. The bus pins: what each accessor writes, and that it writes no other bit (spec/40_bus_arbiter.md R108–R113). -/

namespace Sys2Proof.Machine

/-- A bit of a word with the bits of `m` replaced by those of `q`. -/
theorem getLsbD_masked (p m q : Pins) (i : Nat) :
    ((p &&& ~~~m) ||| q).getLsbD i = ((p.getLsbD i && (decide (i < 255) && !m.getLsbD i)) || q.getLsbD i) := by
  simp only [BitVec.getLsbD_or, BitVec.getLsbD_and, BitVec.getLsbD_not]

/-- Every pin after `write_address` (R108). -/
theorem pinAt_putAddress (a : Addr) (p : Pins) (i : Nat) :
    pinAt i (putAddress a p) = if i < 16 then a.getLsbD i else pinAt i p := by
  have h : (0xFFFF#255).getLsbD i = decide (i < 16) := by
    rw [show (0xFFFF#255) = BitVec.setWidth 255 (BitVec.allOnes 16) by decide, BitVec.getLsbD_setWidth,
      BitVec.getLsbD_allOnes]
    by_cases h : i < 16
    · simp [h]; omega
    · simp [h]
  by_cases hi : i < 255
  · simp only [pinAt, putAddress, getLsbD_masked, h, BitVec.getLsbD_setWidth]
    by_cases h16 : i < 16
    · simp [h16, hi]
    · simp [h16, hi, BitVec.getLsbD_of_ge a i (by omega)]
  · have h16 : ¬ i < 16 := by omega
    simp [pinAt, h16, BitVec.getLsbD_of_ge _ i (by omega : 255 ≤ i)]

/-- Every pin after `write_data` (R110). -/
theorem pinAt_putData (d : Byte) (p : Pins) (i : Nat) :
    pinAt i (putData d p) = if 16 ≤ i ∧ i < 24 then d.getLsbD (i - 16) else pinAt i p := by
  have h : (0xFF0000#255).getLsbD i = decide (16 ≤ i ∧ i < 24) := by
    rw [show (0xFF0000#255) = (BitVec.setWidth 255 (BitVec.allOnes 8)) <<< 16 by decide, BitVec.getLsbD_shiftLeft,
      BitVec.getLsbD_setWidth, BitVec.getLsbD_allOnes]
    by_cases h1 : i < 16
    · have : ¬ 16 ≤ i := by omega
      simp [h1, this]
    · have h3 : 16 ≤ i := by omega
      by_cases h2 : i < 24
      · have : i - 16 < 8 := by omega
        have h4 : i < 255 := by omega
        have h5 : i - 16 < 255 := by omega
        simp [h1, h2, h3, h4, h5, this]
      · have : ¬ i - 16 < 8 := by omega
        simp [h1, h2, this]
  by_cases hi : i < 255
  · simp only [pinAt, putData, getLsbD_masked, h, BitVec.getLsbD_shiftLeft, BitVec.getLsbD_setWidth]
    by_cases h1 : i < 16
    · have : ¬ 16 ≤ i := by omega
      simp [h1, hi, this]
    · have h3 : 16 ≤ i := by omega
      have h4 : i - 16 < 255 := by omega
      by_cases h2 : i < 24
      · simp [h1, h2, h3, h4, hi]
      · simp [h1, h2, hi, BitVec.getLsbD_of_ge d (i - 16) (by omega)]
  · have h2 : ¬ i < 24 := by omega
    simp [pinAt, h2, BitVec.getLsbD_of_ge _ i (by omega : 255 ≤ i)]

/-- Every pin after `set_pin` (R112). -/
theorem pinAt_putPin (i : Nat) (v : Bool) (p : Pins) (j : Nat) (hi : i < 255) :
    pinAt j (putPin i v p) = if j = i then v else pinAt j p := by
  have h1 : ∀ j, (1#255 <<< i).getLsbD j = decide (j = i) := by
    intro j
    rw [BitVec.getLsbD_shiftLeft, BitVec.getLsbD_one]
    by_cases hj : j = i
    · subst hj; simp [hi]
    · by_cases hlt : j < i
      · simp [hlt, hj]
      · have : ¬ j - i = 0 := by omega
        simp [hj, this]
  by_cases hj : j < 255
  · by_cases hji : j = i
    · cases v <;> simp only [pinAt, putPin, if_true, Bool.false_eq_true, if_false, BitVec.getLsbD_or,
        BitVec.getLsbD_and, BitVec.getLsbD_not, h1] <;> simp [hji]
    · cases v <;> simp only [pinAt, putPin, if_true, Bool.false_eq_true, if_false, BitVec.getLsbD_or,
        BitVec.getLsbD_and, BitVec.getLsbD_not, h1] <;> simp [hji, hj]
  · have : ¬ j = i := by omega
    simp [pinAt, this, BitVec.getLsbD_of_ge _ j (by omega : 255 ≤ j)]

theorem getLsbD_addressView (p : Pins) (i : Nat) : (addressView p).getLsbD i = (decide (i < 16) && pinAt i p) := by
  simp [addressView, pinAt]

theorem getLsbD_dataView (p : Pins) (i : Nat) : (dataView p).getLsbD i = (decide (i < 8) && pinAt (16 + i) p) := by
  simp [dataView, pinAt]

@[simp] theorem addressView_putAddress (a : Addr) (p : Pins) : addressView (putAddress a p) = a := by
  apply BitVec.eq_of_getLsbD_eq
  intro i hi
  rw [getLsbD_addressView, pinAt_putAddress]
  simp [hi]

@[simp] theorem dataView_putAddress (a : Addr) (p : Pins) : dataView (putAddress a p) = dataView p := by
  apply BitVec.eq_of_getLsbD_eq
  intro i hi
  have : ¬ 16 + i < 16 := by omega
  rw [getLsbD_dataView, getLsbD_dataView, pinAt_putAddress, if_neg this]

@[simp] theorem dataView_putData (d : Byte) (p : Pins) : dataView (putData d p) = d := by
  apply BitVec.eq_of_getLsbD_eq
  intro i hi
  have : 16 ≤ 16 + i ∧ 16 + i < 24 := by omega
  rw [getLsbD_dataView, pinAt_putData, if_pos this]
  simp [hi]

@[simp] theorem addressView_putData (d : Byte) (p : Pins) : addressView (putData d p) = addressView p := by
  apply BitVec.eq_of_getLsbD_eq
  intro i hi
  have : ¬ (16 ≤ i ∧ i < 24) := by omega
  rw [getLsbD_addressView, getLsbD_addressView, pinAt_putData, if_neg this]

/-- Two pin words with the same pins are equal. -/
theorem pins_ext {p q : Pins} (h : ∀ i, pinAt i p = pinAt i q) : p = q := by
  apply BitVec.eq_of_getLsbD_eq
  intro i _
  exact h i

/-- The pins from `w` up are 0 exactly when the pin word is below `2^w`. -/
theorem pins_lt_iff (w : Nat) (p : Pins) : p.toNat < 2 ^ w ↔ ∀ i, w ≤ i → pinAt i p = false := by
  constructor
  · intro h i hi
    exact Nat.testBit_lt_two_pow (Nat.lt_of_lt_of_le h (Nat.pow_le_pow_right (by decide) hi))
  · intro h
    by_contra hc
    obtain ⟨i, hi, hb⟩ := Nat.exists_ge_and_testBit_of_ge_two_pow (Nat.le_of_not_lt hc)
    have := h i hi
    simp [pinAt, BitVec.getLsbD, hb] at this

end Sys2Proof.Machine
end

