-- ==== Sys2Proof/Laws/Sequencer.lean ====
section
/-! SUPPORT. The fetch phases and the decoder's latches: what each phase can do, once (spec/44_cpu_sequencer.md R211–R217). -/

namespace Sys2Proof.Machine

/-- Phase `FETCH_OP` (R211, R214, R215): halted by a miss or an unimplemented opcode, or on to the phase of the format. -/
theorem fetchOp_cases (s : State) :
    ∃ ev,
      ((s.routeOf s.cpu.pc = none ∨ formatOf (memByte s.cpu.pc s) = none) ∧
        fetchOp s = { s with
          cpu := { s.cpu with pc := s.cpu.pc + 1, op := memByte s.cpu.pc s, state := .halted, seq := .waitLo }
          diag := s.diag ++ ev }) ∨
      (formatOf (memByte s.cpu.pc s) = some .imp ∧
        fetchOp s = { s with
          cpu := { s.cpu with pc := s.cpu.pc + 1, op := memByte s.cpu.pc s, seq := .exec }, diag := s.diag ++ ev }) ∨
      ((formatOf (memByte s.cpu.pc s) = some .imm ∨ formatOf (memByte s.cpu.pc s) = some .abs) ∧
        fetchOp s = { s with
          cpu := { s.cpu with pc := s.cpu.pc + 1, op := memByte s.cpu.pc s, seq := .fetchB1 }, diag := s.diag ++ ev }) := by
  obtain ⟨h1, ev, h2⟩ := fetch_spec s
  unfold fetchOp
  dsimp only
  rw [h1, h2]
  cases hr : s.routeOf s.cpu.pc with
  | none => exact ⟨ev, .inl ⟨.inl rfl, rfl⟩⟩
  | some ka =>
    simp only [Option.isSome_some, if_true]
    cases hf : formatOf (memByte s.cpu.pc s) with
    | none =>
      refine ⟨ev ++ [⟨.error, .unimplementedOpcode (memByte s.cpu.pc s) s.cpu.opaddr⟩], .inl ⟨.inr rfl, ?_⟩⟩
      simp [unimplemented, halt, State.log, State.mapCpu]
    | some f =>
      cases f with
      | imp => exact ⟨ev, .inr (.inl ⟨rfl, rfl⟩)⟩
      | imm => exact ⟨ev, .inr (.inr ⟨.inl rfl, rfl⟩)⟩
      | abs => exact ⟨ev, .inr (.inr ⟨.inr rfl, rfl⟩)⟩

/-- Phase `FETCH_B1` with an opcode that has an operand (R212, R215). -/
theorem fetchB1_cases {s : State} (h : formatOf s.cpu.op = some .imm ∨ formatOf s.cpu.op = some .abs) :
    ∃ ev,
      (s.routeOf s.cpu.pc = none ∧
        fetchB1 s = { s with
          cpu := { s.cpu with pc := s.cpu.pc + 1, b1 := memByte s.cpu.pc s, state := .halted, seq := .waitLo }
          diag := s.diag ++ ev }) ∨
      (formatOf s.cpu.op = some .imm ∧
        fetchB1 s = { s with
          cpu := { s.cpu with pc := s.cpu.pc + 1, b1 := memByte s.cpu.pc s, seq := .exec }, diag := s.diag ++ ev }) ∨
      (formatOf s.cpu.op = some .abs ∧
        fetchB1 s = { s with
          cpu := { s.cpu with pc := s.cpu.pc + 1, b1 := memByte s.cpu.pc s, seq := .fetchB2 }, diag := s.diag ++ ev }) := by
  obtain ⟨h1, ev, h2⟩ := fetch_spec s
  unfold fetchB1
  dsimp only
  rw [h1, h2]
  refine ⟨ev, ?_⟩
  cases hr : s.routeOf s.cpu.pc with
  | none => exact .inl ⟨rfl, rfl⟩
  | some ka =>
    simp only [Option.isSome_some, if_true, State.mapCpu]
    rcases h with h | h
    · exact .inr (.inl ⟨h, by simp [h, State.goto, State.mapCpu]⟩)
    · exact .inr (.inr ⟨h, by simp [h, State.goto, State.mapCpu]⟩)

/-- Phase `FETCH_B2` (R213, R215). -/
theorem fetchB2_cases (s : State) :
    ∃ ev,
      (s.routeOf s.cpu.pc = none ∧
        fetchB2 s = { s with
          cpu := { s.cpu with pc := s.cpu.pc + 1, b2 := memByte s.cpu.pc s, state := .halted, seq := .waitLo }
          diag := s.diag ++ ev }) ∨
      fetchB2 s = { s with
        cpu := { s.cpu with
          pc := s.cpu.pc + 1
          b2 := memByte s.cpu.pc s
          ea := wordOfBytes s.cpu.b1 (memByte s.cpu.pc s)
          seq := .absTry }
        diag := s.diag ++ ev } := by
  obtain ⟨h1, ev, h2⟩ := fetch_spec s
  unfold fetchB2
  dsimp only
  rw [h1, h2]
  refine ⟨ev, ?_⟩
  cases hr : s.routeOf s.cpu.pc with
  | none => exact .inl ⟨rfl, rfl⟩
  | some ka => exact .inr rfl

/-- Latches whose opcode is in the map hold an instruction of the opcode's format (R86, R217). -/
theorem latchedInstr_of_format {s : State} {f : Format} (h : formatOf s.cpu.op = some f) :
    ∃ i, latchedInstr s = some i ∧ i.format = f := by
  unfold formatOf at h
  obtain ⟨row, hr, rfl⟩ := Option.map_eq_some_iff.mp h
  have hm := (opcodeRow_some hr).1
  simp only [latchedInstr, decode, hr]
  simp only [opcodeMap, List.mem_cons, List.not_mem_nil, or_false] at hm
  rcases hm with e | e | e | e | e | e | e | e | e | e | e | e | e | e | e | e | e <;> subst e <;> exact ⟨_, rfl, rfl⟩

/-- An absolute instruction has an access (R243). -/
theorem absAccessOf_abs {i : Instr} (h : i.format = .abs) : ∃ acc, absAccessOf i = some acc := by
  cases i <;> first | exact ⟨_, rfl⟩ | cases h

/-- Latches whose opcode is absolute hold an access. -/
theorem latchedAccess_of_abs {s : State} (h : formatOf s.cpu.op = some .abs) : ∃ acc, latchedAccess s = some acc := by
  obtain ⟨i, hi, hf⟩ := latchedInstr_of_format h
  obtain ⟨acc, ha⟩ := absAccessOf_abs hf
  exact ⟨acc, by simp [latchedAccess, hi, ha]⟩

/-- What the fetches of an instruction leave: halted at `WAIT_LO`, or the last fetch done, with an opcode of the map in the latch. -/
theorem fetchInstr_cases (s : State) :
    ((fetchInstr s).cpu.state = .halted ∧ (fetchInstr s).cpu.seq = .waitLo) ∨
    ((fetchInstr s).cpu.state = s.cpu.state ∧
      (((fetchInstr s).cpu.seq = .exec ∧
          (formatOf (fetchInstr s).cpu.op = some .imp ∨ formatOf (fetchInstr s).cpu.op = some .imm)) ∨
        ((fetchInstr s).cpu.seq = .absTry ∧ formatOf (fetchInstr s).cpu.op = some .abs ∧
          (fetchInstr s).cpu.ea = wordOfBytes (fetchInstr s).cpu.b1 (fetchInstr s).cpu.b2))) := by
  unfold fetchInstr fetchOperands
  obtain ⟨ev, ⟨-, h⟩ | ⟨hf, h⟩ | ⟨hf, h⟩⟩ := fetchOp_cases (startInstr s) <;> rw [h] <;> dsimp only
  · exact .inl ⟨rfl, rfl⟩
  · exact .inr ⟨rfl, .inl ⟨rfl, .inl hf⟩⟩
  · rw [if_pos rfl]
    obtain ⟨ev1, ⟨-, h1⟩ | ⟨hf1, h1⟩ | ⟨hf1, h1⟩⟩ := fetchB1_cases
      (s := { startInstr s with
        cpu := { (startInstr s).cpu with
          pc := (startInstr s).cpu.pc + 1, op := memByte (startInstr s).cpu.pc (startInstr s), seq := .fetchB1 }
        diag := (startInstr s).diag ++ ev }) hf <;> rw [h1]
    · exact .inl ⟨rfl, rfl⟩
    · exact .inr ⟨rfl, .inl ⟨rfl, .inr hf1⟩⟩
    · rw [if_pos rfl]
      obtain ⟨ev2, ⟨-, h2⟩ | h2⟩ := fetchB2_cases
        { startInstr s with
          cpu := { (startInstr s).cpu with
            pc := (startInstr s).cpu.pc + 1 + 1
            op := memByte (startInstr s).cpu.pc (startInstr s)
            b1 := memByte ((startInstr s).cpu.pc + 1) (startInstr s)
            seq := .fetchB2 }
          diag := (startInstr s).diag ++ ev ++ ev1 } <;> erw [h2]
      · exact .inl ⟨rfl, rfl⟩
      · exact .inr ⟨rfl, .inr ⟨rfl, hf1, rfl⟩⟩

end Sys2Proof.Machine
end

