-- ==== Sys2Proof/Tests/Slice0.lean ====
section
/-! SUPPORT. Small tests, their expected results from spec/95_test_vectors.md (the row is named) or written out from the rule
named, and for every statement with hypotheses a concrete state and operands that meet them. -/

namespace Sys2Proof.Tests

open Sys2Proof.Machine

/-! ### Helpers -/

/-- The reference system after reset with bytes preloaded. -/
def withImage (image : List ImageByte) : State := preload image State.reset

/-- The next state of an outcome, `d` where there is none. -/
def nextOr (d : State) (r : Result) : State :=
  match r with
  | .next t => t
  | .fault _ => d
  | .refused _ => d

/-- The state after one enabled event. -/
def after (e : Event) (s : State) : State := nextOr s ((eventStep e s).getD (.next s))

/-- The state after `exec`. -/
def execd (i : Instr) (s : State) : State := nextOr s (exec i s)

/-- The program bytes at CPU address 0x8000, which is local address 0 of the ROM. -/
def romImage (a : Nat) (bytes : List Byte) : List ImageByte :=
  match bytes with
  | [] => []
  | v :: rest => (1, a, v) :: romImage (a + 1) rest

/-- The CPU about to dispatch at `pc`, with a byte list at 0x8000 and further bytes, and the span scheduled. -/
def readyAt (pc : Addr) (bytes : List Byte) (more : List ImageByte) : State :=
  readyToDispatch ((withImage (romImage 0 bytes ++ more)).mapCpu fun c => { c with pc := pc })

/-- One step of the machine. -/
def stepped (s : State) : State := nextOr s (step s)

/-- Rewrite `A`, `X` and `Y`. -/
def withRegs (a x y : Byte) (s : State) : State := s.mapCpu fun c => { c with a := a, x := x, y := y }

/-- Give the bus an owner. -/
def ownedBy (id : ComponentId) (s : State) : State := s.mapBus fun b => { b with owner := some id }

/-- Rewrite chip `k`. -/
def editChip (k : Nat) (f : Chip → Chip) (s : State) : State :=
  match s.chips[k]? with
  | some c => s.setChip k (f c)
  | none => s

/-- Drive the CPU's input pins. -/
def driven (rdy resb : Bool) (s : State) : State := s.mapCpu (Cpu.drive { rdy := some rdy, resb := some resb })

/-- A state with the CPU at a phase, its latches holding an instruction's bytes. -/
def atPhase (q : Seq) (op b1 b2 : Byte) (s : State) : State :=
  s.mapCpu fun c => { c with seq := q, op := op, b1 := b1, b2 := b2, ea := wordOfBytes b1 b2 }

/-! ### Ill-formed assemblies are refused (R7); an ill-formed instruction term does not exist -/

theorem test_reference_is_well_formed : Config.reference.wellFormed = true := by decide
theorem test_narrow_bus_refused : (Config.wellFormed { Config.reference with busWidth := 23 }) = false := by decide
theorem test_wide_bus_refused : (Config.wellFormed { Config.reference with busWidth := 256 }) = false := by decide
theorem test_no_chip_refused : (Config.wellFormed { Config.reference with chips := [], mappings := [] }) = false := by decide
theorem test_empty_chip_refused : (Config.wellFormed { Config.reference with chips := [⟨.ram, 0⟩, ⟨.rom, 1⟩] }) = false := by decide
theorem test_large_chip_refused : (Config.wellFormed { Config.reference with chips := [⟨.ram, 65537⟩, ⟨.rom, 1⟩] }) = false := by decide
theorem test_mapping_of_no_chip_refused : (Config.wellFormed { Config.reference with mappings := [⟨0, 1, 2⟩] }) = false := by decide
theorem test_zero_timeout_refused : (Config.wellFormed { Config.reference with busTimeout := 0 }) = false := by decide
theorem test_zero_poll_active_refused : (Config.wellFormed { Config.reference with pollActive := 0 }) = false := by decide
theorem test_zero_poll_idle_refused : (Config.wellFormed { Config.reference with pollIdle := 0 }) = false := by decide

/-! ### Decoding: each row's bits as spec/opcode_table.json writes its encoding -/

theorem test_decode_ldaImm : decode [0b10101001, 0b01000010] = .instr (.ldaImm 0x42) [] := by decide
theorem test_decode_ldxImm : decode [0b10100010, 0b11111110] = .instr (.ldxImm 0xFE) [] := by decide
theorem test_decode_ldyImm : decode [0b10100000, 0b00000111] = .instr (.ldyImm 0x07) [] := by decide
theorem test_decode_ldaAbs : decode [0b10101101, 0b00000001, 0b10000000] = .instr (.ldaAbs 0x8001) [] := by decide
theorem test_decode_ldxAbs : decode [0b10101110, 0b00000000, 0b01010000] = .instr (.ldxAbs 0x5000) [] := by decide
theorem test_decode_ldyAbs : decode [0b10101100, 0b00000001, 0b00000000] = .instr (.ldyAbs 0x0001) [] := by decide
theorem test_decode_staAbs : decode [0b10001101, 0b00000000, 0b00000010] = .instr (.staAbs 0x0200) [] := by decide
theorem test_decode_inx : decode [0b11101000] = .instr .inx [] := by decide
theorem test_decode_iny : decode [0b11001000] = .instr .iny [] := by decide
theorem test_decode_dex : decode [0b11001010] = .instr .dex [] := by decide
theorem test_decode_dey : decode [0b10001000] = .instr .dey [] := by decide
theorem test_decode_tax : decode [0b10101010] = .instr .tax [] := by decide
theorem test_decode_txa : decode [0b10001010] = .instr .txa [] := by decide
theorem test_decode_tay : decode [0b10101000] = .instr .tay [] := by decide
theorem test_decode_tya : decode [0b10011000] = .instr .tya [] := by decide
theorem test_decode_nop : decode [0b11101010] = .instr .nop [] := by decide
theorem test_decode_brk : decode [0b00000000] = .instr .brk [] := by decide
theorem test_decode_unimplemented : decode [0xFF, 0x00, 0x00] = .error (.unimplementedOpcode 0xFF) := by decide
theorem test_decode_missing_operand : decode [0xAD, 0x00] = .error (.missingOperand 0xAD) := by decide
theorem test_table_word_order : decodeTableWord 24 0x02008D = some (.staAbs 0x0200) := by decide
theorem test_table_word_without_operands : decodeTableWord 8 0xFFAD = some (.ldaAbs 0x0000) := by decide

/-! ### The host's placed word is fetched and run first after reset -/

theorem test_fetch_word_runs_lda : (stepped (State.reset.withFetchWord 16 0x42A9)).cpu.a = 0x42 := by decide
theorem test_fetch_word_wraps_the_pc : (stepped (State.reset.withFetchWord 24 0x02008D)).cpu.pc = 0x0002 := by decide

/-! ### Loads and stores (L2.6) -/

/-- LS1. -/
theorem test_lda_imm :
    let t := stepped (readyAt 0x8000 [0xA9, 0x42] [])
    (t.cpu.a, t.cpu.flags.n, t.cpu.flags.z, t.cpu.pc, t.cpu.seq) = (0x42, false, false, 0x8002, .waitLo) := by decide
/-- LS3. -/
theorem test_lda_imm_negative :
    let t := stepped (readyAt 0x8000 [0xA9, 0x80] [])
    (t.cpu.a, t.cpu.flags.n, t.cpu.flags.z) = (0x80, true, false) := by decide
/-- LS4. -/
theorem test_ldx_imm :
    let t := stepped (readyAt 0x8000 [0xA2, 0xFF] [])
    (t.cpu.x, t.cpu.flags.n, t.cpu.flags.z) = (0xFF, true, false) := by decide
/-- LS5. -/
theorem test_ldy_imm :
    let t := stepped (withRegs 0 0 0x12 (readyAt 0x8000 [0xA0, 0x00] []))
    (t.cpu.y, t.cpu.flags.n, t.cpu.flags.z) = (0x00, false, true) := by decide
/-- LS6: registers and flags. -/
theorem test_lda_abs :
    let t := stepped (readyAt 0x8000 [0xAD, 0x00, 0x02] [(0, 0x0200, 0x7F)])
    (t.cpu.a, t.cpu.flags.n, t.cpu.flags.z, t.cpu.pc, t.cpu.rwb) = (0x7F, false, false, 0x8003, true) := by decide
/-- LS6: the bus. -/
theorem test_lda_abs_bus :
    let t := stepped (readyAt 0x8000 [0xAD, 0x00, 0x02] [(0, 0x0200, 0x7F)])
    (addressView t.bus.pins, dataView t.bus.pins, t.bus.owner, t.diag) = (0x0200, 0x7F, none, []) := by decide
/-- LS8. -/
theorem test_ldx_abs_unmapped :
    let t := stepped (readyAt 0x8000 [0xAE, 0x00, 0x50] [])
    (t.cpu.x, t.cpu.flags.n, t.cpu.state, t.diag) =
      (0xFF, true, .running, [⟨.error, .unmapped 0x5000 .read⟩]) := by decide
/-- LS9. -/
theorem test_ldy_abs :
    let t := stepped (readyAt 0x8000 [0xAC, 0x01, 0x80] [])
    (t.cpu.y, t.cpu.flags.n, t.cpu.flags.z, t.cpu.pc) = (0x01, false, false, 0x8003) := by decide
/-- LS10. -/
theorem test_sta_abs :
    let t := stepped (withRegs 0x01 0 0 (readyAt 0x8000 [0x8D, 0x00, 0x02] []))
    (chipByte 0 0x0200 t, t.bus.pins, t.cpu.flags, t.cpu.rwb, t.cpu.pc) =
      (0x01, 0x010200, Flags.afterReset, true, 0x8003) := by decide
/-- LS13. -/
theorem test_sta_abs_times_out :
    let t := stepped (ownedBy .host (withRegs 0x01 0 0 (readyAt 0x8000 [0x8D, 0x00, 0x02] [])))
    (chipByte 0 0x0200 t, t.cpu.pc, t.cpu.rwb, t.diag) =
      (0x00, 0x8000, true, [⟨.warning, .busTimeout .cpu⟩]) := by decide
/-- LS12, by the CPU's own steps: `RWB` is low after `ABS_ADDR` (LS15), and the ROM is written. -/
theorem test_sta_abs_by_steps :
    let s0 := withRegs 0x33 0 0 (readyAt 0x8000 [0x8D, 0x00, 0x90] [])
    let s6 := after .cpu (after .cpu (after .cpu (after .cpu (after .cpu (after .cpu s0)))))
    let s9 := after .cpu (after .cpu (after .cpu s6))
    (s6.cpu.rwb, s6.cpu.seq, s9.cpu.rwb, chipByte 1 0x1000 s9, s9.cpu.seq) =
      (false, .absData, true, 0x33, .waitLo) := by decide

/-! ### Register operations (L2.7) -/

/-- RO2. -/
theorem test_inx_wraps :
    let t := stepped (withRegs 0 0xFF 0 (readyAt 0x8000 [0xE8] []))
    (t.cpu.x, t.cpu.flags.n, t.cpu.flags.z) = (0x00, false, true) := by decide
/-- RO3. -/
theorem test_inx_sign :
    let t := stepped (withRegs 0 0x7F 0 (readyAt 0x8000 [0xE8] []))
    (t.cpu.x, t.cpu.flags.n, t.cpu.flags.z) = (0x80, true, false) := by decide
/-- RO4. -/
theorem test_iny_wraps :
    let t := stepped (withRegs 0 0 0xFF (readyAt 0x8000 [0xC8] []))
    (t.cpu.y, t.cpu.flags.n, t.cpu.flags.z) = (0x00, false, true) := by decide
/-- RO5. -/
theorem test_dex_wraps :
    let t := stepped (withRegs 0 0x00 0 (readyAt 0x8000 [0xCA] []))
    (t.cpu.x, t.cpu.flags.n, t.cpu.flags.z) = (0xFF, true, false) := by decide
/-- RO8. -/
theorem test_dey_wraps :
    let t := stepped (withRegs 0 0 0x00 (readyAt 0x8000 [0x88] []))
    (t.cpu.y, t.cpu.flags.n, t.cpu.flags.z) = (0xFF, true, false) := by decide
/-- RO9. -/
theorem test_tax :
    let t := stepped (withRegs 0x00 0x33 0 (readyAt 0x8000 [0xAA] []))
    (t.cpu.x, t.cpu.a, t.cpu.flags.n, t.cpu.flags.z) = (0x00, 0x00, false, true) := by decide
/-- RO11. -/
theorem test_txa :
    let t := stepped (withRegs 0 0xFE 0 (readyAt 0x8000 [0x8A] []))
    (t.cpu.a, t.cpu.x, t.cpu.flags.n, t.cpu.flags.z) = (0xFE, 0xFE, true, false) := by decide
/-- RO12. -/
theorem test_tay :
    let t := stepped (withRegs 0x00 0 0x5A (readyAt 0x8000 [0xA8] []))
    (t.cpu.y, t.cpu.flags.z) = (0x00, true) := by decide
/-- RO13. -/
theorem test_tya :
    let t := stepped (withRegs 0 0 0x80 (readyAt 0x8000 [0x98] []))
    (t.cpu.a, t.cpu.flags.n) = (0x80, true) := by decide
/-- RO14 and SEQ13: only `PC` changes, and it wraps. -/
theorem test_nop_wraps_the_pc :
    let s := readyAt 0xFFFF [] [(1, 0x7FFF, 0xEA)]
    let t := stepped s
    (t.cpu.pc, t.cpu.a, t.cpu.flags, t.diag, t.chips) = (0x0000, s.cpu.a, s.cpu.flags, [], s.chips) := by decide
/-- RO15. -/
theorem test_brk :
    let s := readyAt 0x8000 [0x00] []
    let t := stepped s
    (t.cpu.state, t.cpu.pc, t.cpu.flags, t.cpu.sp, t.diag, t.chips) =
      (.halted, 0x8001, Flags.afterReset, s.cpu.sp, [], s.chips) := by decide

/-! ### Sequencer and reset (L2.5, L2.8) -/

/-- SEQ10. -/
theorem test_unimplemented_opcode_halts :
    let t := stepped (readyAt 0x8000 [0xFF] [])
    (t.cpu.state, t.cpu.pc, t.cpu.seq, t.diag) =
      (.halted, 0x8001, .waitLo, [⟨.error, .unimplementedOpcode 0xFF 0x8000⟩]) := by decide
/-- SEQ12. -/
theorem test_operand_fetch_misses :
    let t := stepped (readyAt 0x3FFF [] [(0, 0x3FFF, 0xA9)])
    (t.cpu.state, t.cpu.pc, t.cpu.a, t.diag) = (.halted, 0x4001, 0, [⟨.error, .unmapped 0x4000 .read⟩]) := by decide
/-- RST1 and SEQ6: `RESB` wins over `RDY`. -/
theorem test_reset_reads_the_vector :
    let t := stepped (driven false false (withRegs 0 0x12 0 (readyAt 0x9000 [] [(1, 0x7FFC, 0x00), (1, 0x7FFD, 0x80)])))
    (t.cpu.pc, t.cpu.seq, t.cpu.x, addressView t.bus.pins, t.bus.owner, t.diag) =
      (0x8000, .waitLo, 0, 0xFFFD, none, []) := by decide
/-- RST3. -/
theorem test_reset_falls_back :
    let t := stepped (ownedBy .host (driven true false (readyAt 0x9000 [] [])))
    (t.cpu.pc, t.bus.pins, t.bus.owner, t.diag) = (0x0000, 0xFFFD, some .host, [⟨.error, .resetVectorFallback⟩]) := by decide
/-- RST4. -/
theorem test_reset_vector_unmapped :
    let s := { State.reset with cfg := { Config.reference with resetVector := 0x5000 } }
    let t := resetSpan s
    (t.cpu.pc, t.cpu.state, t.diag) =
      (0xFFFF, .running, [⟨.error, .unmapped 0x5000 .read⟩, ⟨.error, .unmapped 0x5001 .read⟩]) := by decide

/-! ### Chips, decoder, bus and clock (L2.1–L2.4) -/

/-- L1.3. -/
theorem test_word_is_little_endian :
    let t := chipWriteWord 0 0x0100 0x1234 State.reset
    (chipByte 0 0x0100 t, chipByte 0 0x0101 t, chipWord 0 0x0100 t) = (0x34, 0x12, 0x1234) := by decide
/-- C12, C13. -/
theorem test_word_past_the_end :
    let s := chipWriteByte 0 0x7FFF 0xAB State.reset
    (chipWord 0 0x7FFF s, chipByte 0 0x7FFF (chipWriteWord 0 0x7FFF 0x1234 s), (chipWriteWord 0 0x7FFF 0x1234 s).diag) =
      (0xFFFF, 0xAB, [⟨.warning, .outOfRange 0 0x7FFF⟩]) := by decide
/-- C7. -/
theorem test_chip_read_past_the_end :
    let s := editChip 0 (fun c => { c with ceN := false, oeN := false, aPins := 0x9000 }) State.reset
    let t := after (.chip 0) (after (.chip 0) (after (.chip 0) s))
    (dataView t.bus.pins, t.bus.owner, t.diag) = (0xFF, some (.chip 0), [⟨.warning, .outOfRange 0 0x9000⟩]) := by decide
/-- DEC9. -/
theorem test_first_mapping_wins :
    let ms : List Mapping := [⟨0x0000, 0x7FFF, 0⟩, ⟨0x4000, 0xBFFF, 1⟩]
    (route ms 0x5000, route ms 0x9000) = (some (0, 0x5000), some (1, 0x5000)) := by decide
/-- DEC10. -/
theorem test_backward_mapping_misses : route [⟨0x9000, 0x8000, 0⟩] 0x8800 = none := by decide
/-- B12. -/
theorem test_pin_aliases_the_data_view : (putPin 16 true 0x421234, dataView (putPin 16 true 0x421234)) = (0x431234, 0x43) := by decide
/-- C6 of the wait: chip 0's timeout with the bus held appends its event and touches no bus pin. -/
theorem test_chip_wait_times_out :
    let t := after (.chipTimeout 0) (ownedBy .host (editChip 0 (fun c => { c with phase := .wait }) State.reset))
    (t.chips.map (fun c => c.phase), t.bus.owner, t.bus.pins, t.diag) =
      ([.top, .top], some .host, 0xFFFD, [⟨.warning, .busTimeout (.chip 0)⟩]) := by decide
/-- LS14: after the host's release the waiting CPU takes its grant step. -/
theorem test_waiting_cpu_is_granted :
    let t := after .cpu (after (.host .release) (ownedBy .host (atPhase .absWait 0xAD 0x00 0x02 State.reset)))
    (t.bus.owner, t.cpu.seq, t.diag) = (some .cpu, .absAddr, []) := by decide
/-- CLK6, CLK8: −5.0, a NaN and +∞ are no speeds, 20.0 is. -/
theorem test_speeds :
    (speedValid 0xC0A00000, speedValid 0x7FC00000, speedValid 0x7F800000, speedValid 0x41A00000) =
      (false, false, false, true) := by decide
/-- R36: `P = {N, V, U, B, D, I, Z, C}`. -/
theorem test_packed_flags :
    (Flags.packed { Flags.afterReset with n := true }, Flags.packed { Flags.afterReset with z := true }) = (0x84, 0x06) := by decide

/-! ### Witnesses: the invariant of a concrete state, and concrete runs -/

/-- `State.phaseOk` as a computation. -/
def phaseCheck (s : State) : Bool :=
  match s.cpu.state with
  | .powerOff => s.cpu.seq == .waitHi
  | .powerOn => s.cpu.seq == .waitHi
  | .reset => s.cpu.seq.inReset
  | .running => !s.cpu.seq.inReset
  | .halted => s.cpu.seq == .waitHi || s.cpu.seq == .waitLo

theorem phaseOk_of_check {s : State} (h : phaseCheck s = true) : s.phaseOk := by
  unfold phaseCheck at h
  unfold State.phaseOk
  split at h <;> simp_all

/-- The chip that owns the bus, if one does. -/
def owningChip (s : State) : Option Nat :=
  match s.bus.owner with
  | some (.chip k) => some k
  | some .cpu => none
  | some .host => none
  | none => none

/-- `State.chipOwnerOk` as a computation over the chips there are. -/
def chipOwnerCheck (s : State) : Bool :=
  (List.range s.chips.length).all (fun k =>
    (owningChip s == some k) == ((s.chips[k]?).any fun c => c.phase.holdsBus)) &&
  (match owningChip s with
   | some k => decide (k < s.chips.length)
   | none => true)

theorem owningChip_eq (s : State) (k : Nat) : owningChip s = some k ↔ s.bus.owner = some (.chip k) := by
  unfold owningChip
  split <;> simp_all

theorem chipOwnerOk_of_check {s : State} (h : chipOwnerCheck s = true) : s.chipOwnerOk := by
  intro k
  unfold chipOwnerCheck at h
  rw [Bool.and_eq_true] at h
  obtain ⟨h1, h2⟩ := h
  rw [← owningChip_eq]
  by_cases hk : k < s.chips.length
  · have := List.all_eq_true.mp h1 k (List.mem_range.mpr hk)
    have hc : s.chips[k]? = some s.chips[k] := List.getElem?_eq_getElem hk
    simp only [hc, Option.any_some, beq_iff_eq] at this
    simp only [hc, Option.some.injEq, exists_eq_left', ← this, beq_iff_eq]
  · have hn : s.chips[k]? = none := List.getElem?_eq_none (by omega)
    simp only [hn]
    constructor
    · intro he
      rw [he] at h2
      simp at h2
      omega
    · rintro ⟨c, hc, -⟩
      cases hc

theorem pinsOk_of_lt {s : State} (h : s.bus.pins.toNat < 2 ^ s.cfg.busWidth) : s.pinsOk := by
  intro i hi
  unfold pinAt
  rw [BitVec.getLsbD]
  exact Nat.testBit_lt_two_pow (lt_of_lt_of_le h (Nat.pow_le_pow_right (by omega) hi))

/-- The invariant as a computation. -/
def invCheck (s : State) : Bool :=
  s.cfg.wellFormed && decide (s.bus.owner = some .cpu ↔ s.cpu.seq.holdsBus = true) && chipOwnerCheck s && phaseCheck s &&
  decide ((s.cpu.seq = .fetchB1 → formatOf s.cpu.op = some .imm ∨ formatOf s.cpu.op = some .abs) ∧
    (s.cpu.seq = .fetchB2 → formatOf s.cpu.op = some .abs) ∧
    (s.cpu.seq = .exec → formatOf s.cpu.op = some .imp ∨ formatOf s.cpu.op = some .imm) ∧
    (s.cpu.seq.inBracket = true → formatOf s.cpu.op = some .abs ∧ s.cpu.ea = wordOfBytes s.cpu.b1 s.cpu.b2)) &&
  decide (s.cpu.rwb = false ↔
    latchedAccess s = some .store ∧ (s.cpu.seq = .absData ∨ s.cpu.seq = .absMem ∨ s.cpu.seq = .absRel)) &&
  !s.cpu.sync && s.chips.all (fun c => Memory.wf (chipFill c.kind) c.capacity c.storage) &&
  decide (s.bus.pins.toNat < 2 ^ s.cfg.busWidth) &&
  decide (s.chips.map (fun c => (⟨c.kind, c.capacity⟩ : ChipConfig)) = s.cfg.chips)

theorem inv_of_check {s : State} (h : invCheck s = true) : s.Inv := by
  unfold invCheck at h
  simp only [Bool.and_eq_true, decide_eq_true_eq] at h
  obtain ⟨⟨⟨⟨⟨⟨⟨⟨⟨h1, h2⟩, h3⟩, h4⟩, h5⟩, h6⟩, h7⟩, h8⟩, h9⟩, h10⟩ := h
  exact ⟨h1, h2, chipOwnerOk_of_check h3, phaseOk_of_check h4, h5, h6, by simpa using h7,
    fun c hc => List.all_eq_true.mp h8 c hc, pinsOk_of_lt h9, h10⟩

/-- The events of a run that plays a list and then lets the host read the bus for ever. -/
def playEvents (evs : List Event) (n : Nat) : Event := evs.getD n (.host .readAddress)

/-- The states of that run. -/
def playStates (evs : List Event) (s : State) (n : Nat) : State :=
  match evs, n with
  | [], _ => s
  | _ :: _, 0 => s
  | e :: rest, n + 1 => playStates rest (after e s) n

/-- Every event of the list is enabled in its turn, and no fault stands at the end. -/
def playable (evs : List Event) (s : State) : Bool :=
  match evs with
  | [] => s.fault == none
  | e :: rest => (match eventStep e s with
    | some (.next _) => true
    | some (.fault _) => false
    | some (.refused _) => false
    | none => false) && playable rest (after e s)

theorem isRun_play : ∀ (evs : List Event) (s : State), playable evs s = true → IsRun (playEvents evs) (playStates evs s)
  | [], s, h => by
    intro n
    have hf : s.fault = none := by simpa [playable] using h
    simp [playEvents, playStates, eventStep, hf, agentStep, hostStep, answers]
  | e :: rest, s, h => by
    rw [playable, Bool.and_eq_true] at h
    intro n
    cases n with
    | zero =>
      have h1 := h.1
      have : playStates (e :: rest) s 1 = after e s := by cases rest <;> rfl
      rw [this]
      simp only [playEvents, playStates, List.getD_cons_zero, after]
      split at h1 <;> simp_all [nextOr]
    | succ m => exact isRun_play rest (after e s) h.2 m

/-- The last state of a played list. -/
def playEnd (evs : List Event) (s : State) : State :=
  match evs with
  | [] => s
  | e :: rest => playEnd rest (after e s)

theorem playStates_end : ∀ (evs : List Event) (s : State) (n : Nat), evs.length ≤ n → playStates evs s n = playEnd evs s
  | [], _, _, _ => rfl
  | e :: rest, s, 0, h => by simp at h
  | e :: rest, s, n + 1, h => playStates_end rest (after e s) n (by simpa using h)

/-- A state in which no agent that fairness speaks of, the oscillator aside, has a step. -/
def quietButClock (s : State) : Bool :=
  (cpuStep s).isNone && (cpuTimeoutStep s).isNone && (cpuSpanStep s).isNone &&
  (hostGrantStep s).isNone && (hostTimeoutStep s).isNone && s.chips.all fun c => c.phase == .top && !c.alive

theorem quiet_chip {s : State} (h : quietButClock s = true) (k : Nat) : chipStep k s = none ∧ chipTimeoutStep k s = none := by
  simp only [quietButClock, Bool.and_eq_true, List.all_eq_true, beq_iff_eq] at h
  unfold chipStep chipTimeoutStep
  cases hc : s.chips[k]? with
  | none => simp
  | some c =>
    have := h.2 c (List.mem_of_getElem? hc)
    simp [chipPhaseStep, this.1]
    simpa using this.2

theorem quiet_others {s : State} (h : quietButClock s = true) (ag : FairAgent) (hc : ag ≠ .clock) (e : Event)
    (he : stepsOf ag e) : ¬ enabled e s := by
  have hq := h
  simp only [quietButClock, Bool.and_eq_true, Option.isNone_iff_eq_none] at h
  obtain ⟨⟨⟨⟨⟨h1, h2⟩, h3⟩, h5⟩, h6⟩, -⟩ := h
  have key : agentStep e s = none := by
    cases ag with
    | cpu => rcases he with rfl | rfl | rfl <;> assumption
    | chip k => rcases he with rfl | rfl <;> simp [agentStep, answers, quiet_chip hq k]
    | clock => exact absurd rfl hc
    | hostRequest => rcases he with rfl | rfl <;> simp [agentStep, answers, h5, h6]
  unfold enabled eventStep
  split <;> simp [key]

theorem quiet_none {s : State} (h : quietButClock s = true) (h4 : clockAgentStep s = none) (ag : FairAgent) (e : Event)
    (he : stepsOf ag e) : ¬ enabled e s := by
  by_cases hc : ag = .clock
  · subst hc
    obtain rfl : e = .clock := he
    unfold enabled eventStep
    split <;> simp [agentStep, answers, h4]
  · exact quiet_others h ag hc e he

theorem fairRun_play (evs : List Event) (s : State) (h : playable evs s = true) (hq : quietButClock (playEnd evs s) = true)
    (hc : clockAgentStep (playEnd evs s) = none) :
    FairRun (playEvents evs) (playStates evs s) := by
  refine ⟨isRun_play evs s h, ?_⟩
  rintro ag ⟨n, hn⟩
  exfalso
  obtain ⟨e, he, hen⟩ := hn (max n evs.length) (le_max_left _ _)
  rw [playStates_end evs s _ (le_max_right _ _)] at hen
  exact quiet_none hq hc ag e he hen

/-! ### Witnesses: for each statement, states and operands that meet its hypotheses, clause by clause -/

/-- The run state of the CPU. -/
def inState (x : ExecState) (s : State) : State := s.mapCpu fun c => { c with state := x }

/-- The CPU at `WAIT_HI` with the clock high and `NOP` at `PC`. -/
def atDispatch : State := readyAt 0x8000 [0xEA] []

/-- A chip whose pins select an action. -/
def pinned (oeN weN : Bool) (a : Addr) (p : ChipPhase) (c : Chip) : Chip :=
  { c with ceN := false, oeN := oeN, weN := weN, aPins := a, phase := p }

/-- The clock with a mode and a pin. -/
def clocked (m : ClockMode) (pin : Bool) (s : State) : State := s.mapClock fun c => { c with mode := m, clkPin := pin }

/-- Stop the chips and leave them as they stand. -/
def chipsStopped (s : State) : State :=
  editChip 0 (fun c => { c with alive := false }) (editChip 1 (fun c => { c with alive := false }) s)

theorem witness_DecodeOfEncodeIsTheInstruction : (Instr.staAbs 0xFFFF).wellFormed = true := by decide

theorem witness_EncodeOfDecodeIsTheBytes :
    decode [0x8D, 0xFF, 0x00, 0xA9] = .instr (.staAbs 0x00FF) [0xA9] ∧ decode [0x00] = .instr .brk [] := by decide

theorem witness_OpcodesOutsideTheMapAreUnimplemented :
    let s := readyAt 0xFFFF [] []
    (s.routeOf s.cpu.pc).isSome = true ∧ formatOf (memByte s.cpu.pc s) = none := by decide

theorem witness_StepRunsTheScheduledEvent_fault : (pinFault 32 State.reset).fault = some (.pinIndexOutOfRange 32) := by decide

theorem witness_StepRunsTheScheduledEvent_enabled :
    State.reset.fault = none ∧
    agentStep .cpu { State.reset with sched := [] } = some (.next (State.reset.goto .waitHi)) := by
  exact ⟨rfl, rfl⟩

theorem witness_StepRunsTheScheduledEvent_waits :
    State.reset.fault = none ∧ State.reset.sched = [] ∧ agentStep .clock { State.reset with sched := [.cpu] } = none := by
  exact ⟨rfl, rfl, rfl⟩

theorem witness_StepRunsTheDecodedInstruction :
    let s := readyAt 0xFFFE [] [(1, 0x7FFE, 0xAD), (1, 0x7FFF, 0x01), (0, 0, 0x80)]
    s.fault = none ∧ s.sched = .cpuSpan :: [] ∧ s.cpu.state = .running ∧ s.cpu.seq = .waitHi ∧ s.clock.clkPin = true ∧
    s.cpu.alive = true ∧ s.cpu.resb = true ∧ s.cpu.rdy = true ∧
    decode (bytesAt s.cpu.pc s) = .instr (.ldaAbs 0x8001) [] ∧ (Instr.ldaAbs 0x8001).wellFormed = true ∧
    mappedFrom s.cpu.pc (Instr.length (.ldaAbs 0x8001)) s := by
  refine ⟨by decide, by decide, by decide, by decide, by decide, by decide, by decide, by decide, by decide, by decide, ?_⟩
  intro j hj
  have hj3 : j < 3 := hj
  interval_cases j <;> decide

theorem witness_SpanIsARunOfCpuSteps :
    atDispatch.fault = none ∧ step { atDispatch with sched := [.cpuSpan] } = .next (stepped atDispatch) ∧
    enabled .cpuSpan atDispatch := by
  refine ⟨by decide, rfl, ?_⟩
  intro h
  cases h

theorem witness_AbsoluteLoadsCompleteWhenTheBusIsFree :
    State.reset.bus.owner = none ∧ memByte 0x3FFF State.reset = 0x00 ∧ memByte 0x4000 State.reset = 0xFF := by decide

theorem memoryOk_of_check {s : State} (h : (s.chips.all fun c => Memory.wf (chipFill c.kind) c.capacity c.storage) = true) :
    s.memoryOk := fun c hc => List.all_eq_true.mp h c hc

theorem reset_memoryOk : State.reset.memoryOk := memoryOk_of_check (by decide)

theorem witness_StoreCompletesWhenTheBusIsFree :
    State.reset.bus.owner = none ∧ State.reset.memoryOk ∧ storeCell 0x3FFF State.reset = some (0, 0x3FFF) ∧
    storeCell 0x4000 State.reset = none ∧ storeCell 0xFFFF State.reset = some (1, 0x7FFF) :=
  ⟨rfl, reset_memoryOk, by decide, by decide, by decide⟩

theorem witness_AbsoluteAccessTimesOutWhenTheBusIsHeld :
    (ownedBy .cpu State.reset).bus.owner ≠ none ∧ (ownedBy (.chip 1) State.reset).bus.owner ≠ none := by decide

theorem witness_BracketRunsStepByStep_load :
    let s := atPhase .absTry 0xAD 0x00 0x40 State.reset
    s.cpu.state = .running ∧ latchedAccess s = some (.load .a) ∧ s.bus.owner = none ∧
    (ownedBy .host s).bus.owner ≠ none ∧ latchedAccess (atPhase .absAddr 0xAE 0 0x40 s) = some (.load .x) ∧
    latchedAccess (atPhase .absMem 0xAC 0 0x40 s) = some (.load .y) := by decide

theorem witness_BracketRunsStepByStep_store :
    let s := ownedBy .cpu (atPhase .absRel 0x8D 0xFF 0x3F State.reset)
    s.cpu.state = .running ∧ s.cpu.seq = .absRel ∧ latchedAccess s = some .store ∧ s.bus.owner = some .cpu ∧
    latchedAccess (atPhase .absData 0x8D 0 0x40 s) = some .store := by decide

theorem witness_BracketRunsStepByStep_wait :
    let s := atPhase .absWait 0x8D 0x00 0x02 State.reset
    s.cpu.state = .running ∧ s.cpu.seq = .absWait ∧ s.bus.owner = none ∧ (ownedBy .host s).bus.owner ≠ none := by decide

theorem witness_BracketRunsStepByStep_reset :
    let s := inState .reset State.reset
    s.cpu.state = .reset ∧ s.cfg.resetVector = 0xFFFC ∧ (s.goto .rstWait).bus.owner = none ∧
    (s.goto .rstWait).cpu.seq = .rstWait ∧ (ownedBy .host (s.goto .rstTry)).bus.owner ≠ none ∧
    (ownedBy .cpu (s.goto .rstRel)).bus.owner = some .cpu := by decide

theorem witness_InstructionFrame_next : exec .brk State.reset = .next (execd .brk State.reset) := rfl

theorem witness_InstructionFrame_changes :
    (execd (.ldaImm 1) State.reset).cpu.a ≠ State.reset.cpu.a ∧ (execd (.ldxAbs 0x4000) State.reset).cpu.x ≠ State.reset.cpu.x ∧
    (execd .dey State.reset).cpu.y ≠ State.reset.cpu.y ∧ absAccessOf (.ldaAbs 0) ≠ some .store ∧
    absAccessOf (.staAbs 0) = some .store ∧ Instr.format .nop ≠ .abs := by decide

theorem witness_DispatchFollowsItsPriority_powerOn :
    (inState .powerOn State.reset).cpu.state = .powerOn ∧ State.reset.cpu.alive = true ∧
    (State.reset.mapCpu fun c => { c with alive := false }).cpu.alive = false := by decide

theorem witness_DispatchFollowsItsPriority :
    let s := atDispatch
    s.cpu.seq = .waitHi ∧ s.cpu.state = .running ∧ s.clock.clkPin = true ∧ s.cpu.alive = true ∧ s.cpu.resb = true ∧
    s.cpu.rdy = true := by decide

theorem witness_DispatchFollowsItsPriority_waits :
    (clocked .monostable false atDispatch).clock.clkPin = false ∧ (driven false true atDispatch).cpu.rdy = false ∧
    (driven false false atDispatch).cpu.resb = false ∧ (inState .halted atDispatch).cpu.state = .halted := by decide

theorem witness_PowerOffIsLeftOnlyByPowerOn :
    let s := (inState .powerOff State.reset).goto .waitHi
    s.fault = none ∧ s.cpu.state = .powerOff ∧ (after (.host .powerOn) s).cpu.state ≠ .powerOff ∧
    (eventStep (.host .powerOn) s).isSome = true := by decide

theorem witness_FetchReadsAtPcAndAdvancesIt :
    (atDispatch.routeOf 0x3FFF).isSome = true ∧ (readyAt 0x4000 [] []).cpu.pc = 0x4000 ∧
    (readyAt 0x4000 [] []).routeOf 0x4000 = none := by decide

theorem witness_OpcodeFetchDecodes :
    let s := readyAt 0x8000 [0xEA, 0xA9, 0x8D, 0xFF] []
    (s.goto .fetchOp).cpu.state = .running ∧ (s.goto .fetchOp).cpu.seq = .fetchOp ∧
    formatOf (memByte 0x8000 s) = some .imp ∧ formatOf (memByte 0x8001 s) = some .imm ∧
    formatOf (memByte 0x8002 s) = some .abs ∧ formatOf (memByte 0x8003 s) = none := by decide

theorem witness_OpcodeFetchDecodes_miss :
    let s := (readyAt 0x4000 [] []).goto .fetchOp
    s.cpu.state = .running ∧ s.cpu.seq = .fetchOp ∧ s.cpu.pc = 0x4000 ∧ s.routeOf s.cpu.pc = none := by decide

theorem witness_OperandFetchesLatchTheOperand :
    let s := readyAt 0xFFFF [] []
    (s.routeOf s.cpu.pc).isSome = true ∧ (s.goto .fetchB1).cpu.seq = .fetchB1 ∧ (s.goto .fetchB2).cpu.seq = .fetchB2 ∧
    formatOf (atPhase .fetchB1 0xA2 0 0 s).cpu.op = some .imm ∧ formatOf (atPhase .fetchB1 0xAE 0 0 s).cpu.op = some .abs := by
  decide

theorem witness_OperandFetchesLatchTheOperand_miss :
    let s := (readyAt 0x7FFF [] []).goto .fetchB1
    s.cpu.state = .running ∧ s.cpu.seq = .fetchB1 ∧ s.routeOf s.cpu.pc = none ∧ (s.goto .fetchB2).cpu.seq = .fetchB2 ∧
    (s.goto .fetchB2).routeOf (s.goto .fetchB2).cpu.pc = none := by decide

theorem witness_WaitLoPassesAtALowClock :
    State.reset.cpu.seq = .waitLo ∧ State.reset.cpu.state = .running ∧ State.reset.clock.clkPin = false ∧
    (clocked .monostable true State.reset).clock.clkPin = true ∧ (inState .halted State.reset).cpu.state = .halted := by decide

theorem reset_inv_check : invCheck State.reset = true := by decide

theorem witness_ExecStateTransitions_power :
    let s := (inState .powerOff State.reset).goto .waitHi
    invCheck s = true ∧ (after (.host .powerOn) s).cpu.state = .powerOn ∧
    (after .cpu (after (.host .powerOn) s)).cpu.state = .reset := by decide

theorem witness_ExecStateTransitions_reset :
    let s := driven true false (inState .halted atDispatch)
    let e := (inState .reset State.reset).goto .rstEnd
    invCheck s = true ∧ (after .cpu s).cpu.state = .reset ∧ invCheck e = true ∧ (after .cpu e).cpu.state = .running := by decide

theorem witness_ExecStateTransitions_halt :
    let s := atPhase .exec 0x00 0 0 State.reset
    let m := atPhase .fetchB2 0xAD 0 0 (readyAt 0x4000 [] [])
    invCheck s = true ∧ (after .cpu s).cpu.state = .halted ∧ invCheck m = true ∧ (after .cpu m).cpu.state = .halted := by decide

/-- Two instructions by the CPU's own steps: dispatch, fetch, execute, the clock low, on, the clock high, dispatch. -/
def twoDispatches : List Event := [.cpu, .cpu, .cpu, .host .clockStep, .cpu, .host .clockStep, .cpu]

theorem witness_DispatchesAreDebounced :
    let s := readyAt 0x8000 [0xEA, 0xEA] []
    IsRun (playEvents twoDispatches) (playStates twoDispatches s) ∧ leavesWaitHi (playStates twoDispatches s) 0 ∧
    leavesWaitHi (playStates twoDispatches s) 6 :=
  ⟨isRun_play _ _ (by decide), ⟨by decide, by decide⟩, ⟨by decide, by decide⟩⟩

theorem witness_NoAbortInsideAnInstruction :
    (atPhase .absWait 0x8D 0 2 State.reset).cpu.seq ≠ .waitHi ∧ switchedOn (atPhase .absWait 0x8D 0 2 State.reset) = true := by
  decide

theorem witness_ResetReadsTheVectorWhenTheBusIsFree : State.reset.bus.owner = none := rfl

theorem witness_ResetFallsBackWhenTheBusIsHeld : (ownedBy .host State.reset).bus.owner ≠ none := by decide

theorem witness_OnlyTheHolderReleasesTheBus :
    let s := editChip 0 (fun c => { c with phase := .wait }) { ownedBy .cpu State.reset with hostPhase := .wait }
    s.bus.owner = some .cpu ∧ s.bus.owner ≠ some .host ∧ s.hostPhase = .wait ∧
    (s.chips[0]?).map (fun c => c.phase) = some .wait := by decide

theorem witness_RequestsAreTriedGrantedOrTimedOut :
    let s := editChip 0 (fun c => { c with phase := .try }) (editChip 1 (fun c => { c with phase := .wait }) State.reset)
    s.hostPhase = .idle ∧ s.bus.owner = none ∧ (ownedBy .cpu s).bus.owner ≠ none ∧
    ({ s with hostPhase := .wait } : State).hostPhase = .wait ∧
    s.chips.map (fun c => c.phase) = [.try, .wait] := by decide

theorem witness_OwnershipPassesThroughARelease :
    let s := atPhase .absTry 0x8D 0 2 State.reset
    s.bus.owner = none ∧ (after .cpu s).bus.owner = some .cpu ∧
    (after .cpu ((after .cpu s).goto .absRel)).bus.owner = none ∧
    (after (.host .request) s).bus.owner = some .host ∧ (after (.host .release) (after (.host .request) s)).bus.owner = none := by
  decide

theorem witness_PinAccessorsWriteOnlyTheirBits :
    State.reset.cfg.wellFormed = true ∧ 31 < State.reset.cfg.busWidth ∧ State.reset.fault = none := by decide

theorem witness_GetPinReadsThePin : State.reset.fault = none ∧ 0 < State.reset.cfg.busWidth ∧ 31 < State.reset.cfg.busWidth := by decide

theorem witness_FaultIsRaisedOnlyByAPinIndex :
    State.reset.fault = none ∧ State.reset.cfg.busWidth ≤ 32 ∧
    (after (.host (.getPin 32)) State.reset).fault = some (.pinIndexOutOfRange 32) ∧
    (after (.host (.setPin 32 true)) State.reset).fault ≠ none := by decide

theorem witness_ChipPollWritesOrDoesNothing :
    let c := pinned true false 0x7FFF .top (Chip.create ⟨.ram, 32768⟩)
    let s := editChip 0 (fun _ => c) State.reset
    s.chips[0]? = some c ∧ c.phase = .top ∧ c.alive = true ∧ c.aPins.toNat < c.capacity ∧
    (Chip.create ⟨.ram, 32768⟩).ceN = true := by decide

theorem witness_ChipPollWritesOrDoesNothing_past_the_end :
    (pinned true false 0x8000 .top (Chip.create ⟨.ram, 32768⟩)).capacity ≤
      (pinned true false 0x8000 .top (Chip.create ⟨.ram, 32768⟩)).aPins.toNat := by decide

theorem witness_ChipReadCycleDrivesTheBusOrSkipsIt :
    let c := pinned false true 0x7FFF .top (Chip.create ⟨.ram, 32768⟩)
    let s := editChip 0 (fun _ => c) State.reset
    s.fault = none ∧ s.chips[0]? = some c ∧ c.phase = .top ∧ c.alive = true ∧ (c.ceN, c.oeN, c.weN) = (false, false, true) ∧
    s.bus.owner = none ∧ (ownedBy .host s).bus.owner ≠ none := by decide

theorem witness_ChipDrivesTheBusOnlyAsItsOwner_drive :
    let c := { pinned false true 0x0010 .drive (Chip.create ⟨.ram, 32768⟩) with latch := 0x77 }
    let s := ownedBy (.chip 0) (editChip 0 (fun _ => c) State.reset)
    invCheck s = true ∧ s.chips[0]? = some c ∧ (eventStep (.chip 0) s).isSome = true ∧
    (after (.chip 0) s).bus.pins ≠ s.bus.pins := by decide

theorem witness_ChipDrivesTheBusOnlyAsItsOwner_poll :
    let s := editChip 0 (pinned false true 0xFFFF .top) State.reset
    invCheck s = true ∧ ((after (.chip 0) s).chips[0]?).map (fun c => c.dPins) = some 0xFF ∧
    (s.chips[0]?).map (fun c => c.dPins) = some 0x00 := by decide

theorem witness_StoppedAgentsTakeNoStepAtTheirTop :
    let s := (chipsStopped State.reset).mapCpu fun c => { c with alive := false, seq := .waitHi }
    s.cpu.alive = false ∧ s.cpu.seq = .waitHi ∧ invCheck s = true ∧
    s.chips.map (fun c => (c.alive, c.phase)) = [(false, .top), (false, .top)] ∧
    (after (.host (.stop .clock)) s).clock.alive = false := by decide

theorem witness_DirectByteAccess :
    State.reset.memoryOk ∧ State.reset.chips[0]? = some (Chip.create ⟨.ram, 32768⟩) ∧ State.reset.fault = none ∧
    32767 < (Chip.create ⟨.ram, 32768⟩).capacity ∧ (Chip.create ⟨.ram, 32768⟩).capacity ≤ 32768 :=
  ⟨reset_memoryOk, by decide, by decide, by decide, by decide⟩

theorem witness_DirectWordAccess :
    State.reset.memoryOk ∧ State.reset.chips[1]? = some (Chip.create ⟨.rom, 32768⟩) ∧
    32766 + 1 < (Chip.create ⟨.rom, 32768⟩).capacity :=
  ⟨reset_memoryOk, by decide, by decide⟩

theorem witness_DirectWordPastTheEnd :
    State.reset.chips[0]? = some (Chip.create ⟨.ram, 32768⟩) ∧ State.reset.fault = none ∧
    (Chip.create ⟨.ram, 32768⟩).capacity ≤ 32767 + 1 := by decide

theorem witness_DecoderUsesNoBus :
    (ownedBy .host State.reset).cfg = State.reset.cfg ∧ (ownedBy .host State.reset).chips = State.reset.chips ∧
    State.reset.routeOf 0xFFFF = some (1, 0x7FFF) := by decide

theorem witness_CreatedStorageReadsItsFill :
    Config.reference.chips[0]? = some ⟨.ram, 32768⟩ ∧ Config.reference.chips[1]? = some ⟨.rom, 32768⟩ ∧
    32767 < (⟨.rom, 32768⟩ : ChipConfig).capacity := by decide

theorem witness_CanonicalStorageIsUnique :
    Memory.wf 0xFF 32768 [(0, 0x12), (32767, 0x00)] = true ∧
    ∀ a, Memory.read 0xFF [(0, 0x12), (32767, 0x00)] a = Memory.read 0xFF [(0, 0x12), (32767, 0x00)] a :=
  ⟨by decide, fun _ => rfl⟩

theorem witness_RoutingTakesTheFirstMatch :
    let p : Mapping := ⟨0x0000, 0x3FFF, 0⟩
    let m : Mapping := ⟨0x8000, 0xFFFF, 1⟩
    Config.reference.mappings = [p] ++ m :: [] ∧ ¬ (p.first.toNat ≤ 0x8000 ∧ 0x8000 ≤ p.last.toNat) ∧
    m.first.toNat ≤ (0x8000#16).toNat ∧ (0xFFFF#16).toNat ≤ m.last.toNat ∧ route Config.reference.mappings 0x4000 = none := by
  decide

theorem witness_DecoderReadsAndWritesTheRoutedChip :
    State.reset.routeOf 0x3FFF = some (0, 0x3FFF) ∧ 0x3FFF < chipCapacity 0 State.reset ∧ State.reset.routeOf 0x7FFF = none ∧
    State.reset.fault = none := by decide

theorem witness_DecoderReadsAndWritesTheRoutedChip_past_the_end :
    let s := { State.reset with cfg := { Config.reference with mappings := [⟨0x0000, 0xFFFF, 0⟩] } }
    s.routeOf 0x8000 = some (0, 0x8000) ∧ chipCapacity 0 s ≤ 0x8000 := by decide

theorem witness_ClockOperations :
    State.reset.fault = none ∧ State.reset.clock.alive = true ∧ speedValid State.reset.clock.speedHz = true ∧
    State.reset.clock.mode = .monostable ∧
    (after (.host .clockStep) State.reset).clock.clkPin ≠ State.reset.clock.clkPin := by decide

theorem witness_ClockPinChangesOnlyByAToggle :
    (clocked .astable true State.reset).fault = none ∧ (clocked .astable true State.reset).clock.mode = .astable ∧
    State.reset.clock.alive = true ∧ 0 < (0x00000001#32).toNat ∧ (0x7F7FFFFF#32).toNat < 0x7F800000 ∧
    (after (.host .clockStep) State.reset).clock.clkPin ≠ State.reset.clock.clkPin ∧
    (after .clock (clocked .astable false State.reset)).clock.clkPin = true := by decide

/-- An assembly with the CPU off, the chips stopped and the clock in astable mode: only the oscillator has a step. -/
def onlyClock (pin : Bool) : State :=
  clocked .astable pin (chipsStopped ((inState .powerOff State.reset).goto .waitHi))

theorem onlyClock_steps (pin : Bool) : eventStep .clock (onlyClock pin) = some (.next (onlyClock (!pin))) := by
  cases pin <;> rfl

theorem onlyClock_others (pin : Bool) : quietButClock (onlyClock pin) = true := by cases pin <;> decide

theorem onlyClock_speed (pin : Bool) : speedValid (onlyClock pin).clock.speedHz = true := by cases pin <;> decide

theorem witness_AstableClockKeepsToggling :
    FairRun (fun _ => .clock) (fun n => onlyClock (n % 2 == 1)) ∧
    ∀ m : Nat, (onlyClock (m % 2 == 1)).clock.mode = .astable ∧ (onlyClock (m % 2 == 1)).clock.alive = true ∧
      speedValid (onlyClock (m % 2 == 1)).clock.speedHz = true := by
  refine ⟨⟨?_, ?_⟩, fun m => ⟨rfl, rfl, onlyClock_speed _⟩⟩
  · intro n
    have : ((n + 1) % 2 == 1) = !(n % 2 == 1) := by
      rcases Nat.mod_two_eq_zero_or_one n with h | h <;> simp [Nat.add_mod, h]
    simp only [this]
    exact onlyClock_steps _
  · rintro ag ⟨n, hn⟩ k
    refine ⟨k, le_rfl, ?_⟩
    by_contra hne
    obtain ⟨e, he, hen⟩ := hn n le_rfl
    refine quiet_others (onlyClock_others _) ag ?_ e he hen
    rintro rfl
    exact hne rfl

theorem witness_CpuRegistersAreWrittenOnlyByTheCpu :
    State.reset.fault = none ∧ (eventStep (.host .resetBus) State.reset).isSome = true ∧
    Event.host .resetBus ≠ .cpu ∧ Event.host .resetBus ≠ .cpuTimeout ∧ Event.host .resetBus ≠ .cpuSpan := by decide

theorem witness_HostDrivesPinsAndRunFlags :
    State.reset.fault = none ∧ State.reset.chips[0]? = some (Chip.create ⟨.ram, 32768⟩) ∧
    State.reset.chips[1]? = some (Chip.create ⟨.rom, 32768⟩) := by decide

theorem witness_ConfigurationIsConstant : step atDispatch = .next (stepped atDispatch) ∧ atDispatch.chipsOk := ⟨rfl, by
  unfold State.chipsOk; decide⟩

theorem witness_UnreadPinsHaveNoEffect :
    equalButUnread (State.reset.mapCpu fun c => { c with irqb := false, nmib := false, sync := true }) State.reset := rfl

theorem witness_EveryStepKeepsTheInvariant : atDispatch.Inv ∧ step atDispatch = .next (stepped atDispatch) :=
  ⟨inv_of_check (by decide), rfl⟩

theorem witness_EveryAssemblyMeetsTheInvariant : Config.reference.wellFormed = true := by decide

/-- The CPU, chip 0 and the host all wait for the bus, which the stopping chip 1 holds. -/
def allWaiting : State :=
  { editChip 0 (fun c => { c with phase := .wait }) (editChip 1 (fun c => { c with phase := .drive })
      (ownedBy (.chip 1) (chipsStopped (atPhase .absWait 0xAD 0x00 0x02 State.reset)))) with hostPhase := .wait }

/-- Each gives up, chip 1 releases, and the CPU passes `WAIT_LO`. -/
def allGiveUp : List Event := [.cpuTimeout, .chipTimeout 0, .hostTimeout, .chip 1, .chip 1, .cpu]

theorem witness_WaitsEndInAFairRun :
    FairRun (playEvents allGiveUp) (playStates allGiveUp allWaiting) ∧ (playStates allGiveUp allWaiting 0).Inv ∧
    (playStates allGiveUp allWaiting 0).cpu.seq = .absWait ∧
    ((playStates allGiveUp allWaiting 0).chips[0]?).map (fun c => c.phase) = some .wait ∧
    (playStates allGiveUp allWaiting 0).hostPhase = .wait :=
  ⟨fairRun_play _ _ (by decide) (by decide) (by decide), inv_of_check (by decide), by decide, by decide, by decide⟩

/-- The CPU in the wait of a reset, the host holding the bus. -/
def resetWaiting : State := ownedBy .host (chipsStopped ((inState .reset State.reset).goto .rstWait))

theorem witness_WaitsEndInAFairRun_reset :
    FairRun (playEvents [.cpuTimeout, .cpu, .cpu]) (playStates [.cpuTimeout, .cpu, .cpu] resetWaiting) ∧
    (playStates [.cpuTimeout, .cpu, .cpu] resetWaiting 0).Inv ∧
    (playStates [.cpuTimeout, .cpu, .cpu] resetWaiting 0).cpu.seq = .rstWait :=
  ⟨fairRun_play _ _ (by decide) (by decide) (by decide), inv_of_check (by decide), by decide⟩

end Sys2Proof.Tests
end

section
/-! PROOFS. The storage at creation (spec/10_state.md R24). -/

namespace Sys2Proof.Machine

/-- A chip just created lists no byte, so every address reads as its creation fill. -/
@[simp] theorem Chip.peek_create (kc : ChipConfig) (a : Nat) : (Chip.create kc).peek a = chipFill kc.kind := rfl

/-- Chip `k` of the system just assembled is the chip its configuration creates. -/
theorem State.create_chip {cfg : Config} {k : Nat} {kc : ChipConfig} (hk : cfg.chips[k]? = some kc) (draw : CpuDraw) :
    (State.create cfg draw).chips[k]? = some (Chip.create kc) := by
  simp [State.create, hk]

/-- A direct read below the capacity gives the storage byte (R140). -/
theorem chipByte_of_lt {s : State} {k a : Nat} {c : Chip} (hk : s.chips[k]? = some c) (ha : a < c.capacity) :
    chipByte k a s = c.peek a := by
  simp [chipByte, hk, ha]

/-- Below its capacity a chip of the system just assembled reads as the creation fill of its kind (R24). -/
theorem chipByte_create {cfg : Config} {k a : Nat} {kc : ChipConfig} (hk : cfg.chips[k]? = some kc)
    (ha : a < kc.capacity) (draw : CpuDraw) : chipByte k a (State.create cfg draw) = chipFill kc.kind :=
  calc chipByte k a (State.create cfg draw)
    _ = (Chip.create kc).peek a := chipByte_of_lt (State.create_chip hk draw) ha
    _ = chipFill kc.kind := Chip.peek_create kc a

/-- Settles O44: the byte read is the kind's creation fill, by `chipByte_create`. -/
theorem createdStorageReadsItsFill : Obligations.CreatedStorageReadsItsFill := by
  intro cfg draw k a kc hk ha
  have hfill := chipByte_create hk ha draw
  constructor
  · intro hrom
    rw [hfill, hrom, chipFill]
  · intro hram
    rw [hfill, hram, chipFill]

end Sys2Proof.Machine
end

section
/-! PROOFS. Direct byte and word accesses to a chip (spec/20_memory.md R63, spec/41_chip_protocol.md R140–R144): a write in
range, and a word as its two bytes. -/

namespace Sys2Proof.Machine

/-- The capacity of a chip of the assembly. -/
theorem chipCapacity_of_some {s : State} {k : Nat} {c : Chip} (hk : s.chips[k]? = some c) :
    chipCapacity k s = c.capacity := by
  simp [chipCapacity, hk]

/-- An address below a chip's capacity belongs to a chip of the assembly. -/
theorem exists_chip_of_lt {s : State} {k a : Nat} (ha : a < chipCapacity k s) :
    ∃ c, s.chips[k]? = some c ∧ a < c.capacity := by
  cases hk : s.chips[k]? with
  | none => simp [chipCapacity, hk] at ha
  | some c => exact ⟨c, rfl, chipCapacity_of_some hk ▸ ha⟩

/-- A store into a chip keeps its capacity. -/
@[simp] theorem Chip.poke_capacity (c : Chip) (a : Nat) (v : Byte) : (c.poke a v).capacity = c.capacity := rfl

/-- Setting a chip of the assembly is read back. -/
theorem State.setChip_getElem?_self {s : State} {k : Nat} {c : Chip} (hk : s.chips[k]? = some c) (d : Chip) :
    (s.setChip k d).chips[k]? = some d := by
  simp [List.getElem?_set_self', hk]

/-- A direct byte write in range stores into the chip (R141). -/
theorem chipWriteByte_of_lt {s : State} {k a : Nat} {c : Chip} (hk : s.chips[k]? = some c) (ha : a < c.capacity)
    (v : Byte) : chipWriteByte k a v s = s.setChip k (c.poke a v) := by
  simp [chipWriteByte, hk, ha]

/-- A direct byte write, in range or not, changes no capacity. -/
@[simp] theorem chipCapacity_chipWriteByte (j k a : Nat) (v : Byte) (s : State) :
    chipCapacity j (chipWriteByte k a v s) = chipCapacity j s := by
  rcases chipWriteByte_cases k a v s with ⟨c, hk, -, hwrite⟩ | ⟨-, hwrite⟩
  · by_cases hj : k = j
    · subst hj
      rw [hwrite, chipCapacity_of_some (State.setChip_getElem?_self hk _), chipCapacity_of_some hk, Chip.poke_capacity]
    · simp [hwrite, chipCapacity, List.getElem?_set_ne hj]
  · rw [hwrite]
    rfl

/-- A direct byte write, in range or not, keeps the storage of every chip canonical. -/
theorem State.memoryOk.chipWriteByte {s : State} (hok : s.memoryOk) (k a : Nat) (v : Byte) :
    (chipWriteByte k a v s).memoryOk := by
  rcases chipWriteByte_cases k a v s with ⟨c, hk, ha, hwrite⟩ | ⟨-, hwrite⟩
  · rw [hwrite]
    intro d hd
    rcases List.mem_or_eq_of_mem_set hd with hold | rfl
    · exact hok d hold
    · exact Chip.wf_poke (hok c (List.mem_of_getElem? hk)) v ha
  · rw [hwrite]
    exact hok

/-- A direct byte write in range appends no event (R141). -/
theorem chipWriteByte_diag {s : State} {k a : Nat} (ha : a < chipCapacity k s) (v : Byte) :
    (chipWriteByte k a v s).diag = s.diag := by
  obtain ⟨c, hk, hlt⟩ := exists_chip_of_lt ha
  simp [chipWriteByte_of_lt hk hlt]

/-- A direct byte write in range is read back, and every other byte of every chip reads as before (R140, R141). -/
theorem chipByte_chipWriteByte {s : State} (hok : s.memoryOk) {k a : Nat} (ha : a < chipCapacity k s) (v : Byte)
    (j b : Nat) : chipByte j b (chipWriteByte k a v s) = if j = k ∧ b = a then v else chipByte j b s := by
  obtain ⟨c, hk, hlt⟩ := exists_chip_of_lt ha
  rw [chipWriteByte_of_lt hk hlt]
  by_cases hj : k = j
  · subst hj
    have hnew := State.setChip_getElem?_self hk (c.poke a v)
    have hpeek := Chip.peek_poke (hok c (List.mem_of_getElem? hk)) a b v
    simp only [chipByte, hk, hnew, hpeek, Chip.poke_capacity]
    by_cases hb : b = a
    · simp [hb, hlt]
    · simp [hb]
  · have hother : ¬ (j = k ∧ b = a) := fun h => hj h.1.symm
    simp [chipByte, List.getElem?_set_ne hj, hother]

/-- A word read in range is the two bytes at `a` and `a + 1`, the low one first (R63, R143). -/
theorem chipWord_of_lt {s : State} {k a : Nat} (ha : a + 1 < chipCapacity k s) :
    chipWord k a s = wordOfBytes (chipByte k a s) (chipByte k (a + 1) s) := by
  obtain ⟨c, hk, hlt⟩ := exists_chip_of_lt ha
  rw [chipByte_of_lt hk (Nat.lt_of_succ_lt hlt), chipByte_of_lt hk hlt]
  simp [chipWord, hk, hlt]

/-- A word read in range changes nothing (R143). -/
theorem chipReadWord_of_lt {s : State} {k a : Nat} (ha : a + 1 < chipCapacity k s) : (chipReadWord k a s).2 = s := by
  obtain ⟨c, hk, hlt⟩ := exists_chip_of_lt ha
  simp [chipReadWord, hk, hlt]

/-- A word write in range is the byte write of its low byte and then that of its high byte (R63, R144). -/
theorem chipWriteWord_of_lt {s : State} {k a : Nat} (ha : a + 1 < chipCapacity k s) (w : Addr) :
    chipWriteWord k a w s = chipWriteByte k (a + 1) (highByte w) (chipWriteByte k a (lowByte w) s) := by
  obtain ⟨c, hk, hlt⟩ := exists_chip_of_lt ha
  have hmid := State.setChip_getElem?_self hk (c.poke a (lowByte w))
  rw [chipWriteByte_of_lt hk (Nat.lt_of_succ_lt hlt), chipWriteByte_of_lt hmid hlt]
  simp [chipWriteWord, hk, hlt, State.setChip]

section
variable {s : State} {k a : Nat} (hok : s.memoryOk) (ha : a + 1 < chipCapacity k s)
include hok ha

/-- Two byte writes to neighbouring addresses change those two bytes and no other. -/
theorem chipByte_two_writes (l h : Byte) (j b : Nat) :
    chipByte j b (chipWriteByte k (a + 1) h (chipWriteByte k a l s)) =
      if j = k ∧ b = a then l else if j = k ∧ b = a + 1 then h else chipByte j b s := by
  rw [chipByte_chipWriteByte (hok.chipWriteByte k a l) (by simpa using ha),
    chipByte_chipWriteByte hok (Nat.lt_of_succ_lt ha)]
  by_cases hlow : j = k ∧ b = a
  · simp [hlow]
  · simp [hlow]

/-- The word read after two byte writes is those two bytes (R63). -/
theorem chipWord_two_writes (l h : Byte) :
    chipWord k a (chipWriteByte k (a + 1) h (chipWriteByte k a l s)) = wordOfBytes l h := by
  rw [chipWord_of_lt (by simpa using ha), chipByte_two_writes hok ha, chipByte_two_writes hok ha]
  simp

end

/-- Settles O42: a word write is two byte writes (`chipWriteWord_of_lt`), so its clauses are those of the byte accesses. -/
theorem directWordAccess : Obligations.DirectWordAccess := by
  intro k a c w s hok hk hlt
  have ha : a + 1 < chipCapacity k s := chipCapacity_of_some hk ▸ hlt
  have hlow : a < chipCapacity k s := Nat.lt_of_succ_lt ha
  refine ⟨chipWord_of_lt ha, chipReadWord_of_lt ha, ?readBack, ?diag, chipWord_two_writes hok ha, ?bytes⟩
  case readBack =>
    rw [chipWriteWord_of_lt ha, chipWord_two_writes hok ha, wordOfBytes_low_high]
  case diag =>
    rw [chipWriteWord_of_lt ha, chipWriteByte_diag (by simpa using ha), chipWriteByte_diag hlow]
  case bytes =>
    rw [chipWriteWord_of_lt ha]
    exact chipByte_two_writes hok ha (lowByte w) (highByte w)

end Sys2Proof.Machine
end

section
/-! PROOFS. Bus arbitration and the pin read (spec/40_bus_arbiter.md R102, R106, R107, R113). -/

namespace Sys2Proof.Machine

/-! ### A release (R106, R107) -/

theorem busFree_iff {s : State} : busFree s = true ↔ s.bus.owner = none := by
  simp [busFree]

/-- A release by the holder clears the owner (R106). -/
theorem releaseBus_of_owner {id : ComponentId} {s : State} (h : s.bus.owner = some id) :
    releaseBus id s = { s with bus := { s.bus with owner := none } } := by
  simp [releaseBus, State.mapBus, h]

/-- A release by anyone else is a no-op (R107). -/
theorem releaseBus_of_not_owner {id : ComponentId} {s : State} (h : s.bus.owner ≠ some id) : releaseBus id s = s := by
  simp [releaseBus, State.mapBus, h]

theorem busFree_releaseBus {id : ComponentId} {s : State} (h : s.bus.owner = some id) :
    busFree (releaseBus id s) = true := by
  rw [busFree_iff, releaseBus_of_owner h]

@[simp] theorem releaseBus_hostPhase (id : ComponentId) (s : State) : (releaseBus id s).hostPhase = s.hostPhase := rfl

@[simp] theorem releaseBus_chips (id : ComponentId) (s : State) : (releaseBus id s).chips = s.chips := rfl

/-! ### The grant steps while the bus is free (R102) -/

section
variable {s : State} (hfree : busFree s = true)
include hfree

theorem absGrant_isSome_of_free : (absGrant s).isSome = true := by
  simp [absGrant, hfree]

theorem rstGrant_isSome_of_free : (rstGrant s).isSome = true := by
  simp [rstGrant, hfree]

theorem hostGrantStep_isSome_of_free (hwait : s.hostPhase = .wait) : (hostGrantStep s).isSome = true := by
  simp [hostGrantStep, hwait, hfree]

theorem chipStep_isSome_of_free {k : Nat} {c : Chip} (hk : s.chips[k]? = some c) (hwait : c.phase = .wait) :
    (chipStep k s).isSome = true := by
  simp [chipStep, chipPhaseStep, hk, hwait, hfree]

end

/-- Settles O31: the holder's release leaves the bus free, and each waiting requester's grant step is enabled while it is. -/
theorem onlyTheHolderReleasesTheBus : Obligations.OnlyTheHolderReleasesTheBus := by
  intro id s
  constructor
  · intro howner
    have hfree := busFree_releaseBus howner
    exact ⟨releaseBus_of_owner howner, absGrant_isSome_of_free hfree, rstGrant_isSome_of_free hfree,
      fun hwait => hostGrantStep_isSome_of_free hfree (by simpa using hwait),
      fun k c hk hwait => chipStep_isSome_of_free hfree (by simpa using hk) hwait⟩
  · exact releaseBus_of_not_owner

/-! ### The pin read (R113) -/

section
variable {i : Nat} {s : State} (hi : i < s.cfg.busWidth)
include hi

theorem getPin_of_lt : getPin i s = s := by
  simp [getPin, hi]

theorem hostReply_getPin_of_lt : hostReply (.getPin i) s = .bool (pinAt i s.bus.pins) := by
  simp [hostReply, hi]

end

/-- Settles O35: the step is `getPin`, which below the bus width is the identity (`getPin_of_lt`). -/
theorem getPinReadsThePin : Obligations.GetPinReadsThePin := by
  intro i s hfault hi
  have hstep : eventStep (.host (.getPin i)) s = some (.next s) :=
    calc eventStep (.host (.getPin i)) s
      _ = agentStep (.host (.getPin i)) s := eventStep_of_no_fault hfault
      _ = some (.next (getPin i s)) := rfl
      _ = some (.next s) := by rw [getPin_of_lt hi]
  exact ⟨hstep, hostReply_getPin_of_lt hi⟩

end Sys2Proof.Machine
end

section
/-! PROOFS. The address decoder (spec/42_address_decoder.md R160–R169): routing as a search of the mappings, and a decoder access
as a function of the mappings and the chips. -/

namespace Sys2Proof.Machine

/-! ### Routing (R160, R161, R166) -/

theorem mappingContains_iff {m : Mapping} {addr : Addr} :
    mappingContains m addr = true ↔ m.first.toNat ≤ addr.toNat ∧ addr.toNat ≤ m.last.toNat := by
  simp [mappingContains]

/-- The route is read off the first mapping, in insertion order, that contains the address (R161). -/
theorem route_eq_map_find? (addr : Addr) (ms : List Mapping) :
    route ms addr =
      (ms.find? (mappingContains · addr)).map fun m => (m.chip, addr.toNat - m.first.toNat) := by
  induction ms with
  | nil => rfl
  | cons m rest ih => cases hm : mappingContains m addr <;> simp [route, hm, ih]

/-- A routed address is in a mapping of its chip whose start, added to the local address, gives it back without wrap (R161, R169). -/
theorem exists_mapping_of_route {ms : List Mapping} {addr : Addr} {k a : Nat} (h : route ms addr = some (k, a)) :
    ∃ m ∈ ms, m.chip = k ∧ m.first.toNat + a = addr.toNat := by
  rw [route_eq_map_find?, Option.map_eq_some_iff] at h
  obtain ⟨m, hfind, hka⟩ := h
  obtain ⟨hchip, rfl⟩ := Prod.mk.inj hka
  have hcontains : mappingContains m addr = true := List.find?_some (p := (mappingContains · addr)) hfind
  exact ⟨m, List.mem_of_find?_eq_some hfind, hchip, Nat.add_sub_of_le (mappingContains_iff.mp hcontains).1⟩

/-- Settles O46: the route is a `find?` over the mappings (`route_eq_map_find?`), which gives the first match or none. -/
theorem routingTakesTheFirstMatch : Obligations.RoutingTakesTheFirstMatch := by
  intro ms addr
  simp only [route_eq_map_find?, ← mappingContains_iff]
  constructor
  · intro pre post m hms hpre hfirst hlast
    have hfind : ms.find? (mappingContains · addr) = some m :=
      List.find?_eq_some_iff_append.mpr
        ⟨mappingContains_iff.mpr ⟨hfirst, hlast⟩, pre, post, hms, by simpa using hpre⟩
    exact ⟨by rw [hfind, Option.map_some], Nat.sub_le_sub_right hlast _⟩
  · rw [Option.map_eq_none_iff, List.find?_eq_none]

/-! ### What a decoder write changes, and what it depends on (R164, R165, R169) -/

/-- A decoder write changes nothing but the chips and the access's event. -/
theorem memWrite_eq (addr : Addr) (v : Byte) (s : State) :
    memWrite addr v s =
      { s with chips := (memWrite addr v s).chips, diag := s.diag ++ accessEvents .write addr s } := by
  rcases memWrite_cases addr v s with
    ⟨k, a, c, hroute, hk, ha, hwrite⟩ | ⟨k, a, hroute, ha, hwrite⟩ | ⟨hroute, hwrite⟩
  · have hin : a < chipCapacity k s := chipCapacity_of_some hk ▸ ha
    simp [hwrite, accessEvents, hroute, directEvents, hin, State.setChip]
  · simp [hwrite, accessEvents, hroute, directEvents, ha, logOutOfRange, State.log]
  · simp [hwrite, accessEvents, hroute, unmappedSeverity, State.log]

/-- The chips after a direct byte write depend on the chips alone. -/
theorem chipWriteByte_chips_congr {s t : State} (hchips : t.chips = s.chips) (k a : Nat) (v : Byte) :
    (chipWriteByte k a v t).chips = (chipWriteByte k a v s).chips := by
  unfold chipWriteByte
  rw [hchips]
  cases s.chips[k]? with
  | none => exact hchips
  | some c => by_cases ha : a < c.capacity <;> simp [ha, hchips, logOutOfRange]

section
variable {s t : State} (hcfg : t.cfg = s.cfg) (hchips : t.chips = s.chips)
include hcfg hchips

/-- The answer of a decoder read depends on the configuration and the chips alone. -/
theorem memRead_answer_congr (addr : Addr) : (memRead addr t).1 = (memRead addr s).1 := by
  simp only [memRead_eq, memByte_congr hcfg hchips, State.routeOf_congr hcfg]

/-- The chips after a decoder write depend on the configuration and the chips alone. -/
theorem memWrite_chips_congr (addr : Addr) (v : Byte) : (memWrite addr v t).chips = (memWrite addr v s).chips := by
  unfold memWrite
  rw [State.routeOf_congr hcfg]
  cases s.routeOf addr with
  | none => exact hchips
  | some ka => exact chipWriteByte_chips_congr hchips ka.1 ka.2 v

end

/-- A decoder read commutes with any change of the bus. -/
theorem memRead_setBus (addr : Addr) (b : Bus) (s : State) :
    memRead addr { s with bus := b } = ((memRead addr s).1, { (memRead addr s).2 with bus := b }) := by
  have hanswer := memRead_answer_congr (s := s) (t := { s with bus := b }) rfl rfl addr
  have hevents := accessEvents_congr (s := s) (t := { s with bus := b }) rfl rfl .read addr
  refine Prod.ext hanswer ?_
  simp only [memRead_eq, hevents]

/-- A decoder write commutes with any change of the bus. -/
theorem memWrite_setBus (addr : Addr) (v : Byte) (b : Bus) (s : State) :
    memWrite addr v { s with bus := b } = { memWrite addr v s with bus := b } := by
  have hchips := memWrite_chips_congr (s := s) (t := { s with bus := b }) rfl rfl addr v
  have hevents := accessEvents_congr (s := s) (t := { s with bus := b }) rfl rfl .write addr
  rw [memWrite_eq addr v { s with bus := b }, memWrite_eq addr v s, hchips, hevents]

/-- Settles O48: both accesses change only chips and events (`memRead_eq`, `memWrite_eq`), and both of these are functions of
the configuration and the chips (the `_congr` lemmas). -/
theorem decoderUsesNoBus : Obligations.DecoderUsesNoBus := by
  intro addr v s
  refine ⟨?readBus, ?writeBus, fun b => ⟨memRead_setBus addr b s, memWrite_setBus addr v b s⟩,
    fun t hcfg hchips => ⟨memRead_answer_congr hcfg hchips addr, memWrite_chips_congr hcfg hchips addr v⟩,
    fun k a hroute => exists_mapping_of_route hroute⟩
  case readBus => rw [memRead_eq]
  case writeBus => rw [memWrite_eq]

end Sys2Proof.Machine
end

section
/-! PROOFS. The sequencer (spec/44_cpu_sequencer.md R200, R219, R223): what another agent's event leaves of the CPU, `PowerOff`, and
`WAIT_LO`. -/

namespace Sys2Proof.Machine

/-! ### The events of the other agents (R200, R201, R223) -/

theorem answers_eq_some_next {o : Option State} {t : State} (h : answers o = some (.next t)) : o = some t := by
  obtain ⟨u, ho, hu⟩ := answers_eq_some h
  cases hu
  exact ho

/-- `power_on` writes the execution state, and only where it is `PowerOff` (R201). -/
theorem powerOn_cpu (s : State) :
    (powerOn s).cpu =
      { s.cpu with state := if s.cpu.state = .powerOff then .powerOn else s.cpu.state } := by
  by_cases hoff : s.cpu.state = .powerOff <;> simp [powerOn, hoff]

/-- What an event of another agent does to the CPU: nothing, but for the three host actions that are about the CPU (R13, R201,
R222). -/
theorem eventStep_cpu_cases {e : Event} {s t : State} (h : eventStep e s = some (.next t))
    (hcpu : e ≠ .cpu) (htimeout : e ≠ .cpuTimeout) (hspan : e ≠ .cpuSpan) :
    t.cpu = s.cpu ∨
    (∃ p, e = .host (.driveCpu p) ∧ t.cpu = s.cpu.drive p) ∨
    (e = .host .powerOn ∧
      t.cpu = { s.cpu with state := if s.cpu.state = .powerOff then .powerOn else s.cpu.state }) ∨
    (e = .host (.stop .cpu) ∧ t.cpu = { s.cpu with alive := false }) := by
  obtain ⟨-, h⟩ := eventStep_some h
  cases e with
  | cpu => exact absurd rfl hcpu
  | cpuTimeout => exact absurd rfl htimeout
  | cpuSpan => exact absurd rfl hspan
  | chip k => exact .inl (chipStep_cpu (answers_eq_some_next h))
  | chipTimeout k =>
    obtain ⟨c, -, -, rfl⟩ := chipTimeoutStep_cases (answers_eq_some_next h)
    exact .inl rfl
  | clock =>
    obtain ⟨-, -, -, rfl⟩ := clockAgentStep_cases (answers_eq_some_next h)
    exact .inl rfl
  | hostGrant =>
    obtain ⟨-, -, rfl⟩ := hostGrantStep_cases (answers_eq_some_next h)
    exact .inl rfl
  | hostTimeout =>
    obtain ⟨-, rfl⟩ := hostTimeoutStep_cases (answers_eq_some_next h)
    exact .inl rfl
  | host act =>
    obtain hsame | ⟨p, rfl, rfl⟩ | ⟨rfl, rfl⟩ | ⟨rfl, rfl⟩ := hostStep_cpu (answers_eq_some_next h)
    · exact .inl hsame
    · exact .inr (.inl ⟨p, rfl, rfl⟩)
    · exact .inr (.inr (.inl ⟨rfl, powerOn_cpu s⟩))
    · exact .inr (.inr (.inr ⟨rfl, rfl⟩))

/-- An inspection is a step that changes nothing (R223). -/
theorem eventStep_inspect {s : State} (hfault : s.fault = none) (q : Query) :
    eventStep (.host (.inspect q)) s = some (.next s) := by
  rw [eventStep_of_no_fault hfault]
  rfl

/-- Settles O52: an event of another agent writes at most the input pins, the execution state and the run flag of the CPU
(`eventStep_cpu_cases`); an inspection is the identity, and each accessor is its own field. -/
theorem cpuRegistersAreWrittenOnlyByTheCpu : Obligations.CpuRegistersAreWrittenOnlyByTheCpu := by
  refine ⟨?registers, fun q s hfault => eventStep_inspect hfault q, ?accessors⟩
  case registers =>
    intro e s t h hcpu htimeout hspan
    obtain hsame | ⟨p, -, hdrive⟩ | ⟨-, hpower⟩ | ⟨-, hstop⟩ := eventStep_cpu_cases h hcpu htimeout hspan
    · simp [hsame]
    · simp [hdrive, Cpu.drive]
    · simp [hpower]
    · simp [hstop]
  case accessors =>
    intro s
    simp [inspect]

/-! ### `PowerOff` (R200) -/

section
variable {s : State} (hoff : s.cpu.state = .powerOff)
include hoff

theorem cpuStep_of_powerOff : cpuStep s = none := by
  simp [cpuStep, hoff]

theorem cpuTimeoutStep_of_powerOff : cpuTimeoutStep s = none := by
  simp [cpuTimeoutStep, switchedOn, hoff]

theorem cpuSpanStep_of_powerOff : cpuSpanStep s = none := by
  simp [cpuSpanStep, powerOnReady, dispatchStart, hoff]

/-- In `PowerOff` an event that answers a state is not the CPU's, in any of its three forms. -/
theorem event_ne_cpu_of_powerOff {e : Event} {r : Result} (h : eventStep e s = some r) :
    e ≠ .cpu ∧ e ≠ .cpuTimeout ∧ e ≠ .cpuSpan := by
  obtain ⟨-, h⟩ := eventStep_some h
  refine ⟨?cpu, ?timeout, ?span⟩ <;> rintro rfl
  case cpu => exact Option.some_ne_none r (h.symm.trans (cpuStep_of_powerOff hoff))
  case timeout => exact Option.some_ne_none r (h.symm.trans (cpuTimeoutStep_of_powerOff hoff))
  case span => exact Option.some_ne_none r (h.symm.trans (cpuSpanStep_of_powerOff hoff))

end

/-- Settles O18: in `PowerOff` the CPU has none of its three events, and of the other agents' events only `power_on` writes the
execution state (`eventStep_cpu_cases`). -/
theorem powerOffIsLeftOnlyByPowerOn : Obligations.PowerOffIsLeftOnlyByPowerOn := by
  refine ⟨fun s hoff => ⟨cpuStep_of_powerOff hoff, cpuTimeoutStep_of_powerOff hoff, cpuSpanStep_of_powerOff hoff⟩,
    ?left, fun c draw => rfl⟩
  case left =>
    intro e s t hoff h hleft
    obtain ⟨hcpu, htimeout, hspan⟩ := event_ne_cpu_of_powerOff hoff h
    obtain hsame | ⟨p, -, hdrive⟩ | ⟨he, -⟩ | ⟨-, hstop⟩ := eventStep_cpu_cases h hcpu htimeout hspan
    · exact absurd (hsame ▸ hoff) hleft
    · exact absurd (hdrive ▸ hoff) hleft
    · exact he
    · exact absurd (hstop ▸ hoff) hleft

/-! ### `WAIT_LO` (R219) -/

section
variable {s : State}

theorem cpuStep_of_running_or_halted (hon : s.cpu.state = .running ∨ s.cpu.state = .halted) :
    cpuStep s = phaseStep s := by
  rcases hon with hrun | hhalt
  · simp [cpuStep, hrun]
  · simp [cpuStep, hhalt]

variable (hseq : s.cpu.seq = .waitLo) (hon : s.cpu.state = .running ∨ s.cpu.state = .halted)
include hseq hon

/-- In `Running` and `Halted` the step of `WAIT_LO` waits for the low clock and then only moves the sequencer. -/
theorem cpuStep_of_waitLo :
    cpuStep s = if s.clock.clkPin = false then some (.next (s.goto .waitHi)) else none := by
  rw [cpuStep_of_running_or_halted hon]
  by_cases hlow : s.clock.clkPin = false <;> simp [phaseStep, hseq, waitLoStep, answers, hlow, hon]

end

/-- Settles O22: the step of `WAIT_LO` is `cpuStep_of_waitLo`, in the state and in the state with the clock toggled. -/
theorem waitLoPassesAtALowClock : Obligations.WaitLoPassesAtALowClock := by
  intro s hseq hon
  constructor
  · intro hlow
    rw [cpuStep_of_waitLo hseq hon, if_pos hlow]
    rfl
  · intro hhigh
    have htoggled : (toggleClock s).clock.clkPin = false := by simp [toggleClock, hhigh]
    constructor
    · simp [cpuStep_of_waitLo hseq hon, hhigh]
    · rw [cpuStep_of_waitLo (s := toggleClock s) hseq hon, if_pos htoggled]
      rfl

end Sys2Proof.Machine
end

section
/-! PROOFS. Encoding and decoding (spec/30_encoding.md R83–R88): the opcode map read from the mnemonic to the byte and back, and the
operand bytes of a format. -/

namespace Sys2Proof

/-! ### The rows of the opcode map (R87) -/

/-- The format of a mnemonic (R87, column "format"): that of its instruction, whatever the operand. -/
def Mnemonic.format (m : Mnemonic) : Format := (m.withOperands 0 0).format

@[simp] theorem Mnemonic.format_withOperands (m : Mnemonic) (b1 b2 : Byte) :
    (m.withOperands b1 b2).format = m.format := by
  cases m <;> rfl

@[simp] theorem Mnemonic.mnemonic_withOperands (m : Mnemonic) (b1 b2 : Byte) :
    (m.withOperands b1 b2).mnemonic = m := by
  cases m <;> rfl

@[simp] theorem Instr.format_mnemonic (i : Instr) : i.mnemonic.format = i.format := by
  cases i <;> rfl

/-- The map has a row for the opcode of every mnemonic, with its format. -/
theorem opcodeRow_opcode (m : Mnemonic) : opcodeRow m.opcode = some ⟨m.opcode, m, m.format⟩ := by
  cases m <;> decide

/-- Every row of the map holds the opcode and the format of its mnemonic. -/
theorem opcodeMap_consistent :
    ∀ row ∈ opcodeMap, row.opcode = row.mnemonic.opcode ∧ row.format = row.mnemonic.format := by
  decide

/-- An opcode byte has a row exactly as the opcode of the row's mnemonic. -/
theorem opcodeRow_eq_some {op : Byte} {row : OpcodeRow} (h : opcodeRow op = some row) :
    op = row.mnemonic.opcode ∧ row.format = row.mnemonic.format := by
  obtain ⟨hmem, rfl⟩ := opcodeRow_some h
  exact opcodeMap_consistent row hmem

/-! ### The operand bytes (R83–R85) -/

/-- The operand bytes a format takes, given the two latches (R83). -/
def Format.operandBytes (f : Format) (b1 b2 : Byte) : List Byte :=
  match f with
  | .imp => []
  | .imm => [b1]
  | .abs => [b1, b2]

/-- An instruction made from operand bytes stores those its format has. -/
theorem operandBytes_withOperands (m : Mnemonic) (b1 b2 : Byte) :
    (m.withOperands b1 b2).operandBytes = m.format.operandBytes b1 b2 := by
  cases m <;> simp [Mnemonic.withOperands, Instr.operandBytes, Mnemonic.format, Instr.format, Format.operandBytes]

/-- The operand bytes an instruction stores give it back, whatever bytes follow. -/
theorem decodeOperands_operandBytes (op : Byte) (i : Instr) (rest : List Byte) :
    decodeOperands op i.mnemonic i.format (i.operandBytes ++ rest) = .instr i rest := by
  cases i <;>
    simp [decodeOperands, Instr.mnemonic, Instr.format, Instr.operandBytes, Mnemonic.withOperands]

/-- What the operand decoder answers as an instruction was made from the bytes of the format before the rest. -/
theorem decodeOperands_eq_instr {op : Byte} {m : Mnemonic} {f : Format} {bytes rest : List Byte} {i : Instr}
    (h : decodeOperands op m f bytes = .instr i rest) :
    ∃ b1 b2, i = m.withOperands b1 b2 ∧ bytes = f.operandBytes b1 b2 ++ rest := by
  match f, bytes with
  | .imp, bytes => cases h; exact ⟨0, 0, rfl, rfl⟩
  | .imm, b1 :: bytes => cases h; exact ⟨b1, 0, rfl, rfl⟩
  | .abs, b1 :: b2 :: bytes => cases h; exact ⟨b1, b2, rfl, rfl⟩

/-- The operand decoder's errors are missing operands: it never finds the opcode unimplemented. -/
theorem decodeOperands_ne_unimplemented (op op' : Byte) (m : Mnemonic) (f : Format) (bytes : List Byte) :
    decodeOperands op m f bytes ≠ .error (.unimplementedOpcode op') := by
  unfold decodeOperands
  split <;> simp

/-! ### The round trips -/

/-- Settles O1: the opcode finds its row (`opcodeRow_opcode`), and the operand bytes give the operand back
(`decodeOperands_operandBytes`). -/
theorem decodeOfEncodeIsTheInstruction : Obligations.DecodeOfEncodeIsTheInstruction := by
  intro i rest _
  simp only [encode, List.cons_append, decode, opcodeRow_opcode, Instr.format_mnemonic]
  exact decodeOperands_operandBytes _ i rest

/-- The encoding of an instruction has the length of its format (R86). -/
theorem encode_length (i : Instr) : (encode i).length = i.length := by
  cases i <;> rfl

/-- Settles O2: the row found has the opcode of its mnemonic (`opcodeRow_eq_some`), and the operands were taken from the
bytes the encoder writes (`decodeOperands_eq_instr`). -/
theorem encodeOfDecodeIsTheBytes : Obligations.EncodeOfDecodeIsTheBytes := by
  intro bytes rest i h
  refine ⟨?_, encode_length i⟩
  unfold decode at h
  split at h
  · cases h
  · next op tail =>
    split at h
    · cases h
    · next row hrow =>
      obtain ⟨rfl, hformat⟩ := opcodeRow_eq_some hrow
      obtain ⟨b1, b2, rfl, rfl⟩ := decodeOperands_eq_instr h
      simp [encode, operandBytes_withOperands, hformat]

/-! ### Unimplemented opcodes (R88) -/

/-- A byte has no row exactly if it is not one of the opcodes of the map. -/
theorem opcodeRow_eq_none_iff {op : Byte} : opcodeRow op = none ↔ op ∉ opcodeMap.map OpcodeRow.opcode := by
  simp only [opcodeRow, List.find?_eq_none, beq_iff_eq, List.mem_map, not_exists, not_and]

/-- The decoder finds the opcode unimplemented exactly if it has no row. -/
theorem decode_eq_unimplemented_iff (op : Byte) (rest : List Byte) :
    decode (op :: rest) = .error (.unimplementedOpcode op) ↔ opcodeRow op = none := by
  cases hrow : opcodeRow op with
  | none => simp [decode, hrow]
  | some row => simpa [decode, hrow] using decodeOperands_ne_unimplemented op op row.mnemonic row.format rest

/-- Settles O4: the five words run through the decoder. -/
theorem wordsOfTheOpcodeTableDecode : Obligations.WordsOfTheOpcodeTableDecode := by
  unfold Obligations.WordsOfTheOpcodeTableDecode
  decide

end Sys2Proof
end

section
/-! PROOFS. Storage and its accesses from outside the CPU (spec/10_state.md R24, spec/41_chip_protocol.md R140–R144,
spec/42_address_decoder.md R162–R167): out of range, past the end, and as steps of the host. -/

namespace Sys2Proof.Machine

/-! ### Canonical storage (R24) -/

/-- A storage with an entry is not read like one that starts above it: its first entry is no fill. -/
theorem Memory.read_first_ne {fill : Byte} {cap lo k : Nat} {v : Byte} {t m : Memory}
    (h : Memory.wfFrom fill cap lo ((k, v) :: t) = true) (hm : Memory.wfFrom fill cap (k + 1) m = true) :
    Memory.read fill ((k, v) :: t) k ≠ Memory.read fill m k := by
  simp only [Memory.wfFrom, Bool.and_eq_true, bne_iff_ne] at h
  rw [Memory.read_of_lt _ _ _ _ _ hm (Nat.lt_succ_self k)]
  simpa [Memory.read] using h.1.2

/-- Canonical storages that read the same are equal: their first entries have the least address that does not read as the fill. -/
theorem Memory.eq_of_read_eq (fill : Byte) (cap : Nat) :
    ∀ (m m' : Memory) (lo : Nat), Memory.wfFrom fill cap lo m = true → Memory.wfFrom fill cap lo m' = true →
      (∀ a, Memory.read fill m a = Memory.read fill m' a) → m = m'
  | [], [], _, _, _, _ => rfl
  | [], (k, v) :: t, lo, _, h', hread =>
    absurd (hread k).symm (Memory.read_first_ne h' (m := []) rfl)
  | (k, v) :: t, [], lo, h, _, hread =>
    absurd (hread k) (Memory.read_first_ne h (m := []) rfl)
  | (k, v) :: t, (k', v') :: t', lo, h, h', hread => by
    have hcons := h
    have hcons' := h'
    simp only [Memory.wfFrom, Bool.and_eq_true, decide_eq_true_eq, bne_iff_ne] at h h'
    obtain ⟨⟨⟨hlo, hcap⟩, hv⟩, ht⟩ := h
    obtain ⟨⟨⟨hlo', hcap'⟩, hv'⟩, ht'⟩ := h'
    obtain hlt | rfl | hgt := Nat.lt_trichotomy k k'
    · exact absurd (hread k) (Memory.read_first_ne hcons (by simp [Memory.wfFrom, hcap', hv', ht']; omega))
    · have hvalue : v = v' := by simpa [Memory.read] using hread k
      have htail : t = t' := by
        refine Memory.eq_of_read_eq fill cap t t' (k + 1) ht ht' fun a => ?_
        by_cases ha : k = a
        · subst ha
          rw [Memory.read_of_lt _ _ _ _ _ ht (Nat.lt_succ_self k),
            Memory.read_of_lt _ _ _ _ _ ht' (Nat.lt_succ_self k)]
        · simpa [Memory.read, ha] using hread a
      rw [hvalue, htail]
    · exact absurd (hread k').symm (Memory.read_first_ne hcons' (by simp [Memory.wfFrom, hcap, hv, ht]; omega))

/-- Settles O45: an induction along the two lists (`Memory.eq_of_read_eq`). -/
theorem canonicalStorageIsUnique : Obligations.CanonicalStorageIsUnique := by
  intro fill cap m m' h h' hread
  exact Memory.eq_of_read_eq fill cap m m' 0 h h' hread

/-! ### Direct accesses out of range (R140–R144) -/

theorem logOutOfRange_eq (k a : Nat) (s : State) :
    logOutOfRange k a s = { s with diag := s.diag ++ [⟨.warning, .outOfRange k a⟩] } := rfl

theorem directEvents_of_lt {size k a : Nat} {s : State} (h : a + (size - 1) < chipCapacity k s) :
    directEvents size k a s = [] := by
  simp [directEvents, h]

theorem directEvents_of_le {size k a : Nat} {s : State} (h : chipCapacity k s ≤ a + (size - 1)) :
    directEvents size k a s = [⟨.warning, .outOfRange k a⟩] := by
  simp [directEvents, Nat.not_lt.mpr h]

section
variable {s : State} {k a : Nat}

/-- From the capacity up, or past `NCHIPS`, a byte reads as the sentinel (R142). -/
theorem chipByte_of_le (ha : chipCapacity k s ≤ a) : chipByte k a s = 0xFF := by
  unfold chipByte
  cases hk : s.chips[k]? with
  | none => rfl
  | some c => simp [Nat.not_lt.mpr (chipCapacity_of_some hk ▸ ha)]

/-- A direct byte read in range has no effect (R140). -/
theorem chipReadByte_of_lt (ha : a < chipCapacity k s) : (chipReadByte k a s).2 = s := by
  rw [chipReadByte_eq, directEvents_of_lt (by simpa using ha), List.append_nil]

/-- A direct byte read out of range logs one event (R142). -/
theorem chipReadByte_of_le (ha : chipCapacity k s ≤ a) :
    chipReadByte k a s = (0xFF, { s with diag := s.diag ++ [⟨.warning, .outOfRange k a⟩] }) := by
  rw [chipReadByte_eq, directEvents_of_le (by simpa using ha), chipByte_of_le ha]

/-- A direct byte write out of range logs one event (R142). -/
theorem chipWriteByte_of_le (ha : chipCapacity k s ≤ a) (v : Byte) :
    chipWriteByte k a v s = { s with diag := s.diag ++ [⟨.warning, .outOfRange k a⟩] } := by
  rcases chipWriteByte_cases k a v s with ⟨c, hk, hlt, -⟩ | ⟨-, hwrite⟩
  · exact absurd hlt (Nat.not_lt.mpr (chipCapacity_of_some hk ▸ ha))
  · rw [hwrite, logOutOfRange_eq]

variable {c : Chip} (hk : s.chips[k]? = some c) (ha : c.capacity ≤ a + 1)
include hk ha

/-- A word past the end reads as the sentinel (R143). -/
theorem chipWord_of_le : chipWord k a s = 0xFFFF := by
  simp [chipWord, hk, Nat.not_lt.mpr ha]

/-- A word read past the end logs one event (R143). -/
theorem chipReadWord_of_le : (chipReadWord k a s).2 = { s with diag := s.diag ++ [⟨.warning, .outOfRange k a⟩] } := by
  simp [chipReadWord, hk, Nat.not_lt.mpr ha, logOutOfRange_eq]

/-- A word write past the end writes neither byte and logs one event (R144). -/
theorem chipWriteWord_of_le (w : Addr) :
    chipWriteWord k a w s = { s with diag := s.diag ++ [⟨.warning, .outOfRange k a⟩] } := by
  simp [chipWriteWord, hk, Nat.not_lt.mpr ha, logOutOfRange_eq]

end

/-! ### Accesses as steps of the host (R11) -/

/-- Without a fault, a host action is one step that makes the action's effect. -/
theorem eventStep_host {act : HostAction} {s t : State} (hfault : s.fault = none) (h : hostStep act s = some t) :
    eventStep (.host act) s = some (.next t) := by
  rw [eventStep_of_no_fault hfault]
  simp [agentStep, h, answers]

/-- An action on a chip of the assembly is its effect on that chip. -/
theorem onChip_of_some {k : Nat} {s : State} {c : Chip} (hk : s.chips[k]? = some c) (f : Chip → State) :
    onChip k s f = some (f c) := by
  simp [onChip, hk]

/-- Settles O41: in range the write is `chipByte_chipWriteByte`, out of range each access is its `_of_le` lemma. -/
theorem directByteAccess : Obligations.DirectByteAccess := by
  intro k a c v s hok hk
  rw [← chipCapacity_of_some hk]
  refine ⟨fun ha => ⟨chipReadByte_of_lt ha, chipWriteByte_diag ha v, chipByte_chipWriteByte hok ha v⟩,
    fun ha => ⟨chipByte_of_le ha, by rw [chipReadByte_of_le ha], chipWriteByte_of_le ha v⟩,
    fun hfault => ⟨eventStep_host hfault (onChip_of_some hk _), rfl, eventStep_host hfault (onChip_of_some hk _)⟩⟩

/-- Settles O43: past the end each word access is its `_of_le` lemma. -/
theorem directWordPastTheEnd : Obligations.DirectWordPastTheEnd := by
  intro k a c w s hk
  exact ⟨fun ha => ⟨chipWord_of_le hk ha, chipReadWord_of_le hk ha, chipWriteWord_of_le hk ha w⟩,
    fun hfault => ⟨eventStep_host hfault (onChip_of_some hk _), rfl, eventStep_host hfault (onChip_of_some hk _)⟩⟩

/-! ### Decoder accesses (R162–R167) -/

section
variable {s : State} {addr : Addr} {k a : Nat} (hroute : s.routeOf addr = some (k, a))
include hroute

/-- A decoder read that hits is the routed chip's direct read (R162). -/
theorem memRead_of_hit : memRead addr s = (((chipReadByte k a s).1, true), (chipReadByte k a s).2) := by
  simp [memRead, memByte, hroute, chipReadByte]

/-- A decoder write that hits is the routed chip's direct write (R164). -/
theorem memWrite_of_hit (v : Byte) : memWrite addr v s = chipWriteByte k a v s := by
  simp [memWrite, hroute]

end

section
variable {s : State} {addr : Addr} (hroute : s.routeOf addr = none)
include hroute

/-- An unmapped address reads as the sentinel (R163). -/
theorem memByte_of_miss : memByte addr s = 0xFF := by
  simp [memByte, hroute]

theorem accessEvents_of_miss (dir : Access) :
    accessEvents dir addr s = [⟨unmappedSeverity dir, .unmapped addr dir⟩] := by
  simp [accessEvents, hroute]

/-- A decoder read that misses answers the sentinel and logs one error (R163). -/
theorem memRead_of_miss :
    memRead addr s = ((0xFF, false), { s with diag := s.diag ++ [⟨.error, .unmapped addr .read⟩] }) := by
  rw [memRead_eq, memByte_of_miss hroute, accessEvents_of_miss hroute, hroute]
  rfl

/-- A decoder write that misses logs one warning (R165). -/
theorem memWrite_of_miss (v : Byte) :
    memWrite addr v s = { s with diag := s.diag ++ [⟨.warning, .unmapped addr .write⟩] } := by
  simp [memWrite, hroute, State.log]

end

/-- Settles O47: a hit is the chip's direct access (`memRead_of_hit`, `memWrite_of_hit`), a miss only an event. -/
theorem decoderReadsAndWritesTheRoutedChip : Obligations.DecoderReadsAndWritesTheRoutedChip := by
  intro addr v s
  refine ⟨fun k a hroute => ?hit, fun hroute => ⟨memRead_of_miss hroute, memWrite_of_miss hroute v⟩,
    fun hfault => ⟨eventStep_host hfault rfl, rfl, eventStep_host hfault rfl⟩⟩
  case hit =>
    rw [memRead_of_hit hroute, memWrite_of_hit hroute]
    refine ⟨rfl, rfl, rfl, fun ha => chipReadByte_of_lt ha, fun ha => ⟨?_, chipWriteByte_of_le ha v⟩⟩
    rw [chipReadByte_of_le ha]

end Sys2Proof.Machine
end

section
/-! PROOFS. The pin accessors as steps of the host (spec/40_bus_arbiter.md R108–R115), the pins they keep, and the clock's and the
host's other single actions (spec/43_clock.md R181–R185, spec/00_scope.md R13). -/

namespace Sys2Proof.Machine

/-! ### Views and widths (R7, R80) -/

/-- A well-formed bus has the pins of both views, and no more than 255. -/
theorem Config.busWidth_bounds {c : Config} (h : c.wellFormed = true) : 24 ≤ c.busWidth ∧ c.busWidth ≤ 255 := by
  simp only [Config.wellFormed, Config.widthOk, Bool.and_eq_true, decide_eq_true_eq] at h
  exact h.1.1.1.1

/-- `write_address` keeps every pin from 16 up (R108). -/
theorem pinAt_putAddress_of_le {j : Nat} (hj : 16 ≤ j) (a : Addr) (p : Pins) : pinAt j (putAddress a p) = pinAt j p := by
  rw [pinAt_putAddress, if_neg (Nat.not_lt.mpr hj)]

/-- `write_data` keeps every pin outside 23..16 (R110). -/
theorem pinAt_putData_of_outside {j : Nat} (hj : j < 16 ∨ 24 ≤ j) (d : Byte) (p : Pins) :
    pinAt j (putData d p) = pinAt j p := by
  rw [pinAt_putData, if_neg (by omega)]

theorem pinAt_zero (j : Nat) : pinAt j 0 = false := by
  simp [pinAt]

theorem setPin_of_lt {i : Nat} {s : State} (hi : i < s.cfg.busWidth) (v : Bool) :
    setPin i v s = { s with bus := { s.bus with pins := putPin i v s.bus.pins } } := by
  simp [setPin, hi, State.mapBus]

/-- Settles O34: the bits are those of `pinAt_putAddress`, `pinAt_putData` and `pinAt_putPin`; each accessor is one host step. -/
theorem pinAccessorsWriteOnlyTheirBits : Obligations.PinAccessorsWriteOnlyTheirBits := by
  refine ⟨?address, ?data, ?pin, ?views, ?steps⟩
  case address =>
    exact fun a p => ⟨addressView_putAddress a p, dataView_putAddress a p, fun j hj => pinAt_putAddress_of_le hj a p⟩
  case data =>
    exact fun d p => ⟨dataView_putData d p, addressView_putData d p, fun j hj => pinAt_putData_of_outside hj d p⟩
  case pin =>
    intro i v s hwf hi
    have h255 : i < 255 := Nat.lt_of_lt_of_le hi (Config.busWidth_bounds hwf).2
    exact ⟨setPin_of_lt hi v, fun j => pinAt_putPin i v s.bus.pins j h255⟩
  case views =>
    intro p j
    constructor
    · intro hj
      rw [getLsbD_addressView, decide_eq_true hj, Bool.true_and]
    · intro hj
      rw [getLsbD_dataView, decide_eq_true hj, Bool.true_and]
  case steps =>
    intro s hfault
    exact ⟨fun a => eventStep_host hfault rfl, fun d => eventStep_host hfault rfl,
      fun i v hi => eventStep_host hfault (congrArg some (setPin_of_lt hi v)),
      ⟨eventStep_host hfault rfl, rfl⟩, ⟨eventStep_host hfault rfl, rfl⟩, eventStep_host hfault rfl⟩

/-! ### Single host actions (R13, R116, R130, R222) -/

/-- Settles O53: each action is one host step; on a chip of the assembly it acts on that chip (`onChip_of_some`). -/
theorem hostDrivesPinsAndRunFlags : Obligations.HostDrivesPinsAndRunFlags := by
  intro s hfault
  exact ⟨fun v => eventStep_host hfault rfl, fun p => eventStep_host hfault rfl,
    fun k c p hk => eventStep_host hfault (onChip_of_some hk _), eventStep_host hfault rfl,
    fun k c hk => eventStep_host hfault (onChip_of_some hk _), eventStep_host hfault rfl⟩

end Sys2Proof.Machine
end

section
/-! PROOFS. The CPU's atomic steps, each with its whole next state (spec/44_cpu_sequencer.md R200–R217, spec/45_cpu_load_store.md
R243, R244, spec/70_reset_and_hazards.md R331–R334). -/

namespace Sys2Proof.Machine

/-! ### Steps whose state is written out by their definition (R217, R218, R245–R247, R271–R280, R331) -/

/-- Settles O8: an immediate load is one `EXEC` step, the load of its register. -/
theorem immediateLoadsWriteTheOperand : Obligations.ImmediateLoadsWriteTheOperand :=
  fun _ _ => ⟨rfl, rfl, rfl⟩

/-- Settles O13: each is one `EXEC` step that loads the register with the sum or difference. -/
theorem incrementsAndDecrements : Obligations.IncrementsAndDecrements :=
  fun _ => ⟨rfl, rfl, rfl, rfl⟩

/-- Settles O14: each is one `EXEC` step that loads the destination with the source. -/
theorem transfersMoveTheRegister : Obligations.TransfersMoveTheRegister :=
  fun _ => ⟨rfl, rfl, rfl, rfl⟩

/-- Settles O15: `NOP` is the end of an `EXEC` step and `BRK` is `halt`. -/
theorem noOpAndHalt : Obligations.NoOpAndHalt :=
  fun _ => ⟨rfl, rfl⟩

/-- Settles O26: the reset entry writes these fields of the CPU. -/
theorem resetEntryClearsTheRegisters : Obligations.ResetEntryClearsTheRegisters :=
  fun _ => rfl

/-! ### Fetching (R210–R215) -/

section
variable {s : State}

/-- A fetch from a mapped `PC` (R210). -/
theorem fetch_of_hit (hhit : (s.routeOf s.cpu.pc).isSome = true) :
    fetch s = ((memByte s.cpu.pc s, true),
      { s with cpu := { s.cpu with pc := s.cpu.pc + 1 }, diag := s.diag ++ accessEvents .read s.cpu.pc s }) := by
  simp [fetch, memRead_eq, hhit, State.mapCpu]

/-- A fetch from an unmapped `PC` halts the CPU (R215). -/
theorem fetch_of_miss (hmiss : s.routeOf s.cpu.pc = none) :
    fetch s = ((0xFF, false), { s with
      cpu := { s.cpu with pc := s.cpu.pc + 1, state := .halted, seq := .waitLo }
      diag := s.diag ++ [⟨.error, .unmapped s.cpu.pc .read⟩] }) := by
  simp [fetch, memRead_of_miss hmiss, halt, State.mapCpu]

/-- Settles O19: `fetch_of_hit` and `fetch_of_miss`. -/
theorem fetchReadsAtPcAndAdvancesIt : Obligations.FetchReadsAtPcAndAdvancesIt := by
  intro s
  refine ⟨(fetch_spec s).1, fun hhit => ?_, fun hmiss => ⟨memByte_of_miss hmiss, ?_⟩⟩
  · rw [fetch_of_hit hhit]
  · rw [fetch_of_miss hmiss]

theorem fetchOp_of_miss (hmiss : s.routeOf s.cpu.pc = none) :
    fetchOp s = { s with
      cpu := { s.cpu with pc := s.cpu.pc + 1, op := memByte s.cpu.pc s, state := .halted, seq := .waitLo }
      diag := s.diag ++ [⟨.error, .unmapped s.cpu.pc .read⟩] } := by
  simp [fetchOp, fetch_of_miss hmiss, memByte_of_miss hmiss, State.mapCpu]

theorem fetchB1_of_miss (hmiss : s.routeOf s.cpu.pc = none) :
    fetchB1 s = { s with
      cpu := { s.cpu with pc := s.cpu.pc + 1, b1 := memByte s.cpu.pc s, state := .halted, seq := .waitLo }
      diag := s.diag ++ [⟨.error, .unmapped s.cpu.pc .read⟩] } := by
  simp [fetchB1, fetch_of_miss hmiss, memByte_of_miss hmiss, State.mapCpu]

theorem fetchB2_of_miss (hmiss : s.routeOf s.cpu.pc = none) :
    fetchB2 s = { s with
      cpu := { s.cpu with pc := s.cpu.pc + 1, b2 := memByte s.cpu.pc s, state := .halted, seq := .waitLo }
      diag := s.diag ++ [⟨.error, .unmapped s.cpu.pc .read⟩] } := by
  simp [fetchB2, fetch_of_miss hmiss, memByte_of_miss hmiss, State.mapCpu]

section
variable (hhit : (s.routeOf s.cpu.pc).isSome = true)
include hhit

theorem fetchOp_of_imp (hformat : formatOf (memByte s.cpu.pc s) = some .imp) :
    fetchOp s = { s with
      cpu := { s.cpu with pc := s.cpu.pc + 1, op := memByte s.cpu.pc s, seq := .exec }
      diag := s.diag ++ accessEvents .read s.cpu.pc s } := by
  simp [fetchOp, fetch_of_hit hhit, hformat, State.goto, State.mapCpu]

theorem fetchOp_of_operand
    (hformat : formatOf (memByte s.cpu.pc s) = some .imm ∨ formatOf (memByte s.cpu.pc s) = some .abs) :
    fetchOp s = { s with
      cpu := { s.cpu with pc := s.cpu.pc + 1, op := memByte s.cpu.pc s, seq := .fetchB1 }
      diag := s.diag ++ accessEvents .read s.cpu.pc s } := by
  rcases hformat with himm | habs
  · simp [fetchOp, fetch_of_hit hhit, himm, State.goto, State.mapCpu]
  · simp [fetchOp, fetch_of_hit hhit, habs, State.goto, State.mapCpu]

theorem fetchOp_of_unimplemented (hformat : formatOf (memByte s.cpu.pc s) = none) :
    fetchOp s = { s with
      cpu := { s.cpu with pc := s.cpu.pc + 1, op := memByte s.cpu.pc s, state := .halted, seq := .waitLo }
      diag := s.diag ++ accessEvents .read s.cpu.pc s ++
        [⟨.error, .unimplementedOpcode (memByte s.cpu.pc s) s.cpu.opaddr⟩] } := by
  simp [fetchOp, fetch_of_hit hhit, hformat, unimplemented, halt, State.mapCpu, State.log]

theorem fetchB1_of_imm (hformat : formatOf s.cpu.op = some .imm) :
    fetchB1 s = { s with
      cpu := { s.cpu with pc := s.cpu.pc + 1, b1 := memByte s.cpu.pc s, seq := .exec }
      diag := s.diag ++ accessEvents .read s.cpu.pc s } := by
  simp [fetchB1, fetch_of_hit hhit, hformat, State.goto, State.mapCpu]

theorem fetchB1_of_abs (hformat : formatOf s.cpu.op = some .abs) :
    fetchB1 s = { s with
      cpu := { s.cpu with pc := s.cpu.pc + 1, b1 := memByte s.cpu.pc s, seq := .fetchB2 }
      diag := s.diag ++ accessEvents .read s.cpu.pc s } := by
  simp [fetchB1, fetch_of_hit hhit, hformat, State.goto, State.mapCpu]

theorem fetchB2_of_hit :
    fetchB2 s = { s with
      cpu := { s.cpu with
        pc := s.cpu.pc + 1
        b2 := memByte s.cpu.pc s
        ea := wordOfBytes s.cpu.b1 (memByte s.cpu.pc s)
        seq := .absTry }
      diag := s.diag ++ accessEvents .read s.cpu.pc s } := by
  simp [fetchB2, fetch_of_hit hhit, State.mapCpu]

end

/-! ### A switched-on CPU takes the step of its phase -/

theorem cpuStep_of_switchedOn (hon : switchedOn s = true) : cpuStep s = phaseStep s := by
  cases hstate : s.cpu.state <;> simp_all [cpuStep, switchedOn]

theorem switchedOn_of_running (hrun : s.cpu.state = .running) : switchedOn s = true := by
  simp [switchedOn, hrun]

theorem switchedOn_of_reset (hreset : s.cpu.state = .reset) : switchedOn s = true := by
  simp [switchedOn, hreset]

theorem cpuStep_of_running (hrun : s.cpu.state = .running) : cpuStep s = phaseStep s :=
  cpuStep_of_switchedOn (switchedOn_of_running hrun)

theorem cpuStep_of_reset (hreset : s.cpu.state = .reset) : cpuStep s = phaseStep s :=
  cpuStep_of_switchedOn (switchedOn_of_reset hreset)

theorem cpuTimeoutStep_of_absWait (hon : switchedOn s = true) (hseq : s.cpu.seq = .absWait) :
    cpuTimeoutStep s = some (.next (absTimeout s)) := by
  simp [cpuTimeoutStep, hon, hseq]

theorem cpuTimeoutStep_of_rstWait (hon : switchedOn s = true) (hseq : s.cpu.seq = .rstWait) :
    cpuTimeoutStep s = some (.next (rstTimeout s)) := by
  simp [cpuTimeoutStep, hon, hseq]

end

/-- Settles O20: the step is `fetchOp`, whose cases are the lemmas `fetchOp_of_…`. -/
theorem opcodeFetchDecodes : Obligations.OpcodeFetchDecodes := by
  rintro s hrun hseq _ rfl
  have hstep : cpuStep s = some (.next (fetchOp s)) := by simp [cpuStep_of_running hrun, phaseStep, hseq]
  rw [hstep]
  refine ⟨fun hmiss => by rw [fetchOp_of_miss hmiss], fun hhit => ⟨fun himp => by rw [fetchOp_of_imp hhit himp],
    fun hoperand => by rw [fetchOp_of_operand hhit hoperand], fun hnone => by rw [fetchOp_of_unimplemented hhit hnone]⟩⟩

/-- Settles O21: the steps are `fetchB1` and `fetchB2`, whose cases are the lemmas `fetchB1_of_…` and `fetchB2_of_…`. -/
theorem operandFetchesLatchTheOperand : Obligations.OperandFetchesLatchTheOperand := by
  rintro s hrun _ rfl
  constructor
  · intro hseq
    have hstep : cpuStep s = some (.next (fetchB1 s)) := by simp [cpuStep_of_running hrun, phaseStep, hseq]
    rw [hstep]
    exact ⟨fun hmiss => by rw [fetchB1_of_miss hmiss], fun hhit himm => by rw [fetchB1_of_imm hhit himm],
      fun hhit habs => by rw [fetchB1_of_abs hhit habs]⟩
  · intro hseq
    have hstep : cpuStep s = some (.next (fetchB2 s)) := by simp [cpuStep_of_running hrun, phaseStep, hseq]
    rw [hstep]
    exact ⟨fun hmiss => by rw [fetchB2_of_miss hmiss], fun hhit => by rw [fetchB2_of_hit hhit]⟩

/-- Settles O3: a byte is unimplemented exactly if it has no row (`decode_eq_unimplemented_iff`), and the fetch of one halts
(`fetchOp_of_unimplemented`). -/
theorem opcodesOutsideTheMapAreUnimplemented : Obligations.OpcodesOutsideTheMapAreUnimplemented := by
  refine ⟨fun op rest => ?outside, ?count, fun s hhit hnone => ?halts⟩
  case outside =>
    rw [decode_eq_unimplemented_iff, opcodeRow_eq_none_iff]
    rfl
  case count => decide +kernel
  case halts => rw [fetchOp_of_unimplemented hhit hnone]

/-! ### `power_on` and dispatch (R201–R209) -/

section
variable {s : State}

theorem powerOn_of_powerOff (hoff : s.cpu.state = .powerOff) :
    powerOn s = { s with cpu := { s.cpu with state := .powerOn } } := by
  simp [powerOn, State.mapCpu, hoff]

theorem powerOn_of_not_powerOff (hon : s.cpu.state ≠ .powerOff) : powerOn s = s := by
  simp [powerOn, State.mapCpu, hon]

/-- In `PowerOn` the CPU's step is the reset entry, and there is none if it is stopped (R202, R208). -/
theorem cpuStep_of_powerOn (hon : s.cpu.state = .powerOn) :
    cpuStep s = if s.cpu.alive then some (.next (resetEntry s)) else none := by
  simp [cpuStep, powerOnReady, hon]

theorem cpuSpanStep_of_powerOn (hon : s.cpu.state = .powerOn) :
    cpuSpanStep s = if s.cpu.alive then some (.next (resetSpan s)) else none := by
  by_cases halive : s.cpu.alive = true <;> simp [cpuSpanStep, powerOnReady, dispatchStart, hon, halive]

/-- In `Running` and `Halted` a span is a reset or an instruction, as the dispatch starts it. -/
theorem cpuSpanStep_of_dispatch (hon : s.cpu.state = .running ∨ s.cpu.state = .halted) :
    cpuSpanStep s = (dispatchStart s).map fun start =>
      match start with
      | .reset => .next (resetSpan s)
      | .instruction => runFetched (fetchInstr s) := by
  have hready : powerOnReady s = false := by rcases hon with h | h <;> simp [powerOnReady, h]
  rw [cpuSpanStep, hready]
  cases dispatchStart s with
  | none => rfl
  | some start => cases start <;> rfl

/-- At `WAIT_HI` the CPU's step is the dispatch. -/
theorem cpuStep_of_waitHi (hseq : s.cpu.seq = .waitHi) (hon : s.cpu.state = .running ∨ s.cpu.state = .halted) :
    cpuStep s = answers (dispatchStep s) := by
  rw [cpuStep_of_running_or_halted hon, phaseStep, hseq]

theorem dispatchStart_of_low (hlow : s.clock.clkPin = false) : dispatchStart s = none := by
  simp [dispatchStart, hlow]

theorem dispatchStart_of_stopped (hstop : s.cpu.alive = false) : dispatchStart s = none := by
  simp [dispatchStart, hstop]

/-- The order of R209, once the clock is high and the CPU alive. -/
theorem dispatchStart_of_high (hseq : s.cpu.seq = .waitHi) (hhigh : s.clock.clkPin = true) (halive : s.cpu.alive = true)
    (hon : s.cpu.state = .running ∨ s.cpu.state = .halted) :
    dispatchStart s =
      if s.cpu.resb = false then some .reset
      else if s.cpu.state = .halted then none
      else if s.cpu.rdy = false then none
      else some .instruction := by
  simp [dispatchStart, hseq, hhigh, halive, hon]

end

/-- Settles O17: `power_on` and `PowerOn` are the lemmas of those states, a dispatch is `dispatchStart_of_high`. -/
theorem dispatchFollowsItsPriority : Obligations.DispatchFollowsItsPriority := by
  refine ⟨fun s hfault => ⟨fun hoff => ?_, fun hon => ?_⟩, fun s hon => ⟨fun halive => ?_, fun hstop => ?_⟩,
    fun s hseq hon => ⟨fun hlow => ?_, fun hstop => ?_, fun hhigh halive => ?_⟩⟩
  · exact eventStep_host hfault (congrArg some (powerOn_of_powerOff hoff))
  · exact eventStep_host hfault (congrArg some (powerOn_of_not_powerOff hon))
  · simp [cpuStep_of_powerOn hon, cpuSpanStep_of_powerOn hon, halive]
  · simp [cpuStep_of_powerOn hon, cpuSpanStep_of_powerOn hon, hstop]
  · simp [cpuStep_of_waitHi hseq hon, dispatchStep, dispatchStart_of_low hlow, answers]
  · simp [cpuStep_of_waitHi hseq hon, dispatchStep, dispatchStart_of_stopped hstop, answers]
  · rw [cpuStep_of_waitHi hseq hon, cpuSpanStep_of_dispatch hon, dispatchStep,
      dispatchStart_of_high hseq hhigh halive hon]
    refine ⟨fun hresb => ?_, fun hresb => ⟨fun hhalt => ?_, fun hrun hrdy => ?_, fun hrun hrdy => ?_⟩⟩
    · simp [hresb, answers]
    · simp [hresb, hhalt, answers]
    · simp [hresb, hrdy, answers]
    · simp [hresb, hrun, hrdy, answers, startInstr, State.mapCpu]

/-! ### The brackets (R243, R244, R332–R334) -/

section
variable {s : State}

theorem busFree_of_none (hfree : s.bus.owner = none) : busFree s = true := busFree_iff.mpr hfree

theorem busFree_of_owner (hheld : s.bus.owner ≠ none) : busFree s = false :=
  Bool.eq_false_iff.mpr (mt busFree_iff.mp hheld)

theorem absTry_of_free (hfree : s.bus.owner = none) :
    absTry s = { s with bus := { s.bus with owner := some .cpu }, cpu := { s.cpu with seq := .absAddr } } := by
  rw [absTry, busFree_of_none hfree]
  rfl

theorem absTry_of_held (hheld : s.bus.owner ≠ none) : absTry s = { s with cpu := { s.cpu with seq := .absWait } } := by
  rw [absTry, busFree_of_owner hheld]
  rfl

theorem absGrant_of_free (hfree : s.bus.owner = none) :
    absGrant s = some { s with bus := { s.bus with owner := some .cpu }, cpu := { s.cpu with seq := .absAddr } } := by
  rw [absGrant, busFree_of_none hfree]
  rfl

theorem absGrant_of_held (hheld : s.bus.owner ≠ none) : absGrant s = none := by
  rw [absGrant, busFree_of_owner hheld]
  rfl

/-- `ABS_MEM` of a load (R243 line 3): the byte, its event if any, the register, `N` and `Z`. -/
theorem absMem_load (rd : Reg) (ea : Addr) (s : State) :
    absMem (.load rd) ea s = { s with
      cpu := { s.cpu.loadReg rd (memByte ea s) with tmp := memByte ea s, seq := .absData }
      diag := s.diag ++ accessEvents .read ea s } := by
  simp [absMem, memRead_eq, State.mapCpu]

theorem absRel_of_owner (howner : s.bus.owner = some .cpu) :
    absRel s = { s with bus := { s.bus with owner := none }, cpu := { s.cpu with rwb := true, seq := .waitLo } } := by
  rw [absRel, releaseBus_of_owner howner]
  rfl

theorem rstTry_of_free (hfree : s.bus.owner = none) :
    rstTry s = { s with bus := { s.bus with owner := some .cpu }, cpu := { s.cpu with seq := .rstAddrLo } } := by
  rw [rstTry, busFree_of_none hfree]
  rfl

theorem rstTry_of_held (hheld : s.bus.owner ≠ none) : rstTry s = { s with cpu := { s.cpu with seq := .rstWait } } := by
  rw [rstTry, busFree_of_owner hheld]
  rfl

theorem rstGrant_of_free (hfree : s.bus.owner = none) :
    rstGrant s = some { s with bus := { s.bus with owner := some .cpu }, cpu := { s.cpu with seq := .rstAddrLo } } := by
  rw [rstGrant, busFree_of_none hfree]
  rfl

theorem rstGrant_of_held (hheld : s.bus.owner ≠ none) : rstGrant s = none := by
  rw [rstGrant, busFree_of_owner hheld]
  rfl

theorem rstReadLo_eq (s : State) :
    rstReadLo s = { s with
      cpu := { s.cpu with b1 := memByte s.cfg.resetVector s, seq := .rstAddrHi }
      diag := s.diag ++ accessEvents .read s.cfg.resetVector s } := by
  simp [rstReadLo, memRead_eq, State.mapCpu]

theorem rstReadHi_eq (s : State) :
    rstReadHi s = { s with
      cpu := { s.cpu with b2 := memByte (s.cfg.resetVector + 1) s, seq := .rstRel }
      diag := s.diag ++ accessEvents .read (s.cfg.resetVector + 1) s } := by
  simp [rstReadHi, memRead_eq, State.mapCpu]

theorem rstRel_of_owner (howner : s.bus.owner = some .cpu) :
    rstRel s = { s with bus := { s.bus with owner := none }, cpu := { s.cpu with vecOk := true, seq := .rstEnd } } := by
  rw [rstRel, releaseBus_of_owner howner]
  rfl

end

/-- Settles O12: each phase's step is its definition's, written out by the lemmas of this part. -/
theorem bracketRunsStepByStep : Obligations.BracketRunsStepByStep := by
  refine ⟨fun s acc hrun hacc => ?access, fun s hrun hseq => ?wait, ?reset⟩
  case access =>
    rw [cpuStep_of_running hrun]
    refine ⟨fun hseq hfree => ?_, fun hseq hheld => ?_, fun hseq rd hload => ?_, fun hseq hstore => ?_,
      fun hseq rd hload => ?_, fun hseq hstore => ?_, fun hseq rd hload => ?_, fun hseq hstore => ?_,
      fun hseq howner => ?_⟩ <;> simp only [phaseStep, hseq, hacc, Option.map_some, answers]
    · rw [absTry_of_free hfree]
    · rw [absTry_of_held hheld]
    · rw [hload]; rfl
    · rw [hstore]; rfl
    · rw [hload, absMem_load]; rfl
    · rw [hstore]; rfl
    · rw [hload]; rfl
    · rw [hstore]; rfl
    · rw [absRel_of_owner howner]
  case wait =>
    rw [cpuStep_of_running hrun, phaseStep, hseq]
    refine ⟨fun hfree => ?_, fun hheld => ?_, ?_⟩
    · simp only [absGrant_of_free hfree]; rfl
    · simp only [absGrant_of_held hheld]; rfl
    · rw [cpuTimeoutStep_of_absWait (switchedOn_of_running hrun) hseq]; rfl
  case reset =>
    rintro s hreset _ rfl
    rw [cpuStep_of_reset hreset]
    refine ⟨?_, fun hseq hheld => ?_, fun hseq hheld => ?_, fun hseq => ?_, fun hseq => ?_, fun hseq => ?_, fun hseq => ?_,
      fun hseq => ?_, fun hseq howner => ?_, fun hseq => ?_⟩
    · rintro (hseq | hseq) hfree <;> simp only [phaseStep, hseq, answers]
      · rw [rstTry_of_free hfree]
      · rw [rstGrant_of_free hfree]; rfl
    all_goals simp only [phaseStep, hseq, answers]
    · rw [rstTry_of_held hheld]
    · rw [rstGrant_of_held hheld]; rfl
    · rw [cpuTimeoutStep_of_rstWait (switchedOn_of_reset hreset) hseq]; rfl
    · rfl
    · rw [rstReadLo_eq]
    · rfl
    · rw [rstReadHi_eq]
    · rw [rstRel_of_owner howner]
    · rfl

end Sys2Proof.Machine
end

section
/-! PROOFS. Whole operations of the CPU with no other agent's step in them: the bracket of an absolute access
(spec/45_cpu_load_store.md R243, R244), an instruction (spec/30_encoding.md R90) and a reset (spec/70_reset_and_hazards.md
R330–R336). -/

namespace Sys2Proof.Machine

/-- A decoder write acts on the chips as it does in any state with the same configuration and chips. -/
theorem memWrite_congr {s t : State} (hcfg : t.cfg = s.cfg) (hchips : t.chips = s.chips) (addr : Addr) (v : Byte) :
    memWrite addr v t =
      { t with chips := (memWrite addr v s).chips, diag := t.diag ++ accessEvents .write addr s } := by
  rw [memWrite_eq, memWrite_chips_congr hcfg hchips, accessEvents_congr hcfg hchips]

/-! ### The bracket of an absolute access (R243, R244) -/

section
variable {s : State}

/-- The state in which a granted load reads memory (R243 lines 1 and 2). -/
theorem absAddr_load_absTry (hfree : s.bus.owner = none) (rd : Reg) (ea : Addr) :
    absAddr (.load rd) ea (absTry s) = { s with
      cpu := { s.cpu with seq := .absMem }
      bus := { s.bus with pins := putAddress ea s.bus.pins, owner := some .cpu } } := by
  rw [absTry_of_free hfree]
  rfl

/-- The state in which a granted store writes memory (R243 lines 1 to 3). -/
theorem absData_store_absTry (hfree : s.bus.owner = none) (ea : Addr) :
    absData .store (absAddr .store ea (absTry s)) = { s with
      cpu := { s.cpu with rwb := false, tmp := s.cpu.a, seq := .absMem }
      bus := { s.bus with pins := putData s.cpu.a (putAddress ea s.bus.pins), owner := some .cpu } } := by
  rw [absTry_of_free hfree]
  rfl

/-- A load whose request is granted at once: the register, `N`, `Z`, `tmp`, both views and the access's event. -/
theorem absBracket_load_of_free (hfree : s.bus.owner = none) (rd : Reg) (ea : Addr) :
    absBracket (.load rd) ea s = { s with
      cpu := { s.cpu.loadReg rd (memByte ea s) with tmp := memByte ea s, rwb := true, seq := .waitLo }
      bus := { s.bus with pins := putData (memByte ea s) (putAddress ea s.bus.pins) }
      diag := s.diag ++ accessEvents .read ea s } := by
  rw [absBracket, busFree_of_none hfree, if_pos rfl, absGranted, absAddr_load_absTry hfree, absMem_load,
    absRel_of_owner rfl, ← hfree]
  cases rd <;> rfl

/-- A store whose request is granted at once: `tmp`, both views, the store through the decoder and its event. -/
theorem absBracket_store_of_free (hfree : s.bus.owner = none) (ea : Addr) :
    absBracket .store ea s = { s with
      cpu := { s.cpu with tmp := s.cpu.a, rwb := true, seq := .waitLo }
      bus := { s.bus with pins := putData s.cpu.a (putAddress ea s.bus.pins) }
      chips := (memWrite ea s.cpu.a s).chips
      diag := s.diag ++ accessEvents .write ea s } := by
  rw [absBracket, busFree_of_none hfree, if_pos rfl, absGranted, absData_store_absTry hfree, absMem,
    memWrite_congr (s := s) ?cfg ?chips, absRel_of_owner rfl, ← hfree]
  all_goals rfl

/-- An access whose request times out: `PC` back at the opcode and one event. -/
theorem absBracket_of_held (hheld : s.bus.owner ≠ none) (acc : AbsAccess) (ea : Addr) :
    absBracket acc ea s = { s with
      cpu := { s.cpu with pc := s.cpu.opaddr, seq := .waitLo }
      diag := s.diag ++ [⟨.warning, .busTimeout .cpu⟩] } := by
  rw [absBracket, busFree_of_owner hheld, absTry_of_held hheld]
  rfl

end

/-- Settles O9: each load is the bracket of its register. -/
theorem absoluteLoadsCompleteWhenTheBusIsFree : Obligations.AbsoluteLoadsCompleteWhenTheBusIsFree := by
  rintro ea s hfree _ rfl
  have hload (rd : Reg) := congrArg (Host.Outcome.next (φ := Fault) (ρ := Refusal)) (absBracket_load_of_free hfree rd ea)
  exact ⟨hload .a, hload .x, hload .y⟩

/-- Settles O11: an absolute instruction is the bracket of its access, which times out while the bus is held. -/
theorem absoluteAccessTimesOutWhenTheBusIsHeld : Obligations.AbsoluteAccessTimesOutWhenTheBusIsHeld := by
  rintro ea s i hheld (rfl | rfl | rfl | rfl) <;>
    exact congrArg Host.Outcome.next (absBracket_of_held hheld _ ea)

/-! ### The bytes a store leaves (R73, R164, R165) -/

/-- After a decoder write, the stored byte holds the value and every other byte of every chip reads as before. -/
theorem chipByte_memWrite {s : State} (hok : s.memoryOk) (ea : Addr) (v : Byte) (k a : Nat) :
    chipByte k a (memWrite ea v s) = if storeCell ea s = some (k, a) then v else chipByte k a s := by
  cases hroute : s.routeOf ea with
  | none => simp [memWrite_of_miss hroute, storeCell, hroute, chipByte]
  | some ka =>
    obtain ⟨k', a'⟩ := ka
    rw [memWrite_of_hit hroute]
    by_cases hin : a' < chipCapacity k' s
    · rw [chipByte_chipWriteByte hok hin]
      simp [storeCell, hroute, hin, eq_comm]
    · simp [chipWriteByte_of_le (Nat.not_lt.mp hin), storeCell, hroute, hin, chipByte]

/-- What a CPU address reads as after a decoder write: the value, if it is routed to the stored byte. -/
theorem memByte_memWrite {s : State} (hok : s.memoryOk) (ea : Addr) (v : Byte) (addr : Addr) :
    memByte addr (memWrite ea v s) =
      if (storeCell ea s).isSome = true ∧ s.routeOf addr = s.routeOf ea then v else memByte addr s := by
  have hcell : ∀ ka, storeCell ea s = some ka ↔ (storeCell ea s).isSome = true ∧ s.routeOf ea = some ka := by
    intro ka
    unfold storeCell
    cases s.routeOf ea with
    | none => simp
    | some ka' => by_cases hin : ka'.2 < chipCapacity ka'.1 s <;> simp [hin]
  have hroutes : (memWrite ea v s).routeOf addr = s.routeOf addr := State.routeOf_congr (by rw [memWrite_eq]) addr
  unfold memByte
  rw [hroutes]
  cases hroute : s.routeOf addr with
  | none =>
    have : ¬ ((storeCell ea s).isSome = true ∧ none = s.routeOf ea) := by
      rintro ⟨hsome, hnone⟩
      simp [storeCell, ← hnone] at hsome
    rw [if_neg this]
  | some ka =>
    dsimp only
    rw [chipByte_memWrite hok]
    simp only [hcell, eq_comm]

/-- Settles O10: the bracket gives the state (`absBracket_store_of_free`), and its chips are those of a decoder write. -/
theorem storeCompletesWhenTheBusIsFree : Obligations.StoreCompletesWhenTheBusIsFree := by
  intro ea s hfree hok
  refine ⟨absBracket .store ea s, rfl, ?_⟩
  rw [absBracket_store_of_free hfree]
  refine ⟨rfl, (frame_memWrite ea s.cpu.a s).chips, fun k a => ?_, fun addr => ?_⟩
  · exact chipByte_memWrite hok ea s.cpu.a k a
  · rw [← memByte_memWrite hok]
    refine memByte_congr ?cfg ?chips addr
    case cfg => exact (frame_memWrite ea s.cpu.a s).cfg.symm
    case chips => rfl

/-! ### What an instruction leaves as it was (R90, R218, R307) -/

/-- The register an instruction writes, if it writes one (R245–R250, R271–R278). -/
def dest (i : Instr) : Option Reg :=
  match i with
  | .ldaImm _ | .ldaAbs _ | .txa | .tya => some .a
  | .ldxImm _ | .ldxAbs _ | .inx | .dex | .tax => some .x
  | .ldyImm _ | .ldyAbs _ | .iny | .dey | .tay => some .y
  | .staAbs _ | .nop | .brk => none

/-- What an instruction does: load a register, nothing, halt, or the bracket of its access. -/
theorem exec_cases (i : Instr) (s : State) :
    (∃ rd v, dest i = some rd ∧ absAccessOf i = none ∧
      exec i s = .next (s.mapCpu fun c => { c.loadReg rd v with seq := .waitLo })) ∨
    (i = .nop ∧ exec i s = .next (s.goto .waitLo)) ∨
    (i = .brk ∧ exec i s = .next (halt s)) ∨
    (∃ rd ea, dest i = some rd ∧ absAccessOf i = some (.load rd) ∧ i.format = .abs ∧
      exec i s = .next (absBracket (.load rd) ea s)) ∨
    (∃ ea, i = .staAbs ea ∧ exec i s = .next (absBracket .store ea s)) := by
  cases i
  case nop => exact .inr (.inl ⟨rfl, rfl⟩)
  case brk => exact .inr (.inr (.inl ⟨rfl, rfl⟩))
  case ldaAbs => exact .inr (.inr (.inr (.inl ⟨_, _, rfl, rfl, rfl, rfl⟩)))
  case ldxAbs => exact .inr (.inr (.inr (.inl ⟨_, _, rfl, rfl, rfl, rfl⟩)))
  case ldyAbs => exact .inr (.inr (.inr (.inl ⟨_, _, rfl, rfl, rfl, rfl⟩)))
  case staAbs => exact .inr (.inr (.inr (.inr ⟨_, rfl, rfl⟩)))
  all_goals exact .inl ⟨_, _, rfl, rfl, rfl⟩

/-- Which instructions write a register: not `BRK` or `NOP`, and each its own. -/
theorem mnemonic_of_dest {i : Instr} {rd : Reg} (h : dest i = some rd) :
    (i ≠ .brk ∧ i ≠ .nop) ∧
    (rd = .a → i.mnemonic = .ldaImm ∨ i.mnemonic = .ldaAbs ∨ i = .txa ∨ i = .tya) ∧
    (rd = .x → i.mnemonic = .ldxImm ∨ i.mnemonic = .ldxAbs ∨ i = .inx ∨ i = .dex ∨ i = .tax) ∧
    (rd = .y → i.mnemonic = .ldyImm ∨ i.mnemonic = .ldyAbs ∨ i = .iny ∨ i = .dey ∨ i = .tay) := by
  cases i <;> cases h <;> simp [Instr.mnemonic]

/-- The high pins are kept by an access to both views (R80). -/
theorem pinAt_putData_putAddress {j : Nat} (hj : 24 ≤ j) (d : Byte) (a : Addr) (p : Pins) :
    pinAt j (putData d (putAddress a p)) = pinAt j p := by
  rw [pinAt_putData_of_outside (.inr hj), pinAt_putAddress_of_le (by omega)]

/-- Settles O16: the frame of each kind of instruction is read off its next state (`exec_cases` and the lemmas of the bracket). -/
theorem instructionFrame : Obligations.InstructionFrame := by
  intro i s t h
  obtain ⟨rd, v, hdest, hacc, he⟩ | ⟨rfl, he⟩ | ⟨rfl, he⟩ | ⟨rd, ea, hdest, hacc, hformat, he⟩ | ⟨ea, rfl, he⟩ :=
    exec_cases i s <;> rw [he] at h <;> cases h
  · obtain ⟨⟨hbrk, hnop⟩, ha, hx, hy⟩ := mnemonic_of_dest hdest
    cases rd <;> simp [hacc, hbrk, hnop, Cpu.loadReg, Cpu.setReg, Flags.setNZ, ha, hx, hy]
    all_goals exact memByte_congr rfl rfl
  · simp [absAccessOf]
    exact memByte_congr rfl rfl
  · simp [halt, absAccessOf]
    exact memByte_congr rfl rfl
  · obtain ⟨⟨hbrk, hnop⟩, ha, hx, hy⟩ := mnemonic_of_dest hdest
    by_cases hfree : s.bus.owner = none
    · rw [absBracket_load_of_free hfree]
      cases rd <;>
        simp +contextual [hacc, hformat, hbrk, hnop, Cpu.loadReg, Cpu.setReg, Flags.setNZ, ha, hx, hy,
          pinAt_putData_putAddress]
      all_goals exact memByte_congr rfl rfl
    · rw [absBracket_of_held hfree]
      simp [hformat, hacc]
      exact memByte_congr rfl rfl
  · by_cases hfree : s.bus.owner = none
    · rw [absBracket_store_of_free hfree]
      simp +contextual [absAccessOf, pinAt_putData_putAddress, Instr.format]
    · rw [absBracket_of_held hfree]
      simp [Instr.format, absAccessOf]

/-! ### A whole reset (R330–R336) -/

/-- The last address written to the bus is the one it shows. -/
theorem putAddress_putAddress (a b : Addr) (p : Pins) : putAddress a (putAddress b p) = putAddress a p := by
  refine pins_ext fun j => ?_
  simp only [pinAt_putAddress]
  by_cases hj : j < 16 <;> simp [hj]

/-- Settles O27: the chain of the transaction's steps; each vector byte is read from the chips and mappings of the start. -/
theorem resetReadsTheVectorWhenTheBusIsFree : Obligations.ResetReadsTheVectorWhenTheBusIsFree := by
  rintro s hfree _ rfl
  rw [resetSpan, busFree_of_none hfree, if_pos rfl, rstGranted, rstTry_of_free (s := resetEntry s) hfree, rstReadLo_eq,
    rstReadHi_eq, rstRel_of_owner rfl, ← putAddress_putAddress _ s.cfg.resetVector, ← hfree]
  rfl

/-- Settles O28: with the bus held the request waits, and the timeout goes to the end of the reset. -/
theorem resetFallsBackWhenTheBusIsHeld : Obligations.ResetFallsBackWhenTheBusIsHeld := by
  intro s hheld
  rw [resetSpan, busFree_of_owner hheld, if_neg Bool.false_ne_true, rstTry_of_held (s := resetEntry s) hheld]
  rfl

end Sys2Proof.Machine
end

section
/-! PROOFS. What an event of another agent than the CPU can do, once and by name (spec/00_scope.md R11, spec/40_bus_arbiter.md
R100–R119, spec/41_chip_protocol.md R131–R138, spec/43_clock.md R181–R189), and what follows of the steps of the chips and the
host. -/

namespace Sys2Proof.Machine

/-! ### Chips (R24, R131–R138) -/

/-- A chip's storage is in canonical form, below its capacity. -/
def Chip.StorageOk (c : Chip) : Prop := Memory.wf (chipFill c.kind) c.capacity c.storage = true

/-- `c'` is `c` with its pins, latch, storage, run flag or phase changed, on the same side of the bus. -/
structure Chip.LocalChange (c c' : Chip) : Prop where
  kind : c'.kind = c.kind
  capacity : c'.capacity = c.capacity
  holdsBus : c'.phase.holdsBus = c.phase.holdsBus
  storageOk : c.StorageOk → c'.StorageOk

/-- What one step of an agent other than the CPU does. -/
inductive OtherMove (s : State) : Event → State → Prop where
  | same (e : Event) : OtherMove s e s
  | log (e : Event) (ev : List DiagEvent) : OtherMove s e { s with diag := s.diag ++ ev }
  | cpu (act : HostAction) (f : Cpu → Cpu) : OtherMove s (.host act) (s.mapCpu f)
  | clockField (act : HostAction) (f : Clock → Clock) (hpin : (f s.clock).clkPin = s.clock.clkPin) :
      OtherMove s (.host act) (s.mapClock f)
  | clockStep : OtherMove s (.host .clockStep) (toggleClock s)
  | clockAgent (hmode : s.clock.mode = .astable) (halive : s.clock.alive = true)
      (hspeed : speedValid s.clock.speedHz = true) : OtherMove s .clock (toggleClock s)
  | pins (act : HostAction) (p : Pins)
      (hhigh : s.cfg.wellFormed = true → ∀ j, s.cfg.busWidth ≤ j → pinAt j s.bus.pins = false → pinAt j p = false) :
      OtherMove s (.host act) (s.mapBus fun b => { b with pins := p })
  | power (v : Bool) : OtherMove s (.host (.setPower v)) (s.mapBus fun b => { b with power := v })
  | fault (act : HostAction) (i : Nat) (hi : s.cfg.busWidth ≤ i) (hact : act = .getPin i ∨ ∃ v, act = .setPin i v) :
      OtherMove s (.host act) (pinFault i s)
  | hostGranted (e : Event) (he : e = .host .request ∨ e = .hostGrant) (hfree : s.bus.owner = none) :
      OtherMove s e { grantBus .host s with hostPhase := .idle }
  | hostPhase (e : Event) (q : HostPhase) : OtherMove s e { s with hostPhase := q }
  | hostRelease (howner : s.bus.owner = some .host) :
      OtherMove s (.host .release) (s.mapBus fun b => { b with owner := none })
  | chipLocal (e : Event) (k : Nat) (c c' : Chip) (ev : List DiagEvent) (hk : s.chips[k]? = some c)
      (hlocal : c.LocalChange c') : OtherMove s e { s.setChip k c' with diag := s.diag ++ ev }
  | chipGranted (k : Nat) (c : Chip) (hk : s.chips[k]? = some c) (hphase : c.phase = .try ∨ c.phase = .wait)
      (hfree : s.bus.owner = none) : OtherMove s (.chip k) (chipGranted k c s)
  | chipDrive (k : Nat) (c : Chip) (hk : s.chips[k]? = some c) (hphase : c.phase = .drive) :
      OtherMove s (.chip k) ((writeData c.latch s).setChip k { c with phase := .rel })
  | chipRelease (k : Nat) (c : Chip) (hk : s.chips[k]? = some c) (hphase : c.phase = .rel) :
      OtherMove s (.chip k) ((releaseBus (.chip k) s).setChip k { c with phase := .top })

namespace OtherMove
variable {s : State} {e : Event}

/-- A local change of a chip with no event. -/
theorem chipLocal' {k : Nat} {c c' : Chip} (hk : s.chips[k]? = some c) (hlocal : c.LocalChange c') :
    OtherMove s e (s.setChip k c') := by
  have h := OtherMove.chipLocal (s := s) e k c c' [] hk hlocal
  rwa [List.append_nil] at h

/-- A store into a chip below its capacity is a local change. -/
theorem localChange_poke {c : Chip} {a : Nat} (ha : a < c.capacity) (v : Byte) : c.LocalChange (c.poke a v) :=
  ⟨rfl, rfl, rfl, fun h => Chip.wf_poke h v ha⟩

/-- A direct byte write of any chip number. -/
theorem chipWriteByte (k a : Nat) (v : Byte) : OtherMove s e (chipWriteByte k a v s) := by
  rcases chipWriteByte_cases k a v s with ⟨c, hk, ha, hwrite⟩ | ⟨-, hwrite⟩ <;> rw [hwrite]
  · exact chipLocal' hk (localChange_poke ha v)
  · exact log e _

/-- A decoder write. -/
theorem memWrite (addr : Addr) (v : Byte) : OtherMove s e (memWrite addr v s) := by
  rcases memWrite_cases addr v s with ⟨k, a, c, -, hk, ha, hwrite⟩ | ⟨k, a, -, -, hwrite⟩ | ⟨-, hwrite⟩ <;> rw [hwrite]
  · exact chipLocal' hk (localChange_poke ha v)
  · exact log e _
  · exact log e _

/-- A direct word write of any chip number. -/
theorem chipWriteWord (k a : Nat) (w : Addr) : OtherMove s e (chipWriteWord k a w s) := by
  rcases chipWriteWord_cases k a w s with ⟨c, hk, ha, hwrite⟩ | hwrite <;> rw [hwrite]
  · have hlow : a < c.capacity := Nat.lt_of_succ_lt ha
    exact chipLocal' hk ⟨rfl, rfl, rfl, fun h => Chip.wf_poke (Chip.wf_poke h (lowByte w) hlow) (highByte w) ha⟩
  · exact log e _

/-- A pin index inside the bus width writes below it; one outside raises the fault (R112, R114). -/
theorem setPin (i : Nat) (v : Bool) : OtherMove s (.host (.setPin i v)) (setPin i v s) := by
  by_cases hi : i < s.cfg.busWidth
  · rw [setPin_of_lt hi]
    refine pins _ (putPin i v s.bus.pins) fun hwf j hj hlow => ?_
    rw [pinAt_putPin i v _ j (Nat.lt_of_lt_of_le hi (Config.busWidth_bounds hwf).2), if_neg (by omega), hlow]
  · simp only [Machine.setPin, hi, if_false]
    exact fault _ i (Nat.not_lt.mp hi) (.inr ⟨v, rfl⟩)

theorem getPin (i : Nat) : OtherMove s (.host (.getPin i)) (getPin i s) := by
  by_cases hi : i < s.cfg.busWidth
  · rw [getPin_of_lt hi]
    exact same _
  · simp only [Machine.getPin, hi, if_false]
    exact fault _ i (Nat.not_lt.mp hi) (.inl rfl)

/-- The host's release frees the bus if the host holds it (R106, R107). -/
theorem release : OtherMove s (.host .release) (releaseBus .host s) := by
  by_cases howner : s.bus.owner = some .host
  · rw [releaseBus_of_owner howner]
    exact hostRelease howner
  · rw [releaseBus_of_not_owner howner]
    exact same _

end OtherMove

/-- What a host action does (R11). -/
theorem hostStep_move {act : HostAction} {s t : State} (h : hostStep act s = some t) : OtherMove s (.host act) t := by
  cases act <;> simp only [hostStep] at h
  case request =>
    obtain ⟨hidle, ⟨hfree, rfl⟩ | ⟨-, rfl⟩⟩ := hostRequest_cases h
    · have hmove := OtherMove.hostGranted (s := s) _ (.inl rfl) hfree
      rwa [← hidle] at hmove
    · exact .hostPhase _ _
  case driveChip k p => 
    obtain ⟨c, hk, rfl⟩ := onChip_some h
    exact .chipLocal' hk ⟨rfl, rfl, rfl, id⟩
  case readByte k a =>
    obtain ⟨c, -, rfl⟩ := onChip_some h
    rw [chipReadByte_eq]
    exact .log _ _
  case writeByte k a v =>
    obtain ⟨c, -, rfl⟩ := onChip_some h
    exact .chipWriteByte k a v
  case readWord k a =>
    obtain ⟨c, -, rfl⟩ := onChip_some h
    rcases chipReadWord_cases k a s with hread | hread <;> rw [hread]
    · exact .same _
    · exact .log _ _
  case writeWord k a w =>
    obtain ⟨c, -, rfl⟩ := onChip_some h
    exact .chipWriteWord k a w
  case stop a =>
    cases a <;> simp only [stopAgent] at h
    case cpu => cases h; exact .cpu _ _
    case chip k =>
      obtain ⟨c, hk, rfl⟩ := onChip_some h
      exact .chipLocal' hk ⟨rfl, rfl, rfl, id⟩
    case clock => cases h; exact .clockField _ _ rfl
  all_goals cases h
  case writeAddress.refl a =>
    exact .pins _ _ fun hwf j hj hlow => by
      rw [pinAt_putAddress_of_le (by have := (Config.busWidth_bounds hwf).1; omega), hlow]
  case writeData.refl d =>
    exact .pins _ _ fun hwf j hj hlow => by
      rw [pinAt_putData_of_outside (.inr (Nat.le_trans (Config.busWidth_bounds hwf).1 hj)), hlow]
  case setPin.refl i v => exact .setPin i v
  case getPin.refl i => exact .getPin i
  case resetBus.refl => exact .pins _ 0 fun _ j _ _ => pinAt_zero j
  case release.refl => exact .release
  case setPower.refl v => exact .power v
  case decoderRead.refl addr => rw [memRead_eq]; exact .log _ _
  case decoderWrite.refl addr v => exact .memWrite addr v
  case clockStep.refl => exact .clockStep
  case sasm.refl => exact .clockField _ _ rfl
  case smsm.refl => exact .clockField _ _ rfl
  case setSpeed.refl => exact .clockField _ _ rfl
  case powerOn.refl => exact .cpu _ _
  case driveCpu.refl p => exact .cpu _ _
  all_goals exact .same _

/-- What a chip's step does (R131–R138). -/
theorem chipStep_move {k : Nat} {s t : State} (h : chipStep k s = some t) : OtherMove s (.chip k) t := by
  obtain ⟨c, hk, ⟨hphase, -, rfl⟩ | ⟨hphase, hfree, rfl⟩ | ⟨hphase, -, rfl⟩ | ⟨hphase, rfl⟩ | ⟨hphase, rfl⟩⟩ :=
    chipStep_cases h
  · have hread (v : Byte) : c.LocalChange { c with dPins := v, latch := v, phase := .try } :=
      ⟨rfl, rfl, by simp [hphase, ChipPhase.holdsBus], id⟩
    rcases poll_cases k c s with hpoll | hpoll | ⟨ha, hpoll⟩ | ⟨-, -, -, v, hpoll | hpoll⟩ <;> rw [hpoll]
    · exact .same _
    · exact .log _ _
    · exact .chipLocal' hk (OtherMove.localChange_poke ha _)
    · exact .chipLocal' hk (hread v)
    · exact .chipLocal _ k c _ _ hk (hread v)
  · exact .chipGranted k c hk hphase hfree
  · exact .chipLocal' hk ⟨rfl, rfl, by simp [hphase, ChipPhase.holdsBus], id⟩
  · exact .chipDrive k c hk hphase
  · exact .chipRelease k c hk hphase

/-- What an event of another agent than the CPU does. -/
theorem eventStep_other {e : Event} {s t : State} (h : eventStep e s = some (.next t))
    (hcpu : e ≠ .cpu) (htimeout : e ≠ .cpuTimeout) (hspan : e ≠ .cpuSpan) : OtherMove s e t := by
  obtain ⟨-, h⟩ := eventStep_some h
  cases e with
  | cpu => exact absurd rfl hcpu
  | cpuTimeout => exact absurd rfl htimeout
  | cpuSpan => exact absurd rfl hspan
  | chip k => exact chipStep_move (answers_eq_some_next h)
  | chipTimeout k =>
    obtain ⟨c, hk, hphase, rfl⟩ := chipTimeoutStep_cases (answers_eq_some_next h)
    exact .chipLocal _ k c _ _ hk ⟨rfl, rfl, by simp [hphase, ChipPhase.holdsBus], id⟩
  | clock =>
    obtain ⟨hmode, halive, hspeed, rfl⟩ := clockAgentStep_cases (answers_eq_some_next h)
    exact .clockAgent hmode halive hspeed
  | hostGrant =>
    obtain ⟨-, hfree, rfl⟩ := hostGrantStep_cases (answers_eq_some_next h)
    exact .hostGranted _ (.inr rfl) hfree
  | hostTimeout =>
    obtain ⟨-, rfl⟩ := hostTimeoutStep_cases (answers_eq_some_next h)
    exact .hostPhase _ _
  | host act => exact hostStep_move (answers_eq_some_next h)

end Sys2Proof.Machine
end

section
/-! PROOFS. What an atomic step of the CPU can do, once and by name (spec/44_cpu_sequencer.md R200–R219, spec/45_cpu_load_store.md
R243, R244, spec/70_reset_and_hazards.md R331–R334), and what it leaves of the bus and the chips. -/

namespace Sys2Proof.Machine

/-- What one atomic step of the CPU does: its step, or its timeout step in a wait phase. -/
inductive CpuMove (s : State) : Event → State → Prop where
  | resetEntry (halive : s.cpu.alive = true)
      (hwhen : s.cpu.state = .powerOn ∨ (s.cpu.seq = .waitHi ∧ (s.cpu.state = .running ∨ s.cpu.state = .halted) ∧
        s.clock.clkPin = true ∧ s.cpu.resb = false)) : CpuMove s .cpu (resetEntry s)
  | startInstr (hseq : s.cpu.seq = .waitHi) (hrun : s.cpu.state = .running) : CpuMove s .cpu (startInstr s)
  | fetchOp (hseq : s.cpu.seq = .fetchOp) : CpuMove s .cpu (fetchOp s)
  | fetchB1 (hseq : s.cpu.seq = .fetchB1) : CpuMove s .cpu (fetchB1 s)
  | fetchB2 (hseq : s.cpu.seq = .fetchB2) : CpuMove s .cpu (fetchB2 s)
  | exec (hseq : s.cpu.seq = .exec) (i : Instr) (hi : latchedInstr s = some i) (hformat : i.format ≠ .abs) (t : State)
      (hexec : exec i s = .next t) : CpuMove s .cpu t
  | absGranted (hseq : s.cpu.seq = .absTry ∨ s.cpu.seq = .absWait) (hfree : s.bus.owner = none) :
      CpuMove s .cpu ((grantBus .cpu s).goto .absAddr)
  | absWaits (hseq : s.cpu.seq = .absTry) (hheld : s.bus.owner ≠ none) : CpuMove s .cpu (s.goto .absWait)
  | absTimeout (hseq : s.cpu.seq = .absWait) : CpuMove s .cpuTimeout (absTimeout s)
  | absAddr (hseq : s.cpu.seq = .absAddr) (acc : AbsAccess) (hacc : latchedAccess s = some acc) :
      CpuMove s .cpu (absAddr acc s.cpu.ea s)
  | absMem (hseq : s.cpu.seq = .absMem) (acc : AbsAccess) (hacc : latchedAccess s = some acc) :
      CpuMove s .cpu (absMem acc s.cpu.ea s)
  | absData (hseq : s.cpu.seq = .absData) (acc : AbsAccess) (hacc : latchedAccess s = some acc) :
      CpuMove s .cpu (absData acc s)
  | absRel (hseq : s.cpu.seq = .absRel) : CpuMove s .cpu (absRel s)
  | waitLo (hseq : s.cpu.seq = .waitLo) (hlow : s.clock.clkPin = false) : CpuMove s .cpu (s.goto .waitHi)
  | rstGranted (hseq : s.cpu.seq = .rstTry ∨ s.cpu.seq = .rstWait) (hfree : s.bus.owner = none) :
      CpuMove s .cpu ((grantBus .cpu s).goto .rstAddrLo)
  | rstWaits (hseq : s.cpu.seq = .rstTry) (hheld : s.bus.owner ≠ none) : CpuMove s .cpu (s.goto .rstWait)
  | rstTimeout (hseq : s.cpu.seq = .rstWait) : CpuMove s .cpuTimeout (rstTimeout s)
  | rstAddrLo (hseq : s.cpu.seq = .rstAddrLo) : CpuMove s .cpu (rstAddrLo s)
  | rstReadLo (hseq : s.cpu.seq = .rstReadLo) : CpuMove s .cpu (rstReadLo s)
  | rstAddrHi (hseq : s.cpu.seq = .rstAddrHi) : CpuMove s .cpu (rstAddrHi s)
  | rstReadHi (hseq : s.cpu.seq = .rstReadHi) : CpuMove s .cpu (rstReadHi s)
  | rstRel (hseq : s.cpu.seq = .rstRel) : CpuMove s .cpu (rstRel s)
  | resetEnd (hseq : s.cpu.seq = .rstEnd) : CpuMove s .cpu (resetEnd s)

/-! ### Every step of the CPU is one of these -/

/-- What a dispatch can start, with its conditions (R203–R209). -/
theorem dispatchStart_cases {s : State} {start : Start} (h : dispatchStart s = some start) :
    s.cpu.seq = .waitHi ∧ s.clock.clkPin = true ∧ s.cpu.alive = true ∧
      ((start = .reset ∧ s.cpu.resb = false ∧ (s.cpu.state = .running ∨ s.cpu.state = .halted)) ∨
       (start = .instruction ∧ s.cpu.state = .running)) := by
  unfold dispatchStart at h
  split at h
  · next hready =>
    obtain ⟨hseq, hhigh, halive, hon⟩ := hready
    refine ⟨hseq, hhigh, halive, ?_⟩
    split at h
    · next hresb => cases h; exact .inl ⟨rfl, hresb, hon⟩
    · split at h
      · cases h
      · next hnot =>
        split at h <;> cases h
        exact .inr ⟨rfl, hon.resolve_right hnot⟩
  · cases h

theorem dispatchStep_move {s t : State} (h : dispatchStep s = some t) : CpuMove s .cpu t := by
  unfold dispatchStep at h
  cases hstart : dispatchStart s with
  | none => rw [hstart] at h; cases h
  | some start =>
    obtain ⟨hseq, hhigh, halive, ⟨rfl, hresb, hon⟩ | ⟨rfl, hrun⟩⟩ := dispatchStart_cases hstart <;>
      rw [hstart] at h <;> cases h
    · exact .resetEntry halive (.inr ⟨hseq, hon, hhigh, hresb⟩)
    · exact .startInstr hseq hrun

/-- A try of the bus is granted or waits (R101). -/
theorem absTry_move {s : State} (hseq : s.cpu.seq = .absTry) : CpuMove s .cpu (absTry s) := by
  by_cases hfree : s.bus.owner = none
  · rw [absTry, busFree_of_none hfree]
    exact .absGranted (.inl hseq) hfree
  · rw [absTry, busFree_of_owner hfree]
    exact .absWaits hseq hfree

theorem rstTry_move {s : State} (hseq : s.cpu.seq = .rstTry) : CpuMove s .cpu (rstTry s) := by
  by_cases hfree : s.bus.owner = none
  · rw [rstTry, busFree_of_none hfree]
    exact .rstGranted (.inl hseq) hfree
  · rw [rstTry, busFree_of_owner hfree]
    exact .rstWaits hseq hfree

theorem absGrant_move {s t : State} (hseq : s.cpu.seq = .absWait) (h : absGrant s = some t) : CpuMove s .cpu t := by
  unfold absGrant at h
  split at h <;> cases h
  next hfree => exact .absGranted (.inr hseq) (busFree_iff.mp hfree)

theorem rstGrant_move {s t : State} (hseq : s.cpu.seq = .rstWait) (h : rstGrant s = some t) : CpuMove s .cpu t := by
  unfold rstGrant at h
  split at h <;> cases h
  next hfree => exact .rstGranted (.inr hseq) (busFree_iff.mp hfree)

theorem execStep_move {s : State} {r : Result} (hseq : s.cpu.seq = .exec) (h : execStep s = some r) :
    ∃ t, r = .next t ∧ CpuMove s .cpu t := by
  unfold execStep at h
  split at h
  · next i hi =>
    split at h <;> cases h
    next hformat =>
    obtain ⟨t, hexec, -⟩ := frame_exec i s
    exact ⟨t, hexec, .exec hseq i hi hformat t hexec⟩
  · cases h

theorem phaseStep_move {s : State} {r : Result} (h : phaseStep s = some r) : ∃ t, r = .next t ∧ CpuMove s .cpu t := by
  unfold phaseStep at h
  cases hseq : s.cpu.seq <;> rw [hseq] at h <;> dsimp only at h
  case exec => exact execStep_move hseq h
  case waitHi => obtain ⟨t, ht, rfl⟩ := answers_eq_some h; exact ⟨t, rfl, dispatchStep_move ht⟩
  case absWait => obtain ⟨t, ht, rfl⟩ := answers_eq_some h; exact ⟨t, rfl, absGrant_move hseq ht⟩
  case rstWait => obtain ⟨t, ht, rfl⟩ := answers_eq_some h; exact ⟨t, rfl, rstGrant_move hseq ht⟩
  case waitLo =>
    obtain ⟨t, ht, rfl⟩ := answers_eq_some h
    unfold waitLoStep at ht
    split at ht <;> cases ht
    next hlow => exact ⟨_, rfl, .waitLo hseq hlow.1⟩
  case absAddr =>
    obtain ⟨t, ht, rfl⟩ := answers_eq_some h
    obtain ⟨acc, hacc, rfl⟩ := Option.map_eq_some_iff.mp ht
    exact ⟨_, rfl, .absAddr hseq acc hacc⟩
  case absMem =>
    obtain ⟨t, ht, rfl⟩ := answers_eq_some h
    obtain ⟨acc, hacc, rfl⟩ := Option.map_eq_some_iff.mp ht
    exact ⟨_, rfl, .absMem hseq acc hacc⟩
  case absData =>
    obtain ⟨t, ht, rfl⟩ := answers_eq_some h
    obtain ⟨acc, hacc, rfl⟩ := Option.map_eq_some_iff.mp ht
    exact ⟨_, rfl, .absData hseq acc hacc⟩
  all_goals cases h; refine ⟨_, rfl, ?_⟩
  case fetchOp.refl => exact .fetchOp hseq
  case fetchB1.refl => exact .fetchB1 hseq
  case fetchB2.refl => exact .fetchB2 hseq
  case absTry.refl => exact absTry_move hseq
  case absRel.refl => exact .absRel hseq
  case rstTry.refl => exact rstTry_move hseq
  case rstAddrLo.refl => exact .rstAddrLo hseq
  case rstReadLo.refl => exact .rstReadLo hseq
  case rstAddrHi.refl => exact .rstAddrHi hseq
  case rstReadHi.refl => exact .rstReadHi hseq
  case rstRel.refl => exact .rstRel hseq
  case rstEnd.refl => exact .resetEnd hseq

theorem cpuStep_move {s : State} {r : Result} (h : cpuStep s = some r) : ∃ t, r = .next t ∧ CpuMove s .cpu t := by
  by_cases hon : s.cpu.state = .powerOn
  · rw [cpuStep_of_powerOn hon] at h
    split at h <;> cases h
    next halive => exact ⟨_, rfl, .resetEntry halive (.inl hon)⟩
  · by_cases hoff : s.cpu.state = .powerOff
    · rw [cpuStep_of_powerOff hoff] at h
      cases h
    · rw [cpuStep_of_switchedOn (by simp [switchedOn, hon, hoff])] at h
      exact phaseStep_move h

theorem cpuTimeoutStep_move {s : State} {r : Result} (h : cpuTimeoutStep s = some r) :
    ∃ t, r = .next t ∧ CpuMove s .cpuTimeout t := by
  unfold cpuTimeoutStep at h
  split at h
  · split at h <;> cases h
    next hseq => exact ⟨_, rfl, .absTimeout hseq⟩
    next hseq => exact ⟨_, rfl, .rstTimeout hseq⟩
  · cases h

/-- An atomic event of the CPU that answers a state is one of the moves. -/
theorem eventStep_cpu {e : Event} {s t : State} (h : eventStep e s = some (.next t)) (he : e = .cpu ∨ e = .cpuTimeout) :
    CpuMove s e t := by
  obtain ⟨-, h⟩ := eventStep_some h
  rcases he with rfl | rfl
  · obtain ⟨u, hu, hmove⟩ := cpuStep_move h
    cases hu
    exact hmove
  · obtain ⟨u, hu, hmove⟩ := cpuTimeoutStep_move h
    cases hu
    exact hmove

/-! ### What a CPU step leaves of the bus and the chips -/

/-- `t` has the high pins of `s`, canonical storage if `s` has, and at most the CPU came to or left the bus. -/
structure BusFrame (s t : State) : Prop where
  owner : t.bus.owner = s.bus.owner ∨ (s.bus.owner = none ∧ t.bus.owner = some .cpu) ∨
    (s.bus.owner = some .cpu ∧ t.bus.owner = none)
  pins : ∀ j, 24 ≤ j → pinAt j t.bus.pins = pinAt j s.bus.pins
  memory : s.memoryOk → t.memoryOk

/-- A step that touches neither the bus nor the chips. -/
theorem BusFrame.of_eq {s t : State} (hbus : t.bus = s.bus) (hchips : t.chips = s.chips) : BusFrame s t :=
  ⟨.inl (by rw [hbus]), fun j _ => by rw [hbus], fun h => by rwa [State.memoryOk, hchips]⟩

theorem BusFrame.of_address {s t : State} (hchips : t.chips = s.chips) (howner : t.bus.owner = s.bus.owner) {a : Addr}
    (hpins : t.bus.pins = putAddress a s.bus.pins) : BusFrame s t :=
  ⟨.inl howner, fun j hj => by rw [hpins, pinAt_putAddress_of_le (by omega)], fun h => by rwa [State.memoryOk, hchips]⟩

theorem BusFrame.of_data {s t : State} (hchips : t.chips = s.chips) (howner : t.bus.owner = s.bus.owner) {d : Byte}
    (hpins : t.bus.pins = putData d s.bus.pins) : BusFrame s t :=
  ⟨.inl howner, fun j hj => by rw [hpins, pinAt_putData_of_outside (.inr hj)], fun h => by rwa [State.memoryOk, hchips]⟩

theorem BusFrame.of_granted {s t : State} (hchips : t.chips = s.chips) (hpins : t.bus.pins = s.bus.pins)
    (hfree : s.bus.owner = none) (howner : t.bus.owner = some .cpu) : BusFrame s t :=
  ⟨.inr (.inl ⟨hfree, howner⟩), fun j _ => by rw [hpins], fun h => by rwa [State.memoryOk, hchips]⟩

/-- The CPU's release, whether or not it holds the bus (R106, R107). -/
theorem BusFrame.of_release {s t : State} (hchips : t.chips = s.chips) (hbus : t.bus = (releaseBus .cpu s).bus) :
    BusFrame s t := by
  by_cases howner : s.bus.owner = some .cpu
  · rw [releaseBus_of_owner howner] at hbus
    exact ⟨.inr (.inr ⟨howner, by rw [hbus]⟩), fun j _ => by rw [hbus], fun h => by rwa [State.memoryOk, hchips]⟩
  · rw [releaseBus_of_not_owner howner] at hbus
    exact .of_eq hbus hchips

/-- A decoder write keeps the bus, and the storage canonical. -/
theorem BusFrame.of_memWrite {s t : State} (addr : Addr) (v : Byte) (hbus : t.bus = s.bus)
    (hchips : t.chips = (memWrite addr v s).chips) : BusFrame s t := by
  refine ⟨.inl (by rw [hbus]), fun j _ => by rw [hbus], fun h => ?_⟩
  rw [State.memoryOk, hchips]
  cases hroute : s.routeOf addr with
  | none => rwa [memWrite_of_miss hroute]
  | some ka => rw [memWrite_of_hit hroute]; exact h.chipWriteByte ka.1 ka.2 v

/-- A fetch phase touches neither the bus nor the chips (R215, D8). -/
theorem fetch_bus_chips (s : State) : (fetch s).2.bus = s.bus ∧ (fetch s).2.chips = s.chips := by
  obtain ⟨-, ev, h⟩ := fetch_spec s
  rw [h]
  split <;> exact ⟨rfl, rfl⟩

theorem fetchOp_bus_chips (s : State) : (fetchOp s).bus = s.bus ∧ (fetchOp s).chips = s.chips := by
  obtain ⟨ev, ⟨-, h⟩ | ⟨-, h⟩ | ⟨-, h⟩⟩ := fetchOp_cases s <;> rw [h] <;> exact ⟨rfl, rfl⟩

theorem fetchB1_bus_chips (s : State) : (fetchB1 s).bus = s.bus ∧ (fetchB1 s).chips = s.chips := by
  unfold fetchB1
  dsimp only
  split
  · split <;> exact fetch_bus_chips s
  · exact fetch_bus_chips s

theorem fetchB2_bus_chips (s : State) : (fetchB2 s).bus = s.bus ∧ (fetchB2 s).chips = s.chips := by
  obtain ⟨ev, ⟨-, h⟩ | h⟩ := fetchB2_cases s <;> rw [h] <;> exact ⟨rfl, rfl⟩

/-- An `EXEC` step touches neither the bus nor the chips (R217). -/
theorem exec_bus_chips {i : Instr} {s t : State} (hformat : i.format ≠ .abs) (h : exec i s = .next t) :
    t.bus = s.bus ∧ t.chips = s.chips := by
  obtain ⟨rd, v, -, -, he⟩ | ⟨-, he⟩ | ⟨-, he⟩ | ⟨rd, ea, -, -, habs, he⟩ | ⟨ea, rfl, he⟩ := exec_cases i s
  case inr.inr.inr.inl => exact absurd habs hformat
  case inr.inr.inr.inr => exact absurd rfl hformat
  all_goals rw [he] at h; cases h; exact ⟨rfl, rfl⟩

theorem CpuMove.busFrame {s t : State} {e : Event} (h : CpuMove s e t) : BusFrame s t := by
  cases h with
  | resetEntry | startInstr | absWaits | absTimeout | waitLo | rstWaits | rstTimeout | resetEnd => exact .of_eq rfl rfl
  | fetchOp => exact .of_eq (fetchOp_bus_chips s).1 (fetchOp_bus_chips s).2
  | fetchB1 => exact .of_eq (fetchB1_bus_chips s).1 (fetchB1_bus_chips s).2
  | fetchB2 => exact .of_eq (fetchB2_bus_chips s).1 (fetchB2_bus_chips s).2
  | exec hseq i hi hformat t hexec =>
    obtain ⟨hbus, hchips⟩ := exec_bus_chips hformat hexec
    exact .of_eq hbus hchips
  | absGranted hseq hfree => exact .of_granted rfl rfl hfree rfl
  | rstGranted hseq hfree => exact .of_granted rfl rfl hfree rfl
  | absAddr hseq acc hacc => cases acc <;> exact .of_address rfl rfl rfl
  | absMem hseq acc hacc =>
    cases acc with
    | load rd => rw [absMem_load]; exact .of_eq rfl rfl
    | store => exact .of_memWrite s.cpu.ea s.cpu.tmp (by rw [Machine.absMem, memWrite_eq]; rfl) rfl
  | absData hseq acc hacc => cases acc <;> exact .of_data rfl rfl rfl
  | absRel => exact .of_release rfl rfl
  | rstRel => exact .of_release rfl rfl
  | rstAddrLo => exact .of_address rfl rfl rfl
  | rstAddrHi => exact .of_address rfl rfl rfl
  | rstReadLo => rw [rstReadLo_eq]; exact .of_eq rfl rfl
  | rstReadHi => rw [rstReadHi_eq]; exact .of_eq rfl rfl

end Sys2Proof.Machine
end

section
/-! PROOFS. What no step reads (spec/10_state.md R20, R40, spec/44_cpu_sequencer.md R225–R227, spec/60_exceptions.md R305, R310): a
state with other input pins, run flag, power, earlier events or schedule steps to the same state with those values. -/

namespace Sys2Proof.Machine

/-- Other values for what the steps of a machine do not read; `none` leaves a field as it is, and `diag` is put before the events. -/
structure Overlay where
  irqb : Option Bool := none
  nmib : Option Bool := none
  sync : Option Bool := none
  resb : Option Bool := none
  rdy : Option Bool := none
  alive : Option Bool := none
  power : Option Bool := none
  diag : List DiagEvent := []
  sched : Option (List Event) := none

namespace Overlay

/-- The CPU with the values of an overlay. -/
def cpu (o : Overlay) (c : Cpu) : Cpu :=
  { c with
    irqb := o.irqb.getD c.irqb
    nmib := o.nmib.getD c.nmib
    sync := o.sync.getD c.sync
    resb := o.resb.getD c.resb
    rdy := o.rdy.getD c.rdy
    alive := o.alive.getD c.alive }

/-- What a dispatch reads is left as it is (R203–R209). -/
structure KeepsDispatch (o : Overlay) : Prop where
  resb : o.resb = none
  rdy : o.rdy = none
  alive : o.alive = none

/-- What the host drives is left as it is (R116, R222). -/
structure KeepsDriven (o : Overlay) : Prop where
  irqb : o.irqb = none
  nmib : o.nmib = none
  power : o.power = none

end Overlay

/-- A state with the values of an overlay. -/
def State.overlay (o : Overlay) (s : State) : State :=
  { s with
    cpu := o.cpu s.cpu
    bus := { s.bus with power := o.power.getD s.bus.power }
    diag := o.diag ++ s.diag
    sched := o.sched.getD s.sched }

/-- An outcome, if there is one, with the values of an overlay in its state. -/
def overlayResult (o : Overlay) (r : Option Result) : Option Result := r.map (mapNext (State.overlay o))

section
variable (o : Overlay) (s : State)

/-! ### The fields an overlay leaves -/

@[simp] theorem overlay_cfg : (s.overlay o).cfg = s.cfg := rfl
@[simp] theorem overlay_chips : (s.overlay o).chips = s.chips := rfl
@[simp] theorem overlay_clock : (s.overlay o).clock = s.clock := rfl
@[simp] theorem overlay_hostPhase : (s.overlay o).hostPhase = s.hostPhase := rfl
@[simp] theorem overlay_fault : (s.overlay o).fault = s.fault := rfl
@[simp] theorem overlay_owner : (s.overlay o).bus.owner = s.bus.owner := rfl
@[simp] theorem overlay_pins : (s.overlay o).bus.pins = s.bus.pins := rfl
@[simp] theorem overlay_diag : (s.overlay o).diag = o.diag ++ s.diag := rfl
@[simp] theorem overlay_a : (s.overlay o).cpu.a = s.cpu.a := rfl
@[simp] theorem overlay_pc : (s.overlay o).cpu.pc = s.cpu.pc := rfl
@[simp] theorem overlay_state : (s.overlay o).cpu.state = s.cpu.state := rfl
@[simp] theorem overlay_seq : (s.overlay o).cpu.seq = s.cpu.seq := rfl
@[simp] theorem overlay_opaddr : (s.overlay o).cpu.opaddr = s.cpu.opaddr := rfl
@[simp] theorem overlay_op : (s.overlay o).cpu.op = s.cpu.op := rfl
@[simp] theorem overlay_ea : (s.overlay o).cpu.ea = s.cpu.ea := rfl
@[simp] theorem overlay_tmp : (s.overlay o).cpu.tmp = s.cpu.tmp := rfl
@[simp] theorem busFree_overlay : busFree (s.overlay o) = busFree s := rfl
@[simp] theorem latchedInstr_overlay : latchedInstr (s.overlay o) = latchedInstr s := rfl
@[simp] theorem latchedAccess_overlay : latchedAccess (s.overlay o) = latchedAccess s := rfl
@[simp] theorem switchedOn_overlay : switchedOn (s.overlay o) = switchedOn s := rfl
@[simp] theorem routeOf_overlay (addr : Addr) : (s.overlay o).routeOf addr = s.routeOf addr := rfl
@[simp] theorem memByte_overlay (addr : Addr) : memByte addr (s.overlay o) = memByte addr s := rfl
@[simp] theorem accessEvents_overlay (dir : Access) (addr : Addr) :
    accessEvents dir addr (s.overlay o) = accessEvents dir addr s := rfl

/-! ### The shared operations -/

@[simp] theorem goto_overlay (q : Seq) : (s.overlay o).goto q = (s.goto q).overlay o := rfl
@[simp] theorem setChip_overlay (k : Nat) (c : Chip) : (s.overlay o).setChip k c = (s.setChip k c).overlay o := rfl
@[simp] theorem writeAddress_overlay (a : Addr) : writeAddress a (s.overlay o) = (writeAddress a s).overlay o := rfl
@[simp] theorem writeData_overlay (d : Byte) : writeData d (s.overlay o) = (writeData d s).overlay o := rfl
@[simp] theorem grantBus_overlay (id : ComponentId) : grantBus id (s.overlay o) = (grantBus id s).overlay o := rfl

@[simp] theorem log_overlay (sev : Severity) (kind : DiagKind) :
    (s.overlay o).log sev kind = (s.log sev kind).overlay o := by
  simp [State.log, State.overlay]

@[simp] theorem releaseBus_overlay (id : ComponentId) : releaseBus id (s.overlay o) = (releaseBus id s).overlay o := by
  by_cases howner : s.bus.owner = some id
  · rw [releaseBus_of_owner howner, releaseBus_of_owner (s := s.overlay o) howner]
    rfl
  · rw [releaseBus_of_not_owner howner, releaseBus_of_not_owner (s := s.overlay o) howner]

@[simp] theorem chipWriteByte_overlay (k a : Nat) (v : Byte) :
    chipWriteByte k a v (s.overlay o) = (chipWriteByte k a v s).overlay o := by
  unfold chipWriteByte logOutOfRange
  rw [overlay_chips]
  cases s.chips[k]? with
  | none => exact log_overlay o s _ _
  | some c => by_cases ha : a < c.capacity <;> simp [ha]

@[simp] theorem chipReadByte_overlay (k a : Nat) : (chipReadByte k a (s.overlay o)).2 = (chipReadByte k a s).2.overlay o := by
  unfold chipReadByte logOutOfRange
  rw [overlay_chips]
  cases s.chips[k]? with
  | none => exact log_overlay o s _ _
  | some c => by_cases ha : a < c.capacity <;> simp [ha]

@[simp] theorem chipReadWord_overlay (k a : Nat) : (chipReadWord k a (s.overlay o)).2 = (chipReadWord k a s).2.overlay o := by
  unfold chipReadWord logOutOfRange
  rw [overlay_chips]
  cases s.chips[k]? with
  | none => exact log_overlay o s _ _
  | some c => by_cases ha : a + 1 < c.capacity <;> simp [ha]

@[simp] theorem chipWriteWord_overlay (k a : Nat) (w : Addr) :
    chipWriteWord k a w (s.overlay o) = (chipWriteWord k a w s).overlay o := by
  unfold chipWriteWord logOutOfRange
  rw [overlay_chips]
  cases s.chips[k]? with
  | none => exact log_overlay o s _ _
  | some c => by_cases ha : a + 1 < c.capacity <;> simp [ha]

@[simp] theorem memRead_overlay (addr : Addr) :
    memRead addr (s.overlay o) = ((memRead addr s).1, (memRead addr s).2.overlay o) := by
  simp only [memRead_eq, memByte_overlay, routeOf_overlay, accessEvents_overlay]
  simp [State.overlay]

@[simp] theorem memWrite_overlay (addr : Addr) (v : Byte) : memWrite addr v (s.overlay o) = (memWrite addr v s).overlay o := by
  unfold memWrite
  rw [routeOf_overlay]
  cases s.routeOf addr with
  | none => exact log_overlay o s _ _
  | some ka => exact chipWriteByte_overlay o s ka.1 ka.2 v

@[simp] theorem halt_overlay : halt (s.overlay o) = (halt s).overlay o := rfl
@[simp] theorem resetEntry_overlay : resetEntry (s.overlay o) = (resetEntry s).overlay o := rfl
@[simp] theorem resetEnd_overlay : resetEnd (s.overlay o) = (resetEnd s).overlay o := rfl
@[simp] theorem startInstr_overlay : startInstr (s.overlay o) = (startInstr s).overlay o := rfl

@[simp] theorem fetch_overlay : fetch (s.overlay o) = ((fetch s).1, (fetch s).2.overlay o) := by
  unfold fetch
  simp only [overlay_pc, memRead_overlay]
  split <;> rfl

/-! ### The phases of the CPU -/

@[simp] theorem unimplemented_overlay (op : Byte) :
    unimplemented op (s.overlay o) = (unimplemented op s).overlay o := by
  simp [unimplemented]

@[simp] theorem fetchOp_overlay : fetchOp (s.overlay o) = (fetchOp s).overlay o := by
  unfold fetchOp
  rw [fetch_overlay]
  dsimp only
  split
  · split
    case h_4 => exact unimplemented_overlay o ((fetch s).2.mapCpu fun c => { c with op := (fetch s).1.1 }) _
    all_goals rfl
  · rfl

@[simp] theorem fetchB1_overlay : fetchB1 (s.overlay o) = (fetchB1 s).overlay o := by
  unfold fetchB1
  rw [fetch_overlay]
  simp only [State.mapCpu_cpu, overlay_op]
  split
  · split <;> rfl
  · rfl

@[simp] theorem fetchB2_overlay : fetchB2 (s.overlay o) = (fetchB2 s).overlay o := by
  unfold fetchB2
  rw [fetch_overlay]
  dsimp only
  split <;> rfl

@[simp] theorem absTry_overlay : absTry (s.overlay o) = (absTry s).overlay o := by
  unfold absTry
  rw [busFree_overlay]
  split <;> rfl

@[simp] theorem absTimeout_overlay : absTimeout (s.overlay o) = (absTimeout s).overlay o := by
  rw [absTimeout, log_overlay]
  rfl

@[simp] theorem absAddr_overlay (acc : AbsAccess) (ea : Addr) : absAddr acc ea (s.overlay o) = (absAddr acc ea s).overlay o := by
  cases acc <;> rfl

@[simp] theorem absMem_overlay (acc : AbsAccess) (ea : Addr) : absMem acc ea (s.overlay o) = (absMem acc ea s).overlay o := by
  cases acc with
  | load rd =>
    simp only [absMem, memRead_overlay]
    cases rd <;> rfl
  | store => simp [absMem]

@[simp] theorem absData_overlay (acc : AbsAccess) : absData acc (s.overlay o) = (absData acc s).overlay o := by
  cases acc <;> rfl

@[simp] theorem absRel_overlay : absRel (s.overlay o) = (absRel s).overlay o := by
  rw [absRel, releaseBus_overlay]
  rfl

theorem absBracket_overlay (acc : AbsAccess) (ea : Addr) : absBracket acc ea (s.overlay o) = (absBracket acc ea s).overlay o := by
  unfold absBracket
  rw [busFree_overlay]
  split
  · cases acc <;> simp [absGranted]
  · simp

@[simp] theorem exec_overlay (i : Instr) : exec i (s.overlay o) = mapNext (State.overlay o) (exec i s) := by
  have hbracket (acc : AbsAccess) (ea : Addr) := congrArg (Host.Outcome.next (φ := Fault) (ρ := Refusal))
    (absBracket_overlay o s acc ea)
  cases i
  case ldaAbs ea => exact hbracket (.load .a) ea
  case ldxAbs ea => exact hbracket (.load .x) ea
  case ldyAbs ea => exact hbracket (.load .y) ea
  case staAbs ea => exact hbracket .store ea
  all_goals rfl

@[simp] theorem rstTry_overlay : rstTry (s.overlay o) = (rstTry s).overlay o := by
  unfold rstTry
  rw [busFree_overlay]
  split <;> rfl

@[simp] theorem rstTimeout_overlay : rstTimeout (s.overlay o) = (rstTimeout s).overlay o := by
  simp [rstTimeout]

@[simp] theorem rstAddrLo_overlay : rstAddrLo (s.overlay o) = (rstAddrLo s).overlay o := rfl
@[simp] theorem rstAddrHi_overlay : rstAddrHi (s.overlay o) = (rstAddrHi s).overlay o := rfl

@[simp] theorem rstReadLo_overlay : rstReadLo (s.overlay o) = (rstReadLo s).overlay o := by
  simp only [rstReadLo, overlay_cfg, memRead_overlay]
  rfl

@[simp] theorem rstReadHi_overlay : rstReadHi (s.overlay o) = (rstReadHi s).overlay o := by
  simp only [rstReadHi, overlay_cfg, memRead_overlay]
  rfl

@[simp] theorem rstRel_overlay : rstRel (s.overlay o) = (rstRel s).overlay o := by
  rw [rstRel, releaseBus_overlay]
  rfl

@[simp] theorem resetSpan_overlay : resetSpan (s.overlay o) = (resetSpan s).overlay o := by
  unfold resetSpan rstGranted
  rw [busFree_overlay]
  split <;> simp

@[simp] theorem fetchOperands_overlay : fetchOperands (s.overlay o) = (fetchOperands s).overlay o := by
  have hfirst : (if s.cpu.seq = .fetchB1 then fetchB1 (s.overlay o) else s.overlay o) =
      (if s.cpu.seq = .fetchB1 then fetchB1 s else s).overlay o := by
    split <;> simp
  unfold fetchOperands
  dsimp only
  rw [overlay_seq o s, hfirst, overlay_seq]
  generalize (if s.cpu.seq = .fetchB1 then fetchB1 s else s) = t
  split <;> simp

@[simp] theorem fetchInstr_overlay : fetchInstr (s.overlay o) = (fetchInstr s).overlay o := by
  simp [fetchInstr]

@[simp] theorem runFetched_overlay : runFetched (s.overlay o) = mapNext (State.overlay o) (runFetched s) := by
  unfold runFetched
  rw [overlay_seq, latchedInstr_overlay]
  split
  · split
    · exact exec_overlay o s _
    · rfl
  · rfl

end

/-! ### The steps of the CPU -/

section
variable {o : Overlay} {s : State}

@[simp] theorem overlayResult_none : overlayResult o none = none := rfl

@[simp] theorem overlayResult_next (t : State) : overlayResult o (some (.next t)) = some (.next (t.overlay o)) := rfl

theorem overlayResult_answers (r : Option State) : overlayResult o (answers r) = answers (r.map (State.overlay o)) := by
  cases r <;> rfl

theorem powerOnReady_overlay (ho : o.KeepsDispatch) : powerOnReady (s.overlay o) = powerOnReady s := by
  simp [powerOnReady, State.overlay, Overlay.cpu, ho.alive]

theorem dispatchStart_overlay (ho : o.KeepsDispatch) : dispatchStart (s.overlay o) = dispatchStart s := by
  simp [dispatchStart, State.overlay, Overlay.cpu, ho.alive, ho.resb, ho.rdy]

theorem dispatchStep_overlay (ho : o.KeepsDispatch) :
    dispatchStep (s.overlay o) = (dispatchStep s).map (State.overlay o) := by
  unfold dispatchStep
  rw [dispatchStart_overlay ho]
  cases dispatchStart s with
  | none => rfl
  | some start => cases start <;> rfl

theorem absGrant_overlay : absGrant (s.overlay o) = (absGrant s).map (State.overlay o) := by
  unfold absGrant
  rw [busFree_overlay]
  split <;> rfl

theorem rstGrant_overlay : rstGrant (s.overlay o) = (rstGrant s).map (State.overlay o) := by
  unfold rstGrant
  rw [busFree_overlay]
  split <;> rfl

theorem waitLoStep_overlay : waitLoStep (s.overlay o) = (waitLoStep s).map (State.overlay o) := by
  unfold waitLoStep
  rw [overlay_clock, overlay_state]
  split <;> rfl

theorem execStep_overlay : execStep (s.overlay o) = overlayResult o (execStep s) := by
  unfold execStep
  rw [latchedInstr_overlay]
  split
  · split <;> simp [overlayResult]
  · rfl

/-- A phase other than `WAIT_HI` reads nothing an overlay gives, and `WAIT_HI` reads what a dispatch reads. -/
theorem phaseStep_overlay (h : s.cpu.seq ≠ .waitHi ∨ o.KeepsDispatch) :
    phaseStep (s.overlay o) = overlayResult o (phaseStep s) := by
  have hacc (f : AbsAccess → State → State) (hf : ∀ acc, f acc (s.overlay o) = (f acc s).overlay o) :
      answers ((latchedAccess s).map fun acc => f acc (s.overlay o)) =
        overlayResult o (answers ((latchedAccess s).map fun acc => f acc s)) := by
    cases latchedAccess s with
    | none => rfl
    | some acc => simp [answers, hf]
  unfold phaseStep
  rw [overlay_seq]
  cases hseq : s.cpu.seq <;> dsimp only
  case waitHi =>
    rw [dispatchStep_overlay (h.resolve_left (not_not_intro hseq)), overlayResult_answers]
  case exec => exact execStep_overlay
  case absWait => rw [absGrant_overlay, overlayResult_answers]
  case rstWait => rw [rstGrant_overlay, overlayResult_answers]
  case waitLo => rw [waitLoStep_overlay, overlayResult_answers]
  case absAddr => exact hacc (fun acc t => absAddr acc s.cpu.ea t) fun acc => absAddr_overlay o s acc _
  case absMem => exact hacc (fun acc t => absMem acc s.cpu.ea t) fun acc => absMem_overlay o s acc _
  case absData => exact hacc absData fun acc => absData_overlay o s acc
  all_goals simp

/-- Settles O25: the values are an overlay, and a phase other than `WAIT_HI` does not read them (`phaseStep_overlay`). -/
theorem noAbortInsideAnInstruction : Obligations.NoAbortInsideAnInstruction := by
  intro s resb rdy irqb nmib alive hseq hon
  rw [cpuStep_of_switchedOn hon]
  exact (cpuStep_of_switchedOn (s := s.overlay
    { resb := some resb, rdy := some rdy, irqb := some irqb, nmib := some nmib, alive := some alive }) hon).trans
    (phaseStep_overlay (.inl hseq))

end

end Sys2Proof.Machine
end

section
/-! PROOFS. What no step reads, for every agent and the machine's step (spec/10_state.md R40, R41, spec/60_exceptions.md R305, R310). -/

namespace Sys2Proof.Machine

section
variable {o : Overlay} {s : State}

/-! ### The CPU's three events -/

theorem cpuStep_overlay (ho : o.KeepsDispatch) : cpuStep (s.overlay o) = overlayResult o (cpuStep s) := by
  unfold cpuStep
  rw [overlay_state, powerOnReady_overlay ho]
  cases s.cpu.state with
  | powerOff => rfl
  | powerOn => dsimp only; split <;> rfl
  | reset | running | halted => exact phaseStep_overlay (.inr ho)

theorem cpuTimeoutStep_overlay : cpuTimeoutStep (s.overlay o) = overlayResult o (cpuTimeoutStep s) := by
  unfold cpuTimeoutStep
  rw [switchedOn_overlay, overlay_seq]
  split
  · cases s.cpu.seq <;> simp
  · rfl

theorem cpuSpanStep_overlay (ho : o.KeepsDispatch) : cpuSpanStep (s.overlay o) = overlayResult o (cpuSpanStep s) := by
  unfold cpuSpanStep
  rw [powerOnReady_overlay ho, dispatchStart_overlay ho, resetSpan_overlay, fetchInstr_overlay, runFetched_overlay]
  split
  · rfl
  · cases dispatchStart s with
    | none => rfl
    | some start => cases start <;> rfl

/-! ### The chips, the clock and the host -/

theorem poll_overlay (k : Nat) (c : Chip) : poll k c (s.overlay o) = (poll k c s).overlay o := by
  unfold poll writeCycle readCycle logOutOfRange
  cases chipAction c <;> dsimp only
  case write => split <;> simp
  case read => split <;> simp

theorem chipPhaseStep_overlay (k : Nat) (c : Chip) :
    chipPhaseStep k c (s.overlay o) = (chipPhaseStep k c s).map (State.overlay o) := by
  unfold chipPhaseStep chipGranted
  rw [busFree_overlay, poll_overlay]
  cases c.phase <;> dsimp only
  case top => split <;> rfl
  case wait => split <;> rfl
  case drive => rfl
  case rel => simp
  · split <;> rfl

theorem chipStep_overlay (k : Nat) : chipStep k (s.overlay o) = (chipStep k s).map (State.overlay o) := by
  unfold chipStep
  rw [overlay_chips]
  cases s.chips[k]? with
  | none => rfl
  | some c => exact chipPhaseStep_overlay k c

theorem chipTimeoutStep_overlay (k : Nat) :
    chipTimeoutStep k (s.overlay o) = (chipTimeoutStep k s).map (State.overlay o) := by
  unfold chipTimeoutStep
  rw [overlay_chips]
  cases s.chips[k]? with
  | none => rfl
  | some c => dsimp only; split <;> simp

theorem clockAgentStep_overlay : clockAgentStep (s.overlay o) = (clockAgentStep s).map (State.overlay o) := by
  unfold clockAgentStep
  rw [overlay_clock]
  split <;> rfl

theorem hostGrantStep_overlay : hostGrantStep (s.overlay o) = (hostGrantStep s).map (State.overlay o) := by
  unfold hostGrantStep
  rw [overlay_hostPhase, busFree_overlay]
  split <;> rfl

theorem hostTimeoutStep_overlay : hostTimeoutStep (s.overlay o) = (hostTimeoutStep s).map (State.overlay o) := by
  unfold hostTimeoutStep
  rw [overlay_hostPhase]
  split <;> rfl

theorem hostRequest_overlay : hostRequest (s.overlay o) = (hostRequest s).map (State.overlay o) := by
  unfold hostRequest
  rw [overlay_hostPhase, busFree_overlay]
  cases s.hostPhase <;> dsimp only
  case idle => split <;> rfl
  case wait => rfl

theorem onChip_overlay (k : Nat) (f f' : Chip → State) (h : ∀ c, f' c = (f c).overlay o) :
    onChip k (s.overlay o) f' = (onChip k s f).map (State.overlay o) := by
  unfold onChip
  rw [overlay_chips]
  cases s.chips[k]? with
  | none => rfl
  | some c => exact congrArg some (h c)

/-- A host action other than driving an overlaid field reads nothing the overlay gives. -/
theorem hostStep_overlay (ho : o.KeepsDispatch) {act : HostAction}
    (hact : o.KeepsDriven ∨ ((∀ p, act ≠ .driveCpu p) ∧ ∀ v, act ≠ .setPower v)) :
    hostStep act (s.overlay o) = (hostStep act s).map (State.overlay o) := by
  cases act <;> dsimp only [hostStep]
  case request => exact hostRequest_overlay
  case driveChip k p => exact onChip_overlay k _ _ fun c => rfl
  case readByte k a => exact onChip_overlay k _ _ fun c => chipReadByte_overlay o s k a
  case writeByte k a v => exact onChip_overlay k _ _ fun c => chipWriteByte_overlay o s k a v
  case readWord k a => exact onChip_overlay k _ _ fun c => chipReadWord_overlay o s k a
  case writeWord k a w => exact onChip_overlay k _ _ fun c => chipWriteWord_overlay o s k a w
  case setPin i v => unfold setPin; rw [overlay_cfg]; split <;> rfl
  case getPin i => unfold getPin; rw [overlay_cfg]; split <;> rfl
  case release => rw [releaseBus_overlay]; rfl
  case decoderRead addr => rw [memRead_overlay]; rfl
  case decoderWrite addr v => rw [memWrite_overlay]; rfl
  case powerOn =>
    by_cases hoff : s.cpu.state = .powerOff
    · rw [powerOn_of_powerOff hoff, powerOn_of_powerOff (s := s.overlay o) hoff]; rfl
    · rw [powerOn_of_not_powerOff hoff, powerOn_of_not_powerOff (s := s.overlay o) hoff]; rfl
  case driveCpu p =>
    have hdriven := hact.resolve_right fun h => h.1 p rfl
    simp [State.mapCpu, State.overlay, Overlay.cpu, Cpu.drive, ho.resb, ho.rdy, hdriven.irqb, hdriven.nmib]
  case setPower v =>
    have hdriven := hact.resolve_right fun h => h.2 v rfl
    simp [State.mapBus, State.overlay, hdriven.power]
  case stop a =>
    cases a <;> dsimp only [stopAgent]
    case cpu => simp [State.mapCpu, State.overlay, Overlay.cpu, ho.alive]
    case chip k => exact onChip_overlay k _ _ fun c => rfl
    case clock => rfl
  all_goals rfl

/-! ### Events and the machine's step -/

/-- The event drives no field that the overlay gives. -/
def Overlay.Undriven (o : Overlay) (e : Event) : Prop :=
  o.KeepsDriven ∨ ((∀ p, e ≠ .host (.driveCpu p)) ∧ ∀ v, e ≠ .host (.setPower v))

theorem agentStep_overlay (ho : o.KeepsDispatch) {e : Event} (he : o.Undriven e) :
    agentStep e (s.overlay o) = overlayResult o (agentStep e s) := by
  cases e <;> dsimp only [agentStep]
  case cpu => exact cpuStep_overlay ho
  case cpuTimeout => exact cpuTimeoutStep_overlay
  case cpuSpan => exact cpuSpanStep_overlay ho
  case chip k => rw [chipStep_overlay, overlayResult_answers]
  case chipTimeout k => rw [chipTimeoutStep_overlay, overlayResult_answers]
  case clock => rw [clockAgentStep_overlay, overlayResult_answers]
  case hostGrant => rw [hostGrantStep_overlay, overlayResult_answers]
  case hostTimeout => rw [hostTimeoutStep_overlay, overlayResult_answers]
  case host act => rw [hostStep_overlay ho (by simpa [Overlay.Undriven] using he), overlayResult_answers]

theorem eventStep_overlay (ho : o.KeepsDispatch) {e : Event} (he : o.Undriven e) :
    eventStep e (s.overlay o) = overlayResult o (eventStep e s) := by
  unfold eventStep
  rw [overlay_fault]
  cases s.fault with
  | some r => rfl
  | none => exact agentStep_overlay ho he

theorem runEvent_overlay (ho : o.KeepsDispatch) {e : Event} (he : o.Undriven e) :
    runEvent e (s.overlay o) = mapNext (State.overlay o) (runEvent e s) := by
  unfold runEvent
  rw [eventStep_overlay ho he]
  cases eventStep e s <;> rfl

section
variable (hsched : o.sched = none)
include hsched

theorem nextEvent_overlay : (s.overlay o).nextEvent = s.nextEvent := by
  simp [State.nextEvent, State.overlay, hsched]

theorem takeEvent_overlay : (s.overlay o).takeEvent = s.takeEvent.overlay o := by
  cases hs : s.sched <;> simp [State.takeEvent, State.overlay, hsched, hs]

theorem step_overlay (ho : o.KeepsDispatch) (he : o.Undriven s.nextEvent) :
    step (s.overlay o) = mapNext (State.overlay o) (step s) := by
  unfold step
  rw [overlay_fault, nextEvent_overlay hsched, takeEvent_overlay hsched]
  cases s.fault with
  | some r => rfl
  | none => exact runEvent_overlay ho he

end

end

/-- Settles O55: earlier events are an overlay, which no step reads (`step_overlay`). -/
theorem diagnosticsAreAppendedAndUnread : Obligations.DiagnosticsAreAppendedAndUnread := by
  intro s d
  exact step_overlay (o := { diag := d }) rfl ⟨rfl, rfl, rfl⟩ (.inl ⟨rfl, rfl, rfl⟩)

/-! ### The pins and the field nobody reads (R20, R116, R225, R305) -/

/-- The overlay that gives `IRQB`, `NMIB`, `SYNC` and `Bus.power` of a state. -/
def unreadOf (s : State) : Overlay where
  irqb := some s.cpu.irqb
  nmib := some s.cpu.nmib
  sync := some s.cpu.sync
  power := some s.bus.power

theorem equalButUnread_iff {s t : State} : equalButUnread s t ↔ s = t.overlay (unreadOf s) := Iff.rfl

/-- States that an overlay of those four makes equal differ at most in them. -/
theorem equalButUnread_overlay {o : Overlay} (ho : o.KeepsDispatch) (hdiag : o.diag = []) (hsched : o.sched = none)
    (t : State) : equalButUnread (t.overlay o) t := by
  simp [equalButUnread, State.overlay, Overlay.cpu, ho.resb, ho.rdy, ho.alive, hdiag, hsched]

/-- A result and the same result with an overlay of those four agree. -/
theorem outcomesAgree_mapNext {o : Overlay} (ho : o.KeepsDispatch) (hdiag : o.diag = []) (hsched : o.sched = none)
    (r : Result) : outcomesAgree equalButUnread (mapNext (State.overlay o) r) r := by
  cases r with
  | next t => exact equalButUnread_overlay ho hdiag hsched t
  | fault e => rfl
  | refused e => rfl

/-- The host drives the same values into states that differ at most in those four. -/
theorem equalButUnread_drive {s t : State} (h : equalButUnread s t) (p : CpuDrive) :
    equalButUnread (s.mapCpu (Cpu.drive p)) (t.mapCpu (Cpu.drive p)) := by
  unfold equalButUnread at h ⊢
  rw [h]
  rfl

theorem equalButUnread_power {s t : State} (h : equalButUnread s t) (v : Bool) :
    equalButUnread (s.mapBus fun b => { b with power := v }) (t.mapBus fun b => { b with power := v }) := by
  unfold equalButUnread at h ⊢
  rw [h]
  rfl

/-- A scheduled host action that has a step is the machine's step. -/
theorem step_of_hostStep {s t : State} {act : HostAction} (hfault : s.fault = none) (he : s.nextEvent = .host act)
    (h : hostStep act s.takeEvent = some t) : step s = .next t := by
  have htaken : s.takeEvent.fault = none := by
    unfold State.takeEvent
    split <;> exact hfault
  simp only [step, hfault, he]
  exact runEvent_of_enabled (eventStep_host htaken h)

/-- Settles O56: the difference is an overlay, which no step reads (`step_overlay`) but the host's two actions that write it. -/
theorem unreadPinsHaveNoEffect : Obligations.UnreadPinsHaveNoEffect := by
  intro s t h
  have hdispatch : (unreadOf s).KeepsDispatch := ⟨rfl, rfl, rfl⟩
  have hoverlay := equalButUnread_iff.mp h
  by_cases he : (unreadOf s).Undriven t.nextEvent
  · rw [hoverlay, step_overlay (o := unreadOf s) rfl hdispatch he]
    exact outcomesAgree_mapNext hdispatch rfl rfl _
  · have hfault : s.fault = t.fault := by rw [hoverlay]; rfl
    have hnext : s.nextEvent = t.nextEvent := by rw [hoverlay]; exact nextEvent_overlay rfl
    have htaken : equalButUnread s.takeEvent t.takeEvent := by
      rw [hoverlay, takeEvent_overlay rfl]
      exact equalButUnread_overlay hdispatch rfl rfl _
    cases ht : t.fault with
    | some r =>
      rw [step_of_fault ht, step_of_fault (hfault.trans ht)]
      rfl
    | none =>
      have hs := hfault.trans ht
      obtain ⟨p, hp⟩ | ⟨v, hv⟩ : (∃ p, t.nextEvent = .host (.driveCpu p)) ∨ ∃ v, t.nextEvent = .host (.setPower v) := by
        by_contra hneither
        rw [not_or, not_exists, not_exists] at hneither
        exact he (.inr hneither)
      · rw [step_of_hostStep ht hp rfl, step_of_hostStep hs (hnext.trans hp) rfl]
        exact equalButUnread_drive htaken p
      · rw [step_of_hostStep ht hv rfl, step_of_hostStep hs (hnext.trans hv) rfl]
        exact equalButUnread_power htaken v

end Sys2Proof.Machine
end

section
/-! PROOFS. Runs that play a list of events (spec/00_scope.md R10, R12, spec/20_memory.md R69): a scheduled list is run step by step,
and a span of the CPU is the run of its atomic steps (spec/44_cpu_sequencer.md R206–R221, spec/70_reset_and_hazards.md R330–R338). -/

namespace Sys2Proof.Machine

/-! ### Playing a list of events -/

/-- The events of a list, each enabled in its turn, lead from one state to another. -/
inductive Plays : List Event → State → State → Prop where
  | nil (s : State) : Plays [] s s
  | cons {e : Event} {evs : List Event} {s u t : State} (hstep : eventStep e s = some (.next u))
      (hrest : Plays evs u t) : Plays (e :: evs) s t

theorem Plays.append {evs evs' : List Event} {s u t : State} (h : Plays evs s u) (h' : Plays evs' u t) :
    Plays (evs ++ evs') s t := by
  induction h with
  | nil s => exact h'
  | cons hstep _ ih => exact .cons hstep (ih h')

/-- An event does the same under any schedule. -/
theorem eventStep_sched {e : Event} {s t : State} (h : eventStep e s = some (.next t)) (evs : List Event) :
    eventStep e { s with sched := evs } = some (.next { t with sched := evs }) := by
  have hoverlay := eventStep_overlay (o := { sched := some evs }) (s := s) (e := e) ⟨rfl, rfl, rfl⟩
    (.inl ⟨rfl, rfl, rfl⟩)
  rw [h] at hoverlay
  exact hoverlay

/-- The next step of a state with an event scheduled that is enabled in it. -/
theorem step_of_eventStep {e : Event} {s t : State} (h : eventStep e s = some (.next t)) (rest : List Event) :
    step { s with sched := e :: rest } = .next { t with sched := rest } := by
  rw [step_of_sched (s := { s with sched := e :: rest }) (eventStep_some h).1 rfl]
  exact runEvent_of_enabled (eventStep_sched h rest)

/-- A list of events that can be played is run when it is scheduled. -/
theorem Plays.run {evs : List Event} {s t : State} (h : Plays evs s t) (rest : List Event) :
    Host.Core.run Sys2Proof.core evs.length { s with sched := evs ++ rest } = .next { t with sched := rest } := by
  induction h with
  | nil s => rfl
  | @cons e evs s u t hstep _ ih =>
    have hfirst : Sys2Proof.core.step { s with sched := e :: (evs ++ rest) } = .next { u with sched := evs ++ rest } :=
      step_of_eventStep hstep (evs ++ rest)
    simp only [List.length_cons, List.cons_append, Host.Core.run]
    rw [hfirst]
    exact ih

/-- Settles O5: `step_of_fault`, `step_of_sched` and `step_of_no_sched`, with the event enabled or not. -/
theorem stepRunsTheScheduledEvent : Obligations.StepRunsTheScheduledEvent := by
  have hagent {s : State} (hfault : s.fault = none) (e : Event) (rest : List Event) :
      eventStep e { s with sched := rest } = agentStep e { s with sched := rest } :=
    eventStep_of_no_fault (s := { s with sched := rest }) hfault
  refine ⟨fun s r hr => step_of_fault hr, fun s e rest r hfault hs h => ?enabled, fun s e rest hfault hs h => ?disabled,
    fun s hfault hs => step_of_no_sched hfault hs⟩
  case enabled => rw [step_of_sched hfault hs, runEvent_of_enabled ((hagent hfault e rest).trans h)]
  case disabled => rw [step_of_sched hfault hs, runEvent_of_disabled ((hagent hfault e rest).trans h)]

/-! ### Runs of the CPU alone -/

theorem Plays.cpu {evs : List Event} {s u t : State} (hfault : s.fault = none) (hstep : cpuStep s = some (.next u))
    (hrest : u.fault = none → Plays evs u t) : Plays (.cpu :: evs) s t := by
  refine .cons ((eventStep_of_no_fault hfault).trans hstep) (hrest ?_)
  obtain ⟨v, hv, hframe⟩ := frame_cpuStep hstep
  cases hv
  rw [hframe.fault, hfault]

theorem Plays.cpuTimeout {evs : List Event} {s u t : State} (hfault : s.fault = none)
    (hstep : cpuTimeoutStep s = some (.next u)) (hrest : u.fault = none → Plays evs u t) :
    Plays (.cpuTimeout :: evs) s t := by
  refine .cons ((eventStep_of_no_fault hfault).trans hstep) (hrest ?_)
  obtain ⟨v, hv, hframe⟩ := frame_cpuTimeoutStep hstep
  cases hv
  rw [hframe.fault, hfault]

/-- The CPU's own steps lead from one state to another. -/
def CpuPlays (s t : State) : Prop := ∃ evs : List Event, (∀ e ∈ evs, e = .cpu ∨ e = .cpuTimeout) ∧ Plays evs s t

theorem CpuPlays.refl (s : State) : CpuPlays s s := ⟨[], by simp, .nil s⟩

theorem CpuPlays.trans {s u t : State} (h : CpuPlays s u) (h' : CpuPlays u t) : CpuPlays s t := by
  obtain ⟨evs, hevs, hplays⟩ := h
  obtain ⟨evs', hevs', hplays'⟩ := h'
  refine ⟨evs ++ evs', fun e he => ?_, hplays.append hplays'⟩
  rcases List.mem_append.mp he with he | he
  · exact hevs e he
  · exact hevs' e he

theorem CpuPlays.step {s t : State} (hfault : s.fault = none) (h : cpuStep s = some (.next t)) : CpuPlays s t :=
  ⟨[.cpu], by simp, .cpu hfault h fun _ => .nil t⟩

/-- The CPU's steps keep the fault as it is: none. -/
theorem Plays.fault {evs : List Event} {s t : State} (h : Plays evs s t) (hevs : ∀ e ∈ evs, e = .cpu ∨ e = .cpuTimeout) :
    t.fault = s.fault := by
  induction h with
  | nil s => rfl
  | cons hstep _ ih =>
    obtain ⟨-, hstep⟩ := eventStep_some hstep
    rw [ih fun e he => hevs e (List.mem_cons_of_mem _ he)]
    rcases hevs _ List.mem_cons_self with rfl | rfl
    · obtain ⟨v, hv, hframe⟩ := frame_cpuStep hstep
      cases hv
      exact hframe.fault
    · obtain ⟨v, hv, hframe⟩ := frame_cpuTimeoutStep hstep
      cases hv
      exact hframe.fault

theorem CpuPlays.fault {s t : State} (h : CpuPlays s t) : t.fault = s.fault := by
  obtain ⟨evs, hevs, hplays⟩ := h
  exact hplays.fault hevs

/-! ### A whole reset (R330–R334) -/

section
variable {s : State} (hstate : s.cpu.state = .reset)
include hstate

theorem cpuStep_rstTry (hseq : s.cpu.seq = .rstTry) : cpuStep s = some (.next (rstTry s)) := by
  rw [cpuStep_of_reset hstate, phaseStep, hseq]

theorem cpuStep_rstAddrLo (hseq : s.cpu.seq = .rstAddrLo) : cpuStep s = some (.next (rstAddrLo s)) := by
  rw [cpuStep_of_reset hstate, phaseStep, hseq]

theorem cpuStep_rstReadLo (hseq : s.cpu.seq = .rstReadLo) : cpuStep s = some (.next (rstReadLo s)) := by
  rw [cpuStep_of_reset hstate, phaseStep, hseq]

theorem cpuStep_rstAddrHi (hseq : s.cpu.seq = .rstAddrHi) : cpuStep s = some (.next (rstAddrHi s)) := by
  rw [cpuStep_of_reset hstate, phaseStep, hseq]

theorem cpuStep_rstReadHi (hseq : s.cpu.seq = .rstReadHi) : cpuStep s = some (.next (rstReadHi s)) := by
  rw [cpuStep_of_reset hstate, phaseStep, hseq]

theorem cpuStep_rstRel (hseq : s.cpu.seq = .rstRel) : cpuStep s = some (.next (rstRel s)) := by
  rw [cpuStep_of_reset hstate, phaseStep, hseq]

theorem cpuStep_rstEnd (hseq : s.cpu.seq = .rstEnd) : cpuStep s = some (.next (resetEnd s)) := by
  rw [cpuStep_of_reset hstate, phaseStep, hseq]

end

theorem rstReadLo_state_seq (s : State) :
    (rstReadLo s).cpu.state = s.cpu.state ∧ (rstReadLo s).cpu.seq = .rstAddrHi := by
  rw [rstReadLo_eq]
  exact ⟨rfl, rfl⟩

theorem rstReadHi_state_seq (s : State) :
    (rstReadHi s).cpu.state = s.cpu.state ∧ (rstReadHi s).cpu.seq = .rstRel := by
  rw [rstReadHi_eq]
  exact ⟨rfl, rfl⟩

/-- From the grant to the end of the reset (R332 lines 2–6, R334). -/
theorem plays_rstGranted {s : State} (hstate : s.cpu.state = .reset) (hfault : s.fault = none)
    (hseq : s.cpu.seq = .rstAddrLo) : Plays [.cpu, .cpu, .cpu, .cpu, .cpu, .cpu] s (resetEnd (rstGranted s)) := by
  have hlo := rstReadLo_state_seq (rstAddrLo s)
  have hlo_state := hlo.1.trans hstate
  have hhi := rstReadHi_state_seq (rstAddrHi (rstReadLo (rstAddrLo s)))
  have hhi_state := hhi.1.trans hlo_state
  refine .cpu hfault (cpuStep_rstAddrLo hstate hseq) fun hfault => ?_
  refine .cpu hfault (cpuStep_rstReadLo hstate rfl) fun hfault => ?_
  refine .cpu hfault (cpuStep_rstAddrHi hlo_state hlo.2) fun hfault => ?_
  refine .cpu hfault (cpuStep_rstReadHi hlo_state rfl) fun hfault => ?_
  refine .cpu hfault (cpuStep_rstRel hhi_state hhi.2) fun hfault => ?_
  exact .cpu hfault (cpuStep_rstEnd hhi_state rfl) fun _ => .nil _

section
variable {s : State} (hfault : s.fault = none) (hentry : cpuStep s = some (.next (resetEntry s)))
include hfault hentry

/-- With the bus free a whole reset is eight steps of the CPU. -/
theorem plays_resetSpan_of_free (hfree : s.bus.owner = none) :
    Plays [.cpu, .cpu, .cpu, .cpu, .cpu, .cpu, .cpu, .cpu] s (resetSpan s) := by
  rw [resetSpan, busFree_of_none hfree, if_pos rfl]
  refine .cpu hfault hentry fun hfault => .cpu hfault (cpuStep_rstTry rfl rfl) fun hfault => ?_
  rw [rstTry_of_free (s := resetEntry s) hfree] at hfault ⊢
  exact plays_rstGranted rfl hfault rfl

/-- With the bus held a whole reset is four, the third the timeout. -/
theorem plays_resetSpan_of_held (hheld : s.bus.owner ≠ none) :
    Plays [.cpu, .cpu, .cpuTimeout, .cpu] s (resetSpan s) := by
  rw [resetSpan, busFree_of_owner hheld, if_neg Bool.false_ne_true]
  refine .cpu hfault hentry fun hfault => .cpu hfault (cpuStep_rstTry rfl rfl) fun hfault => ?_
  rw [rstTry_of_held (s := resetEntry s) hheld] at hfault ⊢
  refine .cpuTimeout hfault (cpuTimeoutStep_of_rstWait rfl rfl) fun hfault => ?_
  exact .cpu hfault (cpuStep_rstEnd rfl rfl) fun _ => .nil _

theorem cpuPlays_resetSpan : CpuPlays s (resetSpan s) := by
  by_cases hfree : s.bus.owner = none
  · exact ⟨_, by simp, plays_resetSpan_of_free hfault hentry hfree⟩
  · exact ⟨_, by simp, plays_resetSpan_of_held hfault hentry hfree⟩

end

/-! ### The fetches of an instruction (R206, R210–R213) -/

section
variable {s : State} (hrun : s.cpu.state = .running)
include hrun

theorem cpuStep_fetchOp (hseq : s.cpu.seq = .fetchOp) : cpuStep s = some (.next (fetchOp s)) := by
  rw [cpuStep_of_running hrun, phaseStep, hseq]

theorem cpuStep_fetchB1 (hseq : s.cpu.seq = .fetchB1) : cpuStep s = some (.next (fetchB1 s)) := by
  rw [cpuStep_of_running hrun, phaseStep, hseq]

theorem cpuStep_fetchB2 (hseq : s.cpu.seq = .fetchB2) : cpuStep s = some (.next (fetchB2 s)) := by
  rw [cpuStep_of_running hrun, phaseStep, hseq]

end

/-- An opcode fetch that does not halt leaves the CPU in its state (R211, R215). -/
theorem fetchOp_state {s : State} (h : (fetchOp s).cpu.seq ≠ .waitLo) : (fetchOp s).cpu.state = s.cpu.state := by
  obtain ⟨ev, ⟨-, he⟩ | ⟨-, he⟩ | ⟨-, he⟩⟩ := fetchOp_cases s <;> rw [he] at h ⊢
  exact absurd rfl h

/-- A first operand fetch that does not halt leaves the CPU in its state (R212, R215). -/
theorem fetchB1_state {s : State} (h : (fetchB1 s).cpu.seq ≠ .waitLo) : (fetchB1 s).cpu.state = s.cpu.state := by
  cases hroute : s.routeOf s.cpu.pc with
  | none => rw [fetchB1_of_miss hroute] at h; exact absurd rfl h
  | some ka =>
    unfold fetchB1
    rw [fetch_of_hit (by rw [hroute]; rfl)]
    dsimp only
    rw [if_pos rfl]
    split <;> rfl

/-- The operand fetches are steps of a running CPU. -/
theorem cpuPlays_fetchOperands {s : State} (hfault : s.fault = none) (hrun : s.cpu.seq ≠ .waitLo → s.cpu.state = .running) :
    CpuPlays s (fetchOperands s) := by
  have hfirst : CpuPlays s (if s.cpu.seq = .fetchB1 then fetchB1 s else s) := by
    split
    · next hseq => exact .step hfault (cpuStep_fetchB1 (hrun (by simp [hseq])) hseq)
    · exact .refl s
  have hfirst_run : (if s.cpu.seq = .fetchB1 then fetchB1 s else s).cpu.seq ≠ .waitLo →
      (if s.cpu.seq = .fetchB1 then fetchB1 s else s).cpu.state = .running := by
    split
    · next hseq => exact fun hne => (fetchB1_state hne).trans (hrun (by simp [hseq]))
    · exact hrun
  unfold fetchOperands
  dsimp only
  generalize (if s.cpu.seq = .fetchB1 then fetchB1 s else s) = u at hfirst hfirst_run
  split
  · next hseq =>
    have hu := hfirst.fault.trans hfault
    exact hfirst.trans (.step hu (cpuStep_fetchB2 (hfirst_run (by simp [hseq])) hseq))
  · exact hfirst

/-- From the dispatch of an instruction to its last fetch. -/
theorem cpuPlays_fetchInstr {s : State} (hfault : s.fault = none) (hrun : s.cpu.state = .running)
    (hstart : cpuStep s = some (.next (startInstr s))) : CpuPlays s (fetchInstr s) := by
  have hop : CpuPlays s (fetchOp (startInstr s)) :=
    (CpuPlays.step hfault hstart).trans (.step hfault (cpuStep_fetchOp hrun rfl))
  exact hop.trans (cpuPlays_fetchOperands (hop.fault.trans hfault) fun hne => (fetchOp_state hne).trans hrun)

/-! ### Running the fetched instruction (R217, R243, R244) -/

theorem absMem_load_kept (rd : Reg) (ea : Addr) (s : State) :
    (absMem (.load rd) ea s).cpu.state = s.cpu.state ∧ (absMem (.load rd) ea s).cpu.seq = .absData ∧
      latchedAccess (absMem (.load rd) ea s) = latchedAccess s := by
  rw [absMem_load]
  cases rd <;> exact ⟨rfl, rfl, rfl⟩

theorem absMem_store_kept (ea : Addr) (s : State) :
    (absMem .store ea s).cpu.state = s.cpu.state ∧ (absMem .store ea s).cpu.seq = .absRel := by
  rw [absMem, memWrite_eq]
  exact ⟨rfl, rfl⟩

section
variable {s : State} {acc : AbsAccess} (hrun : s.cpu.state = .running)
include hrun

theorem cpuStep_absTry (hseq : s.cpu.seq = .absTry) : cpuStep s = some (.next (absTry s)) := by
  rw [cpuStep_of_running hrun, phaseStep, hseq]

theorem cpuStep_absRel (hseq : s.cpu.seq = .absRel) : cpuStep s = some (.next (absRel s)) := by
  rw [cpuStep_of_running hrun, phaseStep, hseq]

theorem cpuStep_exec {i : Instr} (hseq : s.cpu.seq = .exec) (hi : latchedInstr s = some i) (hformat : i.format ≠ .abs) :
    cpuStep s = some (exec i s) := by
  rw [cpuStep_of_running hrun, phaseStep, hseq]
  simp [execStep, hi, hformat]

variable (hacc : latchedAccess s = some acc)
include hacc

theorem cpuStep_absAddr (hseq : s.cpu.seq = .absAddr) : cpuStep s = some (.next (absAddr acc s.cpu.ea s)) := by
  rw [cpuStep_of_running hrun, phaseStep, hseq, hacc]
  rfl

theorem cpuStep_absMem (hseq : s.cpu.seq = .absMem) : cpuStep s = some (.next (absMem acc s.cpu.ea s)) := by
  rw [cpuStep_of_running hrun, phaseStep, hseq, hacc]
  rfl

theorem cpuStep_absData (hseq : s.cpu.seq = .absData) : cpuStep s = some (.next (absData acc s)) := by
  rw [cpuStep_of_running hrun, phaseStep, hseq, hacc]
  rfl

/-- A granted access is four steps more (R243 lines 2–5). -/
theorem cpuPlays_absGranted (hfault : s.fault = none) (hseq : s.cpu.seq = .absAddr) :
    CpuPlays s (absGranted acc s.cpu.ea s) := by
  refine ⟨[.cpu, .cpu, .cpu, .cpu], by simp, .cpu hfault (cpuStep_absAddr hrun hacc hseq) fun hfault => ?_⟩
  cases acc with
  | load rd =>
    obtain ⟨hstate, hmem, hlatch⟩ := absMem_load_kept rd s.cpu.ea (absAddr (.load rd) s.cpu.ea s)
    refine .cpu hfault (cpuStep_absMem hrun hacc rfl) fun hfault => ?_
    refine .cpu hfault (cpuStep_absData (hstate.trans hrun) (hlatch.trans hacc) hmem) fun hfault => ?_
    exact .cpu hfault (cpuStep_absRel (hstate.trans hrun) rfl) fun _ => .nil _
  | store =>
    obtain ⟨hstate, hmem⟩ := absMem_store_kept s.cpu.ea (absData .store (absAddr .store s.cpu.ea s))
    refine .cpu hfault (cpuStep_absData hrun hacc rfl) fun hfault => ?_
    refine .cpu hfault (cpuStep_absMem hrun hacc rfl) fun hfault => ?_
    exact .cpu hfault (cpuStep_absRel (hstate.trans hrun) hmem) fun _ => .nil _

/-- The bracket of a running CPU is a run of its steps, granted or timed out (R243, R244). -/
theorem cpuPlays_absBracket (hfault : s.fault = none) (hseq : s.cpu.seq = .absTry) :
    CpuPlays s (absBracket acc s.cpu.ea s) := by
  have htry := CpuPlays.step hfault (cpuStep_absTry hrun hseq)
  unfold absBracket
  split
  · next hfree =>
    refine htry.trans ?_
    rw [absTry_of_free (busFree_iff.mp hfree)]
    exact cpuPlays_absGranted (s := { s with
      bus := { s.bus with owner := some .cpu }, cpu := { s.cpu with seq := .absAddr } }) hrun hacc hfault rfl
  · next hheld =>
    rw [absTry_of_held fun h => hheld (busFree_iff.mpr h)] at htry ⊢
    refine htry.trans ⟨[.cpuTimeout], by simp, .cpuTimeout hfault (cpuTimeoutStep_of_absWait ?_ rfl) fun _ => .nil _⟩
    exact switchedOn_of_running hrun

end

/-- The latches of an absolute instruction hold its effective address (R85), and its meaning is the bracket of its access. -/
theorem exec_latched_abs {s : State} {i : Instr} (hi : latchedInstr s = some i) (hformat : i.format = .abs) :
    ∃ acc, latchedAccess s = some acc ∧ exec i s = .next (absBracket acc (wordOfBytes s.cpu.b1 s.cpu.b2) s) := by
  have hacc : latchedAccess s = absAccessOf i := by simp [latchedAccess, hi]
  have hdecode : ∃ rest, decode [s.cpu.op, s.cpu.b1, s.cpu.b2] = .instr i rest := by
    unfold latchedInstr at hi
    cases hd : decode [s.cpu.op, s.cpu.b1, s.cpu.b2] with
    | instr j rest => rw [hd] at hi; cases hi; exact ⟨rest, rfl⟩
    | error e => rw [hd] at hi; cases hi
  obtain ⟨rest, hdecode⟩ := hdecode
  obtain ⟨hbytes, -⟩ := encodeOfDecodeIsTheBytes _ _ _ hdecode
  rw [hacc]
  cases i <;> cases hformat <;>
    simp only [encode, Instr.operandBytes, List.cons_append, List.cons.injEq] at hbytes <;>
    obtain ⟨-, hlow, hhigh, -⟩ := hbytes <;>
    exact ⟨_, rfl, by rw [hlow, hhigh, wordOfBytes_low_high]; rfl⟩

/-- Every instruction ends its CPU's run at `WAIT_LO` (R217, R243, R244). -/
theorem exec_seq {i : Instr} {s t : State} (h : exec i s = .next t) : t.cpu.seq = .waitLo := by
  have hbracket (acc : AbsAccess) (ea : Addr) : (absBracket acc ea s).cpu.seq = .waitLo := by
    unfold absBracket
    split
    · cases acc <;> rfl
    · rfl
  obtain ⟨rd, v, -, -, he⟩ | ⟨-, he⟩ | ⟨-, he⟩ | ⟨rd, ea, -, -, -, he⟩ | ⟨ea, -, he⟩ := exec_cases i s <;>
    rw [he] at h <;> cases h
  case inr.inr.inr.inl.refl => exact hbracket _ _
  case inr.inr.inr.inr.refl => exact hbracket _ _
  all_goals rfl

/-! ### A span is a run (R221) -/

/-- The fetched instruction runs to `WAIT_LO` by steps of the CPU. -/
theorem cpuPlays_runFetched {s t : State} (hfault : s.fault = none)
    (hready : s.cpu.seq = .waitLo ∨
      (s.cpu.state = .running ∧
        ((s.cpu.seq = .exec ∧ (formatOf s.cpu.op = some .imp ∨ formatOf s.cpu.op = some .imm)) ∨
          (s.cpu.seq = .absTry ∧ formatOf s.cpu.op = some .abs ∧ s.cpu.ea = wordOfBytes s.cpu.b1 s.cpu.b2))))
    (h : runFetched s = .next t) : CpuPlays s t ∧ t.cpu.seq = .waitLo := by
  obtain hhalted | ⟨hrun, ⟨hseq, hformat⟩ | ⟨hseq, hformat, hea⟩⟩ := hready
  · rw [runFetched, if_neg (by simp [hhalted])] at h
    cases h
    exact ⟨.refl s, hhalted⟩
  · obtain ⟨i, hi, hne⟩ : ∃ i, latchedInstr s = some i ∧ i.format ≠ .abs := by
      rcases hformat with himp | himm
      · obtain ⟨i, hi, hf⟩ := latchedInstr_of_format himp; exact ⟨i, hi, by simp [hf]⟩
      · obtain ⟨i, hi, hf⟩ := latchedInstr_of_format himm; exact ⟨i, hi, by simp [hf]⟩
    rw [runFetched, if_pos (.inl hseq), hi] at h
    exact ⟨.step hfault ((cpuStep_exec hrun hseq hi hne).trans (congrArg some h)), exec_seq h⟩
  · obtain ⟨i, hi, hf⟩ := latchedInstr_of_format hformat
    obtain ⟨acc, hacc, hexec⟩ := exec_latched_abs hi hf
    rw [runFetched, if_pos (.inr hseq), hi] at h
    refine ⟨?_, exec_seq h⟩
    dsimp only at h
    rw [hexec, ← hea] at h
    cases h
    exact cpuPlays_absBracket hrun hacc hfault hseq

/-- A reset ends at `WAIT_LO` (R334). -/
theorem resetSpan_seq (s : State) : (resetSpan s).cpu.seq = .waitLo := by
  unfold resetSpan
  split <;> rfl

/-- After its fetches a running CPU is halted, or ready to run the instruction its latches hold. -/
theorem fetchInstr_ready {s : State} (hrun : s.cpu.state = .running) :
    (fetchInstr s).cpu.seq = .waitLo ∨
      ((fetchInstr s).cpu.state = .running ∧
        (((fetchInstr s).cpu.seq = .exec ∧
            (formatOf (fetchInstr s).cpu.op = some .imp ∨ formatOf (fetchInstr s).cpu.op = some .imm)) ∨
          ((fetchInstr s).cpu.seq = .absTry ∧ formatOf (fetchInstr s).cpu.op = some .abs ∧
            (fetchInstr s).cpu.ea = wordOfBytes (fetchInstr s).cpu.b1 (fetchInstr s).cpu.b2))) := by
  obtain ⟨-, hlow⟩ | ⟨hstate, hready⟩ := fetchInstr_cases s
  · exact .inl hlow
  · exact .inr ⟨hstate.trans hrun, hready⟩

/-- A span that has a step is a run of the CPU's atomic steps, and ends at `WAIT_LO`. -/
theorem cpuPlays_cpuSpanStep {s t : State} (hfault : s.fault = none) (h : cpuSpanStep s = some (.next t)) :
    CpuPlays s t ∧ t.cpu.seq = .waitLo := by
  unfold cpuSpanStep at h
  split at h
  · next hready =>
    cases h
    obtain ⟨hon, halive⟩ : s.cpu.state = .powerOn ∧ s.cpu.alive = true := by simpa [powerOnReady] using hready
    exact ⟨cpuPlays_resetSpan hfault (by simp [cpuStep_of_powerOn hon, halive]), resetSpan_seq s⟩
  · cases hstart : dispatchStart s with
    | none => rw [hstart] at h; cases h
    | some start =>
      obtain ⟨hseq, -, -, ⟨rfl, -, hon⟩ | ⟨rfl, hrun⟩⟩ := dispatchStart_cases hstart <;>
        rw [hstart] at h <;> dsimp only at h
      · cases h
        refine ⟨cpuPlays_resetSpan hfault ?_, resetSpan_seq s⟩
        simp [cpuStep_of_waitHi hseq hon, dispatchStep, hstart, answers]
      · have hfetch : CpuPlays s (fetchInstr s) := cpuPlays_fetchInstr hfault hrun
          (by simp [cpuStep_of_waitHi hseq (.inl hrun), dispatchStep, hstart, answers])
        obtain ⟨hplays, hlow⟩ := cpuPlays_runFetched (hfetch.fault.trans hfault) (fetchInstr_ready hrun) (Option.some.inj h)
        exact ⟨hfetch.trans hplays, hlow⟩

/-- Settles O7: a span that has a step is a run of atomic steps (`cpuPlays_cpuSpanStep`), which runs when it is scheduled. -/
theorem spanIsARunOfCpuSteps : Obligations.SpanIsARunOfCpuSteps := by
  intro s t rest hfault hstep
  rw [step_of_sched (s := { s with sched := .cpuSpan :: rest }) hfault rfl] at hstep
  cases hspan : eventStep .cpuSpan s with
  | none =>
    have hnone : eventStep .cpuSpan { s with sched := rest } = none := by
      have hoverlay := eventStep_overlay (o := { sched := some rest }) (s := s) (e := .cpuSpan) ⟨rfl, rfl, rfl⟩
        (.inl ⟨rfl, rfl, rfl⟩)
      rw [hspan] at hoverlay
      exact hoverlay
    rw [show ({ ({ s with sched := .cpuSpan :: rest } : State) with sched := rest } : State) = { s with sched := rest }
      from rfl, runEvent_of_disabled hnone] at hstep
    cases hstep
    exact ⟨⟨[], by simp, rfl⟩, fun henabled => absurd hspan henabled⟩
  | some r =>
    obtain ⟨-, hagent⟩ := eventStep_some hspan
    obtain ⟨u, rfl⟩ := agentStep_next hagent
    obtain ⟨⟨evs, hevs, hplays⟩, hlow⟩ := cpuPlays_cpuSpanStep hfault hagent
    have hrun := runEvent_of_enabled (eventStep_sched hspan rest)
    cases hstep.symm.trans hrun
    exact ⟨⟨evs, hevs, hplays.run rest⟩, fun _ => hlow⟩

/-! ### A span runs the decoded instruction (R206, R210–R213) -/

/-- Bytes that decode hold the opcode of the instruction, with its format. -/
theorem formatOf_of_decode {op : Byte} {bytes rest : List Byte} {i : Instr} (h : decode (op :: bytes) = .instr i rest) :
    formatOf op = some i.format := by
  obtain ⟨hbytes, -⟩ := encodeOfDecodeIsTheBytes _ _ _ h
  obtain ⟨rfl, -⟩ := List.cons.inj hbytes
  simp [formatOf, opcodeRow_opcode]

/-- Latches that begin with the bytes an instruction was decoded from hold the instruction. -/
theorem latchedInstr_of_encode {s : State} {i : Instr} {tail : List Byte}
    (h : [s.cpu.op, s.cpu.b1, s.cpu.b2] = encode i ++ tail) (hwf : i.wellFormed = true) : latchedInstr s = some i := by
  rw [latchedInstr, h, decodeOfEncodeIsTheInstruction i tail hwf]
  rfl

/-- The operand fetches of an instruction with no operand. -/
theorem fetchOperands_of_exec {s : State} (hseq : s.cpu.seq = .exec) : fetchOperands s = s := by
  simp [fetchOperands, hseq]

section
variable {s : State} (hseq : s.cpu.seq = .fetchB1) (hhit : (s.routeOf s.cpu.pc).isSome = true)
include hseq hhit

/-- The operand fetch of an immediate (R212). -/
theorem fetchOperands_of_imm (hformat : formatOf s.cpu.op = some .imm) :
    fetchOperands s = { s with
      cpu := { s.cpu with pc := s.cpu.pc + 1, b1 := memByte s.cpu.pc s, seq := .exec }
      diag := s.diag ++ accessEvents .read s.cpu.pc s } := by
  simp [fetchOperands, hseq, fetchB1_of_imm hhit hformat]

/-- The operand fetches of an absolute address (R212, R213). -/
theorem fetchOperands_of_abs (hhit' : (s.routeOf (s.cpu.pc + 1)).isSome = true) (hformat : formatOf s.cpu.op = some .abs) :
    fetchOperands s = { s with
      cpu := { s.cpu with
        pc := s.cpu.pc + 1 + 1
        b1 := memByte s.cpu.pc s
        b2 := memByte (s.cpu.pc + 1) s
        ea := wordOfBytes (memByte s.cpu.pc s) (memByte (s.cpu.pc + 1) s)
        seq := .absTry }
      diag := s.diag ++ accessEvents .read s.cpu.pc s ++ accessEvents .read (s.cpu.pc + 1) s } := by
  simp only [fetchOperands, hseq, if_true, fetchB1_of_abs hhit hformat]
  exact fetchB2_of_hit hhit'

end

section
variable {s : State} {i : Instr} {rest : List Byte} (hdecode : decode (bytesAt s.cpu.pc s) = .instr i rest)
include hdecode

/-- The latches after the fetches hold the decoded instruction: the bytes its format has are those at `PC`. -/
theorem latchedInstr_fetched (hwf : i.wellFormed = true) : latchedInstr (fetched i.format s) = some i := by
  obtain ⟨hbytes, -⟩ := encodeOfDecodeIsTheBytes _ _ _ hdecode
  have henc : (encode i).length = i.format.length := encode_length i
  have htake : encode i = (bytesAt s.cpu.pc s).take i.format.length := by rw [hbytes, ← henc, List.take_left']; rfl
  cases hformat : i.format <;> rw [hformat] at htake
  · exact latchedInstr_of_encode (tail := [s.cpu.b1, s.cpu.b2]) (by rw [htake]; rfl) hwf
  · exact latchedInstr_of_encode (tail := [s.cpu.b2]) (by rw [htake]; rfl) hwf
  · exact latchedInstr_of_encode (tail := []) (by rw [htake]; rfl) hwf

/-- The dispatch and the fetches of mapped bytes that decode leave the fetched state. -/
theorem fetchInstr_of_mapped (hmapped : mappedFrom s.cpu.pc i.length s) : fetchInstr s = fetched i.format s := by
  have hformat : formatOf (memByte s.cpu.pc s) = some i.format := formatOf_of_decode hdecode
  unfold Instr.length at hmapped
  unfold fetchInstr
  cases hf : i.format <;> rw [hf] at hformat hmapped
  case imp =>
    have hhit : (s.routeOf s.cpu.pc).isSome = true := by simpa using hmapped 0 (by decide)
    have hevents : fetchEvents s.cpu.pc (Format.length .imp) s = accessEvents .read s.cpu.pc s := by
      simp [Format.length, fetchEvents]
    rw [fetchOp_of_imp (s := startInstr s) hhit hformat, fetchOperands_of_exec rfl, fetched, hevents]
    rfl
  case imm =>
    have hhit : (s.routeOf s.cpu.pc).isSome = true := by simpa using hmapped 0 (by decide)
    have hhit1 : (s.routeOf (s.cpu.pc + 1)).isSome = true := hmapped 1 (by decide)
    have hpc : s.cpu.pc + BitVec.ofNat 16 (Format.length .imm) = s.cpu.pc + 1 + 1 := by
      rw [BitVec.add_assoc]; rfl
    have hevents : s.diag ++ fetchEvents s.cpu.pc (Format.length .imm) s =
        s.diag ++ accessEvents .read s.cpu.pc s ++ accessEvents .read (s.cpu.pc + 1) s := by
      simp [Format.length, fetchEvents]
    rw [fetchOp_of_operand (s := startInstr s) hhit (.inl hformat), fetchOperands_of_imm rfl hhit1 hformat, fetched,
      fetchedCpu, hevents, hpc]
    rfl
  case abs =>
    have hhit : (s.routeOf s.cpu.pc).isSome = true := by simpa using hmapped 0 (by decide)
    have hhit1 : (s.routeOf (s.cpu.pc + 1)).isSome = true := hmapped 1 (by decide)
    have htwo : s.cpu.pc + 2 = s.cpu.pc + 1 + 1 := by rw [BitVec.add_assoc]; rfl
    have hhit2 : (s.routeOf (s.cpu.pc + 1 + 1)).isSome = true := htwo ▸ hmapped 2 (by decide)
    have hpc : s.cpu.pc + BitVec.ofNat 16 (Format.length .abs) = s.cpu.pc + 1 + 1 + 1 := by
      rw [BitVec.add_assoc, BitVec.add_assoc]; rfl
    have hevents : s.diag ++ fetchEvents s.cpu.pc (Format.length .abs) s =
        s.diag ++ accessEvents .read s.cpu.pc s ++ accessEvents .read (s.cpu.pc + 1) s ++
          accessEvents .read (s.cpu.pc + 1 + 1) s := by
      simp [Format.length, fetchEvents]
    rw [fetchOp_of_operand (s := startInstr s) hhit (.inr hformat), fetchOperands_of_abs rfl hhit1 hhit2 hformat, fetched,
      fetchedCpu, hevents, hpc, htwo]
    rfl

end

/-- The last fetch of an instruction leaves the CPU ready to run it. -/
theorem fetched_seq (f : Format) (s : State) : (fetched f s).cpu.seq = .exec ∨ (fetched f s).cpu.seq = .absTry := by
  cases f
  · exact .inl rfl
  · exact .inl rfl
  · exact .inr rfl

/-- Settles O6: the dispatch starts an instruction (`dispatchStart_of_high`), whose fetches leave the fetched state
(`fetchInstr_of_mapped`) with the decoded instruction in the latches. -/
theorem stepRunsTheDecodedInstruction : Obligations.StepRunsTheDecodedInstruction := by
  intro s evs i rest hfault hsched hrun hseq hhigh halive hresb hrdy hdecode hwf hmapped
  have hstart : dispatchStart { s with sched := evs } = some .instruction := by
    rw [dispatchStart_of_high (s := { s with sched := evs }) hseq hhigh halive (.inl hrun)]
    simp [hresb, hrun, hrdy]
  have hspan : cpuSpanStep { s with sched := evs } = some (exec i (fetched i.format { s with sched := evs })) := by
    rw [cpuSpanStep_of_dispatch (s := { s with sched := evs }) (.inl hrun), hstart]
    simp only [Option.map_some]
    rw [fetchInstr_of_mapped (s := { s with sched := evs }) hdecode hmapped, runFetched, if_pos (fetched_seq _ _),
      latchedInstr_fetched (s := { s with sched := evs }) hdecode hwf]
  rw [step_of_sched hfault hsched]
  exact runEvent_of_enabled ((eventStep_of_no_fault (s := { s with sched := evs }) hfault).trans hspan)

/-! ### The boot (R338) -/

/-- A preload keeps everything but the chips and the events (R12). -/
theorem preload_frame (image : List ImageByte) (s : State) : CpuFrame s (preload image s) ∧
    (preload image s).bus = s.bus ∧ (preload image s).cpu = s.cpu := by
  induction image generalizing s with
  | nil => exact ⟨CpuFrame.refl s, rfl, rfl⟩
  | cons entry rest ih =>
    obtain ⟨k, a, v⟩ := entry
    obtain ⟨hframe, hbus, hcpu⟩ := ih (chipWriteByte k a v s)
    rcases chipWriteByte_cases k a v s with ⟨c, hk, -, hwrite⟩ | ⟨-, hwrite⟩ <;> rw [hwrite] at hframe hbus hcpu <;>
      simp only [preload, hwrite]
    · have hset : CpuFrame s (s.setChip k (c.poke a v)) := ⟨rfl, rfl, rfl, rfl, rfl, rfl, rfl, map_frame_set hk rfl⟩
      exact ⟨hset.trans hframe, hbus, hcpu⟩
    · exact ⟨(frame_log _ _ s).trans hframe, hbus, hcpu⟩

/-- From a powered-off, alive CPU and a free bus the boot events run a whole reset. -/
theorem plays_bootEvents {s : State} (hfault : s.fault = none) (hoff : s.cpu.state = .powerOff)
    (halive : s.cpu.alive = true) (hfree : s.bus.owner = none) : Plays bootEvents s (resetSpan (powerOn s)) := by
  have hon : powerOn s = { s with cpu := { s.cpu with state := .powerOn } } := powerOn_of_powerOff hoff
  refine .cons (eventStep_host hfault rfl) ?_
  rw [hon]
  exact plays_resetSpan_of_free hfault (by simp [cpuStep_of_powerOn, halive]) hfree

/-- A reset sets the execution state, so it does not depend on it. -/
theorem resetSpan_powerOn {s : State} (hoff : s.cpu.state = .powerOff) : resetSpan (powerOn s) = resetSpan s := by
  have hentry : resetEntry (powerOn s) = resetEntry s := by rw [powerOn_of_powerOff hoff]; rfl
  unfold resetSpan
  rw [hentry, powerOn_of_powerOff hoff]
  rfl

/-- Settles O29: the created machine is powered off with the bus free, and a preload keeps it so (`plays_bootEvents`). -/
theorem bootRunsTheReset : Obligations.BootRunsTheReset := by
  intro c draw image rest
  obtain ⟨hframe, hbus, hcpu⟩ := preload_frame image (State.create c draw)
  have hoff : (preload image (State.create c draw)).cpu.state = .powerOff := by rw [hcpu]; rfl
  have hplays := plays_bootEvents (hframe.fault.trans rfl) hoff (by rw [hcpu]; rfl) (by rw [hbus]; rfl)
  rw [resetSpan_powerOn hoff] at hplays
  rw [hplays.run rest]
  exact congrArg Host.Outcome.next (resetSpan_overlay { sched := some rest } _).symm

/-- Settles O30: the boot runs the reset (`bootRunsTheReset`), whose state with the bus free is written out. -/
theorem resetStateIsTheBootedReference : Obligations.ResetStateIsTheBootedReference := by
  intro draw
  have hbyte (addr : Addr) : memByte addr (State.create Config.reference draw) = memByte addr State.reset :=
    memByte_congr rfl rfl addr
  have hevents (addr : Addr) :
      accessEvents .read addr (State.create Config.reference draw) = accessEvents .read addr State.reset :=
    accessEvents_congr rfl rfl .read addr
  have hlo : memByte 0xFFFC State.reset = 0xFF ∧ accessEvents .read 0xFFFC State.reset = [] := by decide
  have hhi : memByte 0xFFFD State.reset = 0xFF ∧ accessEvents .read 0xFFFD State.reset = [] := by decide
  have hpins : putAddress 0xFFFD 0 = 0xFFFD := by decide
  have hspan := resetReadsTheVectorWhenTheBusIsFree (State.create Config.reference draw) rfl 0xFFFC rfl
  rw [show (0xFFFC : Addr) + 1 = 0xFFFD from rfl, hbyte, hbyte, hevents, hevents, hlo.1, hlo.2, hhi.1, hhi.2] at hspan
  refine (bootRunsTheReset Config.reference draw [] []).trans (congrArg Host.Outcome.next (hspan.trans ?_))
  rw [show putAddress 0xFFFD (State.create Config.reference draw).bus.pins = 0xFFFD from hpins]
  rfl

end Sys2Proof.Machine
end

section
/-! PROOFS. The invariant of the machine: the part about the CPU, kept by each of its atomic steps (spec/44_cpu_sequencer.md
R200–R219, spec/45_cpu_load_store.md R243, spec/70_reset_and_hazards.md R330–R334). -/

namespace Sys2Proof.Machine

/-- The part of the invariant that speaks of the CPU and its ownership of the bus. -/
structure CpuInv (s : State) : Prop where
  cpuOwner : s.cpuOwnerOk
  phase : s.phaseOk
  latch : s.latchOk
  rwb : s.rwbOk
  sync : s.cpu.sync = false

/-- The phases that speak of the latched instruction (R211–R213, R217, R243). -/
def Seq.usesLatch : Seq → Bool
  | .fetchB1 | .fetchB2 | .exec | .absTry | .absWait | .absAddr | .absMem | .absData | .absRel => true
  | .waitHi | .fetchOp | .waitLo | .rstTry | .rstWait | .rstAddrLo | .rstReadLo | .rstAddrHi | .rstReadHi | .rstRel | .rstEnd => false

/-- The phases in which a store has `RWB` low (R243). -/
def Seq.inStore : Seq → Bool
  | .absMem | .absData | .absRel => true
  | .waitHi | .fetchOp | .fetchB1 | .fetchB2 | .exec | .absTry | .absWait | .absAddr | .waitLo => false
  | .rstTry | .rstWait | .rstAddrLo | .rstReadLo | .rstAddrHi | .rstReadHi | .rstRel | .rstEnd => false

theorem Seq.inStore_iff (q : Seq) : q.inStore = true ↔ q = .absData ∨ q = .absMem ∨ q = .absRel := by
  cases q <;> simp [Seq.inStore]

theorem Seq.holdsBus_of_inStore {q : Seq} (h : q.inStore = true) : q.holdsBus = true := by
  cases q <;> trivial

theorem Seq.inBracket_of_inStore {q : Seq} (h : q.inStore = true) : q.inBracket = true := by
  cases q <;> trivial

theorem Seq.inReset_of_inBracket {q : Seq} (h : q.inBracket = true) : q.inReset = false := by
  cases q <;> trivial

theorem Seq.not_used_of_inReset {q : Seq} (h : q.inReset = true) : q.usesLatch = false ∧ q.inStore = false := by
  cases q <;> trivial

theorem State.rwbOk_iff (s : State) :
    s.rwbOk ↔ (s.cpu.rwb = false ↔ latchedAccess s = some .store ∧ s.cpu.seq.inStore = true) := by
  rw [State.rwbOk, Seq.inStore_iff]

/-- In a phase that speaks of no latch the latches are free. -/
theorem latchOk_of_seq {t : State} (h : t.cpu.seq.usesLatch = false) : t.latchOk := by
  unfold State.latchOk
  cases hseq : t.cpu.seq <;> rw [hseq] at h <;> simp_all [Seq.usesLatch, Seq.inBracket]

theorem State.Inv.cpuInv {s : State} (h : s.Inv) : CpuInv s := ⟨h.cpuOwner, h.phase, h.latch, h.rwb, h.sync⟩

namespace CpuInv
variable {s : State}

/-- A phase of a reset belongs to the state `Reset`, one of an instruction to `Running`. -/
theorem state_of_seq (h : CpuInv s) (hhi : s.cpu.seq ≠ .waitHi) :
    (s.cpu.state = .reset ∧ s.cpu.seq.inReset = true) ∨ (s.cpu.state = .running ∧ s.cpu.seq.inReset = false) ∨
      (s.cpu.state = .halted ∧ s.cpu.seq = .waitLo) := by
  have hphase := h.phase
  unfold State.phaseOk at hphase
  cases hstate : s.cpu.state <;> rw [hstate] at hphase
  case powerOff => exact absurd hphase hhi
  case powerOn => exact absurd hphase hhi
  case reset => exact .inl ⟨rfl, hphase⟩
  case running => exact .inr (.inl ⟨rfl, hphase⟩)
  case halted => exact .inr (.inr ⟨rfl, hphase.resolve_left hhi⟩)

/-- In the phases of a fetch, an `EXEC` step or the bracket the CPU is running. -/
theorem running_of_seq (h : CpuInv s) (hhi : s.cpu.seq ≠ .waitHi) (hlo : s.cpu.seq ≠ .waitLo)
    (hreset : s.cpu.seq.inReset = false) : s.cpu.state = .running := by
  obtain ⟨-, hin⟩ | ⟨hrun, -⟩ | ⟨-, hseq⟩ := h.state_of_seq hhi
  · rw [hreset] at hin; cases hin
  · exact hrun
  · exact absurd hseq hlo

/-- In the phases of a reset the CPU is in `Reset`. -/
theorem reset_of_seq (h : CpuInv s) (hreset : s.cpu.seq.inReset = true) : s.cpu.state = .reset := by
  obtain ⟨hstate, -⟩ | ⟨-, hout⟩ | ⟨-, hseq⟩ := h.state_of_seq (by rintro hseq; rw [hseq] at hreset; cases hreset)
  · exact hstate
  · rw [hreset] at hout; cases hout
  · rw [hseq] at hreset; cases hreset

/-- Outside the phases of a store's access `RWB` is high (R243). -/
theorem rwb_high (h : CpuInv s) (hseq : s.cpu.seq.inStore = false) : s.cpu.rwb = true := by
  by_contra hlow
  obtain ⟨-, hin⟩ := (s.rwbOk_iff.mp h.rwb).mp (by simpa using hlow)
  rw [hseq] at hin
  cases hin

theorem owner (h : CpuInv s) (hseq : s.cpu.seq.holdsBus = true) : s.bus.owner = some .cpu := h.cpuOwner.mpr hseq

theorem unowned (h : CpuInv s) (hseq : s.cpu.seq.holdsBus = false) : s.bus.owner ≠ some .cpu := by
  intro howner
  rw [h.cpuOwner.mp howner] at hseq
  cases hseq

end CpuInv

/-- Outside a store's access, with `RWB` high, the invariant asks for the ownership, the phase and the latches. -/
theorem cpuInv_of_rwb_high {t : State} (howner : t.cpuOwnerOk) (hphase : t.phaseOk) (hlatch : t.latchOk)
    (hseq : t.cpu.seq.inStore = false) (hrwb : t.cpu.rwb = true) (hsync : t.cpu.sync = false) : CpuInv t :=
  ⟨howner, hphase, hlatch, t.rwbOk_iff.mpr (by simp [hrwb, hseq]), hsync⟩

/-- Where the CPU neither owns the bus nor speaks of a latch, `RWB` is high. -/
theorem cpuInv_of_idle {t : State} (howner : t.bus.owner ≠ some .cpu) (hbus : t.cpu.seq.holdsBus = false)
    (hlatch : t.cpu.seq.usesLatch = false) (hphase : t.phaseOk) (hrwb : t.cpu.rwb = true) (hsync : t.cpu.sync = false) :
    CpuInv t := by
  have hstore : t.cpu.seq.inStore = false := Bool.eq_false_iff.mpr fun hin => by simp [Seq.holdsBus_of_inStore hin] at hbus
  exact cpuInv_of_rwb_high (by simp [State.cpuOwnerOk, howner, hbus]) hphase (latchOk_of_seq hlatch) hstore hrwb hsync

/-- A phase outside the resets belongs to a running CPU, one of them to a CPU in `Reset`. -/
theorem phaseOk_of_running {t : State} (hrun : t.cpu.state = .running) (hseq : t.cpu.seq.inReset = false) : t.phaseOk := by
  simp [State.phaseOk, hrun, hseq]

theorem phaseOk_of_reset {t : State} (hreset : t.cpu.state = .reset) (hseq : t.cpu.seq.inReset = true) : t.phaseOk := by
  simp [State.phaseOk, hreset, hseq]

section
variable {s : State} (h : CpuInv s)
include h

/-! ### Dispatch and waits (R202, R203, R219) -/

theorem cpuInv_startInstr (hseq : s.cpu.seq = .waitHi) (hrun : s.cpu.state = .running) : CpuInv (startInstr s) :=
  cpuInv_of_idle (h.unowned (by rw [hseq]; rfl)) rfl rfl (phaseOk_of_running hrun rfl) (h.rwb_high (by rw [hseq]; rfl)) h.sync

theorem cpuInv_resetEntry (hseq : s.cpu.seq = .waitHi) : CpuInv (resetEntry s) :=
  cpuInv_of_idle (h.unowned (by rw [hseq]; rfl)) rfl rfl (phaseOk_of_reset rfl rfl) rfl h.sync

theorem cpuInv_waitHi (hseq : s.cpu.seq = .waitLo) : CpuInv (s.goto .waitHi) := by
  refine cpuInv_of_idle (h.unowned (by rw [hseq]; rfl)) rfl rfl ?_ (h.rwb_high (by rw [hseq]; rfl)) h.sync
  obtain ⟨-, hin⟩ | ⟨hrun, -⟩ | ⟨hhalt, -⟩ := h.state_of_seq (by simp [hseq])
  · rw [hseq] at hin; cases hin
  · exact phaseOk_of_running hrun rfl
  · simp [State.phaseOk, hhalt]

/-! ### Fetches and `EXEC` (R211–R217) -/

theorem cpuInv_fetchOp (hseq : s.cpu.seq = .fetchOp) : CpuInv (fetchOp s) := by
  have howner := h.unowned (by rw [hseq]; rfl)
  have hrun := h.running_of_seq (by simp [hseq]) (by simp [hseq]) (by rw [hseq]; rfl)
  have hhigh := h.rwb_high (by rw [hseq]; rfl)
  obtain ⟨ev, ⟨-, he⟩ | ⟨hformat, he⟩ | ⟨hformat, he⟩⟩ := fetchOp_cases s <;> rw [he]
  · exact cpuInv_of_idle howner rfl rfl (.inr rfl) hhigh h.sync
  · exact cpuInv_of_rwb_high (by simp [State.cpuOwnerOk, howner, Seq.holdsBus]) (phaseOk_of_running hrun rfl)
      (by simp [State.latchOk, Seq.inBracket, hformat]) rfl hhigh h.sync
  · exact cpuInv_of_rwb_high (by simp [State.cpuOwnerOk, howner, Seq.holdsBus]) (phaseOk_of_running hrun rfl)
      (by simp [State.latchOk, Seq.inBracket, hformat]) rfl hhigh h.sync

theorem cpuInv_fetchB1 (hseq : s.cpu.seq = .fetchB1) : CpuInv (fetchB1 s) := by
  have howner := h.unowned (by rw [hseq]; rfl)
  have hrun := h.running_of_seq (by simp [hseq]) (by simp [hseq]) (by rw [hseq]; rfl)
  have hhigh := h.rwb_high (by rw [hseq]; rfl)
  obtain ⟨ev, ⟨-, he⟩ | ⟨hformat, he⟩ | ⟨hformat, he⟩⟩ := fetchB1_cases (h.latch.1 hseq) <;> rw [he]
  · exact cpuInv_of_idle howner rfl rfl (.inr rfl) hhigh h.sync
  · exact cpuInv_of_rwb_high (by simp [State.cpuOwnerOk, howner, Seq.holdsBus]) (phaseOk_of_running hrun rfl)
      (by simp [State.latchOk, Seq.inBracket, hformat]) rfl hhigh h.sync
  · exact cpuInv_of_rwb_high (by simp [State.cpuOwnerOk, howner, Seq.holdsBus]) (phaseOk_of_running hrun rfl)
      (by simp [State.latchOk, Seq.inBracket, hformat]) rfl hhigh h.sync

theorem cpuInv_fetchB2 (hseq : s.cpu.seq = .fetchB2) : CpuInv (fetchB2 s) := by
  have howner := h.unowned (by rw [hseq]; rfl)
  have hrun := h.running_of_seq (by simp [hseq]) (by simp [hseq]) (by rw [hseq]; rfl)
  have hhigh := h.rwb_high (by rw [hseq]; rfl)
  obtain ⟨ev, ⟨-, he⟩ | he⟩ := fetchB2_cases s <;> rw [he]
  · exact cpuInv_of_idle howner rfl rfl (.inr rfl) hhigh h.sync
  · exact cpuInv_of_rwb_high (by simp [State.cpuOwnerOk, howner, Seq.holdsBus]) (phaseOk_of_running hrun rfl)
      (by simp [State.latchOk, h.latch.2.1 hseq]) rfl hhigh h.sync

/-- An `EXEC` step ends at `WAIT_LO`, running or halted by `BRK` (R216–R218). -/
theorem cpuInv_exec (hseq : s.cpu.seq = .exec) {i : Instr} (hformat : i.format ≠ .abs) {t : State} (hexec : exec i s = .next t) :
    CpuInv t := by
  have howner := h.unowned (by rw [hseq]; rfl)
  have hrun := h.running_of_seq (by simp [hseq]) (by simp [hseq]) (by rw [hseq]; rfl)
  have hhigh := h.rwb_high (by rw [hseq]; rfl)
  obtain ⟨rd, v, -, -, he⟩ | ⟨-, he⟩ | ⟨-, he⟩ | ⟨rd, ea, -, -, habs, he⟩ | ⟨ea, rfl, he⟩ := exec_cases i s
  case inr.inr.inr.inl => exact absurd habs hformat
  case inr.inr.inr.inr => exact absurd rfl hformat
  all_goals rw [he] at hexec; cases hexec
  · cases rd <;> exact cpuInv_of_idle howner rfl rfl (phaseOk_of_running hrun rfl) hhigh h.sync
  · exact cpuInv_of_idle howner rfl rfl (phaseOk_of_running hrun rfl) hhigh h.sync
  · exact cpuInv_of_idle howner rfl rfl (.inr rfl) hhigh h.sync

end

/-! ### The bracket of an absolute access (R243, R244) -/

/-- What a step inside a bracket keeps of the CPU: its state, its latched instruction and `SYNC`. -/
def Cpu.latched (c : Cpu) : ExecState × Bool × Byte × Byte × Byte × Addr := (c.state, c.sync, c.op, c.b1, c.b2, c.ea)

theorem rwbOk_of_high {t : State} (hseq : t.cpu.seq.inStore = false) (hrwb : t.cpu.rwb = true) : t.rwbOk :=
  t.rwbOk_iff.mpr (by simp [hrwb, hseq])

/-- In the phases of a store's access `RWB` is low exactly for a store. -/
theorem rwbOk_iff_of_inStore {t : State} {acc : AbsAccess} (hseq : t.cpu.seq.inStore = true) (hacc : latchedAccess t = some acc) :
    t.rwbOk ↔ (t.cpu.rwb = false ↔ acc = .store) := by
  rw [State.rwbOk_iff, hacc, hseq]
  simp

/-- A step inside the bracket keeps the state and the latches. -/
theorem cpuInv_of_bracket {s t : State} (h : CpuInv s) (hseq : s.cpu.seq.inBracket = true) (hseq' : t.cpu.seq.inBracket = true)
    (hlatched : t.cpu.latched = s.cpu.latched) (howner : t.cpuOwnerOk) (hrwb : t.rwbOk) : CpuInv t := by
  simp only [Cpu.latched, Prod.mk.injEq] at hlatched
  obtain ⟨hstate, hsync, hop, hb1, hb2, hea⟩ := hlatched
  have hrun : s.cpu.state = .running :=
    h.running_of_seq (by rintro hq; rw [hq] at hseq; cases hseq) (by rintro hq; rw [hq] at hseq; cases hseq)
      (Seq.inReset_of_inBracket hseq)
  refine ⟨howner, phaseOk_of_running (hstate.trans hrun) (Seq.inReset_of_inBracket hseq'), ?_, hrwb, hsync.trans h.sync⟩
  rw [State.latchOk, hop, hb1, hb2, hea]
  refine ⟨fun hq => ?_, fun hq => ?_, fun hq => ?_, fun _ => h.latch.2.2.2 hseq⟩ <;> rw [hq] at hseq' <;> cases hseq'

/-- A step of the bracket to a phase of the access, with `RWB` low for a store. -/
theorem cpuInv_of_inStore {s t : State} {acc : AbsAccess} (h : CpuInv s) (hseq : s.cpu.seq.inBracket = true)
    (hacc : latchedAccess s = some acc) (hseq' : t.cpu.seq.inStore = true) (hlatched : t.cpu.latched = s.cpu.latched)
    (howner : t.bus.owner = some .cpu) (hrwb : t.cpu.rwb = false ↔ acc = .store) : CpuInv t := by
  refine cpuInv_of_bracket h hseq (Seq.inBracket_of_inStore hseq') hlatched
    ⟨fun _ => Seq.holdsBus_of_inStore hseq', fun _ => howner⟩ ((rwbOk_iff_of_inStore hseq' ?_).mpr hrwb)
  simp only [Cpu.latched, Prod.mk.injEq] at hlatched
  rw [← hacc, latchedAccess, latchedAccess, latchedInstr, latchedInstr, hlatched.2.2.1, hlatched.2.2.2.1, hlatched.2.2.2.2.1]

section
variable {s : State} (h : CpuInv s)
include h

theorem cpuInv_absGranted (hseq : s.cpu.seq = .absTry ∨ s.cpu.seq = .absWait) : CpuInv ((grantBus .cpu s).goto .absAddr) := by
  have hhigh := h.rwb_high (by rcases hseq with hseq | hseq <;> rw [hseq] <;> rfl)
  exact cpuInv_of_bracket h (by rcases hseq with hseq | hseq <;> rw [hseq] <;> rfl) rfl rfl
    ⟨fun _ => rfl, fun _ => rfl⟩ (rwbOk_of_high rfl hhigh)

theorem cpuInv_absWaits (hseq : s.cpu.seq = .absTry) : CpuInv (s.goto .absWait) := by
  have howner := h.unowned (by rw [hseq]; rfl)
  have hhigh := h.rwb_high (by rw [hseq]; rfl)
  exact cpuInv_of_bracket h (by rw [hseq]; rfl) rfl rfl (by simp [State.cpuOwnerOk, Seq.holdsBus, howner]) (rwbOk_of_high rfl hhigh)

theorem cpuInv_absTimeout (hseq : s.cpu.seq = .absWait) : CpuInv (absTimeout s) := by
  have howner := h.unowned (by rw [hseq]; rfl)
  have hhigh := h.rwb_high (by rw [hseq]; rfl)
  have hrun := h.running_of_seq (by simp [hseq]) (by simp [hseq]) (by rw [hseq]; rfl)
  exact cpuInv_of_idle howner rfl rfl (phaseOk_of_running hrun rfl) hhigh h.sync

theorem cpuInv_absAddr (hseq : s.cpu.seq = .absAddr) {acc : AbsAccess} (hacc : latchedAccess s = some acc) :
    CpuInv (absAddr acc s.cpu.ea s) := by
  have howner := h.owner (by rw [hseq]; rfl)
  have hhigh := h.rwb_high (by rw [hseq]; rfl)
  cases acc <;> exact cpuInv_of_inStore h (by rw [hseq]; rfl) hacc rfl rfl howner (by simp [absAddr, writeAddress, hhigh])

theorem cpuInv_absMem (hseq : s.cpu.seq = .absMem) {acc : AbsAccess} (hacc : latchedAccess s = some acc) :
    CpuInv (absMem acc s.cpu.ea s) := by
  have howner := h.owner (by rw [hseq]; rfl)
  have hrwb := (rwbOk_iff_of_inStore (by rw [hseq]; rfl) hacc).mp h.rwb
  cases acc with
  | load rd =>
    rw [absMem_load]
    cases rd <;> exact cpuInv_of_inStore h (by rw [hseq]; rfl) hacc rfl rfl howner hrwb
  | store =>
    rw [absMem, memWrite_eq]
    exact cpuInv_of_inStore h (by rw [hseq]; rfl) hacc rfl rfl howner hrwb

theorem cpuInv_absData (hseq : s.cpu.seq = .absData) {acc : AbsAccess} (hacc : latchedAccess s = some acc) :
    CpuInv (absData acc s) := by
  have howner := h.owner (by rw [hseq]; rfl)
  have hrwb := (rwbOk_iff_of_inStore (by rw [hseq]; rfl) hacc).mp h.rwb
  cases acc <;> exact cpuInv_of_inStore h (by rw [hseq]; rfl) hacc rfl rfl howner hrwb

theorem cpuInv_absRel (hseq : s.cpu.seq = .absRel) : CpuInv (absRel s) := by
  have hrun := h.running_of_seq (by simp [hseq]) (by simp [hseq]) (by rw [hseq]; rfl)
  rw [absRel_of_owner (h.owner (by rw [hseq]; rfl))]
  exact cpuInv_of_idle nofun rfl rfl (phaseOk_of_running hrun rfl) rfl h.sync

/-! ### The reset (R330–R334) -/

/-- A step inside a reset keeps the state, `RWB` and `SYNC`. -/
theorem cpuInv_of_inReset (hseq : s.cpu.seq.inReset = true) {t : State} (hseq' : t.cpu.seq.inReset = true)
    (hstate : t.cpu.state = s.cpu.state) (hrwb : t.cpu.rwb = s.cpu.rwb) (hsync : t.cpu.sync = s.cpu.sync)
    (howner : t.cpuOwnerOk) : CpuInv t := by
  have hhigh := h.rwb_high (Seq.not_used_of_inReset hseq).2
  obtain ⟨hlatch, hstore⟩ := Seq.not_used_of_inReset hseq'
  exact cpuInv_of_rwb_high howner (phaseOk_of_reset (hstate.trans (h.reset_of_seq hseq)) hseq') (latchOk_of_seq hlatch) hstore
    (hrwb.trans hhigh) (hsync.trans h.sync)

theorem cpuInv_rstGranted (hseq : s.cpu.seq = .rstTry ∨ s.cpu.seq = .rstWait) : CpuInv ((grantBus .cpu s).goto .rstAddrLo) :=
  cpuInv_of_inReset h (by rcases hseq with hseq | hseq <;> rw [hseq] <;> rfl) rfl rfl rfl rfl ⟨fun _ => rfl, fun _ => rfl⟩

theorem cpuInv_rstWaits (hseq : s.cpu.seq = .rstTry) : CpuInv (s.goto .rstWait) := by
  have howner := h.unowned (by rw [hseq]; rfl)
  exact cpuInv_of_inReset h (by rw [hseq]; rfl) rfl rfl rfl rfl (by simp [State.cpuOwnerOk, Seq.holdsBus, howner])

theorem cpuInv_rstTimeout (hseq : s.cpu.seq = .rstWait) : CpuInv (rstTimeout s) := by
  have howner := h.unowned (by rw [hseq]; rfl)
  exact cpuInv_of_inReset h (by rw [hseq]; rfl) rfl rfl rfl rfl (by simp [State.cpuOwnerOk, rstTimeout, Seq.holdsBus, howner])

theorem cpuInv_rstAddrLo (hseq : s.cpu.seq = .rstAddrLo) : CpuInv (rstAddrLo s) :=
  cpuInv_of_inReset h (by rw [hseq]; rfl) rfl rfl rfl rfl ⟨fun _ => rfl, fun _ => h.owner (by rw [hseq]; rfl)⟩

theorem cpuInv_rstReadLo (hseq : s.cpu.seq = .rstReadLo) : CpuInv (rstReadLo s) := by
  rw [rstReadLo_eq]
  exact cpuInv_of_inReset h (by rw [hseq]; rfl) rfl rfl rfl rfl ⟨fun _ => rfl, fun _ => h.owner (by rw [hseq]; rfl)⟩

theorem cpuInv_rstAddrHi (hseq : s.cpu.seq = .rstAddrHi) : CpuInv (rstAddrHi s) :=
  cpuInv_of_inReset h (by rw [hseq]; rfl) rfl rfl rfl rfl ⟨fun _ => rfl, fun _ => h.owner (by rw [hseq]; rfl)⟩

theorem cpuInv_rstReadHi (hseq : s.cpu.seq = .rstReadHi) : CpuInv (rstReadHi s) := by
  rw [rstReadHi_eq]
  exact cpuInv_of_inReset h (by rw [hseq]; rfl) rfl rfl rfl rfl ⟨fun _ => rfl, fun _ => h.owner (by rw [hseq]; rfl)⟩

theorem cpuInv_rstRel (hseq : s.cpu.seq = .rstRel) : CpuInv (rstRel s) := by
  rw [rstRel_of_owner (h.owner (by rw [hseq]; rfl))]
  exact cpuInv_of_inReset h (by rw [hseq]; rfl) rfl rfl rfl rfl ⟨nofun, nofun⟩

theorem cpuInv_resetEnd (hseq : s.cpu.seq = .rstEnd) : CpuInv (resetEnd s) :=
  cpuInv_of_idle (h.unowned (by rw [hseq]; rfl)) rfl rfl (phaseOk_of_running rfl rfl) (h.rwb_high (by rw [hseq]; rfl)) h.sync

end

/-- Every atomic step of the CPU keeps the CPU's part of the invariant. -/
theorem CpuMove.cpuInv {s t : State} {e : Event} (h : CpuInv s) (hmove : CpuMove s e t) : CpuInv t := by
  cases hmove with
  | resetEntry _ hwhen =>
    refine cpuInv_resetEntry h ?_
    rcases hwhen with hon | ⟨hseq, -⟩
    · simpa [State.phaseOk, hon] using h.phase
    · exact hseq
  | startInstr hseq hrun => exact cpuInv_startInstr h hseq hrun
  | fetchOp hseq => exact cpuInv_fetchOp h hseq
  | fetchB1 hseq => exact cpuInv_fetchB1 h hseq
  | fetchB2 hseq => exact cpuInv_fetchB2 h hseq
  | exec hseq i _ hformat t hexec => exact cpuInv_exec h hseq hformat hexec
  | absGranted hseq _ => exact cpuInv_absGranted h hseq
  | absWaits hseq _ => exact cpuInv_absWaits h hseq
  | absTimeout hseq => exact cpuInv_absTimeout h hseq
  | absAddr hseq _ hacc => exact cpuInv_absAddr h hseq hacc
  | absMem hseq _ hacc => exact cpuInv_absMem h hseq hacc
  | absData hseq _ hacc => exact cpuInv_absData h hseq hacc
  | absRel hseq => exact cpuInv_absRel h hseq
  | waitLo hseq _ => exact cpuInv_waitHi h hseq
  | rstGranted hseq _ => exact cpuInv_rstGranted h hseq
  | rstWaits hseq _ => exact cpuInv_rstWaits h hseq
  | rstTimeout hseq => exact cpuInv_rstTimeout h hseq
  | rstAddrLo hseq => exact cpuInv_rstAddrLo h hseq
  | rstReadLo hseq => exact cpuInv_rstReadLo h hseq
  | rstAddrHi hseq => exact cpuInv_rstAddrHi h hseq
  | rstReadHi hseq => exact cpuInv_rstReadHi h hseq
  | rstRel hseq => exact cpuInv_rstRel h hseq
  | resetEnd hseq => exact cpuInv_resetEnd h hseq

end Sys2Proof.Machine
end

section
/-! PROOFS. The invariant of the machine: the chips, the pins and the configuration, kept by every event, and with the CPU's part
the whole (spec/40_bus_arbiter.md R105, spec/41_chip_protocol.md R134, R138, spec/10_state.md R21, R24, R25). -/

namespace Sys2Proof.Machine

/-! ### The chips after a step -/

/-- Two lists of chips with the same frames have the same chips in the same places, but for storage. -/
theorem exists_chip_of_frames {l l' : List Chip} (h : l'.map Chip.frame = l.map Chip.frame) {k : Nat} {c : Chip}
    (hk : l[k]? = some c) : ∃ c', l'[k]? = some c' ∧ c'.frame = c.frame := by
  have hframe : (l'.map Chip.frame)[k]? = some c.frame := by rw [h, List.getElem?_map, hk]; rfl
  rw [List.getElem?_map] at hframe
  exact Option.map_eq_some_iff.mp hframe

theorem Chip.phase_of_frame {c c' : Chip} (h : c'.frame = c.frame) : c'.phase = c.phase :=
  (congrArg Chip.phase h : c'.frame.phase = c.frame.phase)

/-- A step of another agent than the CPU changes at most one chip, which keeps its kind, its capacity and canonical storage. -/
theorem OtherMove.chips_cases {s t : State} {e : Event} (h : OtherMove s e t) :
    t.chips = s.chips ∨ ∃ k c c', s.chips[k]? = some c ∧ t.chips = s.chips.set k c' ∧
      c'.kind = c.kind ∧ c'.capacity = c.capacity ∧ (c.StorageOk → c'.StorageOk) := by
  cases h with
  | chipLocal _ k c c' ev hk hlocal =>
    exact .inr ⟨k, c, c', hk, rfl, hlocal.kind, hlocal.capacity, hlocal.storageOk⟩
  | chipGranted k c hk => exact .inr ⟨k, c, _, hk, rfl, rfl, rfl, id⟩
  | chipDrive k c hk => exact .inr ⟨k, c, _, hk, rfl, rfl, rfl, id⟩
  | chipRelease k c hk => exact .inr ⟨k, c, _, hk, rfl, rfl, rfl, id⟩
  | _ => exact .inl rfl

theorem OtherMove.cfg {s t : State} {e : Event} (h : OtherMove s e t) : t.cfg = s.cfg := by
  cases h <;> rfl

/-- Replacing an element by one with the same image keeps the list of the images. -/
theorem map_set_of_eq {α β : Type} {f : α → β} {l : List α} {k : Nat} {x y : α} (hk : l[k]? = some x) (hf : f y = f x) :
    (l.set k y).map f = l.map f := by
  obtain ⟨hlt, rfl⟩ := List.getElem?_eq_some_iff.mp hk
  rw [List.map_set, hf, ← List.getElem_map f (h := by simpa using hlt), List.set_getElem_self]

theorem OtherMove.chipConfigs {s t : State} {e : Event} (h : OtherMove s e t) {β : Type} (f : ChipKind → Nat → β) :
    t.chips.map (fun c => f c.kind c.capacity) = s.chips.map fun c => f c.kind c.capacity := by
  obtain hchips | ⟨k, c, c', hk, hchips, hkind, hcap, -⟩ := h.chips_cases
  · rw [hchips]
  · rw [hchips, map_set_of_eq hk (by rw [hkind, hcap])]

theorem CpuFrame.chipConfigs {s t : State} (h : CpuFrame s t) {β : Type} (f : ChipKind → Nat → β) :
    t.chips.map (fun c => f c.kind c.capacity) = s.chips.map fun c => f c.kind c.capacity := by
  simpa [Chip.frame, Function.comp_def] using congrArg (List.map fun c => f c.kind c.capacity) h.chips

theorem OtherMove.memoryOk {s t : State} {e : Event} (h : OtherMove s e t) (hok : s.memoryOk) : t.memoryOk := by
  obtain hchips | ⟨k, c, c', hk, hchips, -, -, hstorage⟩ := h.chips_cases
  · rwa [State.memoryOk, hchips]
  · intro d hd
    rw [hchips] at hd
    obtain hd | rfl := List.mem_or_eq_of_mem_set hd
    · exact hok d hd
    · exact hstorage (hok c (List.mem_of_getElem? hk))

/-! ### The pins (R21) -/

theorem releaseBus_pins (id : ComponentId) (s : State) : (releaseBus id s).bus.pins = s.bus.pins := by
  by_cases howner : s.bus.owner = some id
  · rw [releaseBus_of_owner howner]
  · rw [releaseBus_of_not_owner howner]

theorem OtherMove.pinsOk {s t : State} {e : Event} (h : OtherMove s e t) (hwf : s.cfg.wellFormed = true) (hok : s.pinsOk) :
    t.pinsOk := by
  cases h with
  | pins act p hhigh => exact fun j hj => hhigh hwf j hj (hok j hj)
  | chipDrive k c =>
    intro j hj
    exact (pinAt_putData_of_outside (.inr (Nat.le_trans (Config.busWidth_bounds hwf).1 hj)) _ _).trans (hok j hj)
  | chipRelease k c => exact fun j hj => (congrArg (pinAt j) (releaseBus_pins _ s)).trans (hok j hj)
  | _ => exact hok

theorem BusFrame.pinsOk {s t : State} (h : BusFrame s t) (hcfg : t.cfg = s.cfg) (hwf : s.cfg.wellFormed = true)
    (hok : s.pinsOk) : t.pinsOk := by
  intro j hj
  rw [hcfg] at hj
  rw [h.pins j (Nat.le_trans (Config.busWidth_bounds hwf).1 hj), hok j hj]

/-! ### The owner (R105) -/

/-- A step that changes no chip's phase and no chip's ownership keeps the part about them. -/
theorem chipOwnerOk_of_frames {s t : State} (hok : s.chipOwnerOk) (hchips : t.chips.map Chip.frame = s.chips.map Chip.frame)
    (howner : ∀ k, t.bus.owner = some (.chip k) ↔ s.bus.owner = some (.chip k)) : t.chipOwnerOk := by
  intro k
  rw [howner, hok k]
  constructor
  · rintro ⟨c, hk, hphase⟩
    obtain ⟨c', hk', hframe⟩ := exists_chip_of_frames hchips hk
    exact ⟨c', hk', by rw [Chip.phase_of_frame hframe, hphase]⟩
  · rintro ⟨c, hk, hphase⟩
    obtain ⟨c', hk', hframe⟩ := exists_chip_of_frames hchips.symm hk
    exact ⟨c', hk', by rw [Chip.phase_of_frame hframe, hphase]⟩

/-- A step of one chip to a phase that fits the owner, the other chips' ownership unchanged. -/
theorem chipOwnerOk_of_set {s t : State} (hok : s.chipOwnerOk) {k : Nat} {c c' : Chip} (hk : s.chips[k]? = some c)
    (hchips : t.chips = s.chips.set k c') (hself : t.bus.owner = some (.chip k) ↔ c'.phase.holdsBus = true)
    (hothers : ∀ j, j ≠ k → (t.bus.owner = some (.chip j) ↔ s.bus.owner = some (.chip j))) : t.chipOwnerOk := by
  intro j
  rw [hchips]
  by_cases hj : j = k
  · subst hj
    obtain ⟨hlt, -⟩ := List.getElem?_eq_some_iff.mp hk
    simp [List.getElem?_set_self hlt, hself]
  · rw [List.getElem?_set_ne (Ne.symm hj), hothers j hj, hok j]

theorem BusFrame.chipOwner {s t : State} (h : BusFrame s t) (k : Nat) :
    t.bus.owner = some (.chip k) ↔ s.bus.owner = some (.chip k) := by
  obtain heq | ⟨hs, ht⟩ | ⟨hs, ht⟩ := h.owner
  · rw [heq]
  · simp [hs, ht]
  · simp [hs, ht]

/-- Chip `k` owns the bus exactly if it stands between its grant and its release. -/
theorem State.chipOwnerOk.iff {s : State} (hok : s.chipOwnerOk) {k : Nat} {c : Chip} (hk : s.chips[k]? = some c) :
    s.bus.owner = some (.chip k) ↔ c.phase.holdsBus = true := by
  rw [hok k, hk]
  simp

theorem OtherMove.chipOwnerOk {s t : State} {e : Event} (h : OtherMove s e t) (hok : s.chipOwnerOk) : t.chipOwnerOk := by
  cases h with
  | hostGranted _ _ hfree => exact chipOwnerOk_of_frames hok rfl fun k => by simp [grantBus, hfree]
  | hostRelease howner => exact chipOwnerOk_of_frames hok rfl fun k => by simp [howner]
  | chipLocal _ k c c' ev hk hlocal =>
    exact chipOwnerOk_of_set hok hk rfl (by rw [hlocal.holdsBus]; exact hok.iff hk) fun _ _ => .rfl
  | chipGranted k c hk _ hfree =>
    exact chipOwnerOk_of_set hok hk rfl (by simp [Machine.chipGranted, grantBus, ChipPhase.holdsBus])
      fun j hj => by simp [Machine.chipGranted, grantBus, hfree, Ne.symm hj]
  | chipDrive k c hk hphase =>
    refine chipOwnerOk_of_set hok hk rfl ((hok.iff hk).trans (by simp [hphase, ChipPhase.holdsBus])) fun _ _ => .rfl
  | chipRelease k c hk hphase =>
    have howner : s.bus.owner = some (.chip k) := (hok.iff hk).mpr (by rw [hphase]; rfl)
    rw [releaseBus_of_owner howner]
    exact chipOwnerOk_of_set hok hk rfl (by simp [ChipPhase.holdsBus]) fun j hj => by simp [howner, Ne.symm hj]
  | _ => exact hok

/-- Another agent than the CPU neither takes the bus from it nor gives it to it (R105). -/
theorem OtherMove.cpuOwner {s t : State} {e : Event} (h : OtherMove s e t) :
    t.bus.owner = some .cpu ↔ s.bus.owner = some .cpu := by
  cases h with
  | hostGranted _ _ hfree => simp [grantBus, hfree]
  | hostRelease howner => simp [howner]
  | chipGranted k c _ _ hfree => simp [Machine.chipGranted, grantBus, hfree]
  | chipRelease k c =>
    by_cases howner : s.bus.owner = some (.chip k)
    · rw [releaseBus_of_owner howner]
      simp [howner]
    · rw [releaseBus_of_not_owner howner]
      rfl
  | _ => rfl

/-! ### The CPU's part, kept by the other agents -/

/-- The CPU's part of the invariant reads the ownership, the phase, `RWB` and what a bracket keeps. -/
theorem CpuInv.congr {s t : State} (h : CpuInv s) (howner : t.bus.owner = some .cpu ↔ s.bus.owner = some .cpu)
    (hseq : t.cpu.seq = s.cpu.seq) (hrwb : t.cpu.rwb = s.cpu.rwb) (hlatched : t.cpu.latched = s.cpu.latched) : CpuInv t := by
  simp only [Cpu.latched, Prod.mk.injEq] at hlatched
  obtain ⟨hstate, hsync, hop, hb1, hb2, hea⟩ := hlatched
  obtain ⟨hcpuOwner, hphase, hlatch, hrwbOk, hsyncOk⟩ := h
  constructor
  · rwa [State.cpuOwnerOk, howner, hseq]
  · rwa [State.phaseOk, hstate, hseq]
  · rwa [State.latchOk, hseq, hop, hb1, hb2, hea]
  · rwa [State.rwbOk, latchedAccess, latchedInstr, hseq, hop, hb1, hb2, hrwb]
  · rw [hsync, hsyncOk]

/-- An event of another agent keeps the CPU's part: it drives inputs, clears the run flag, or switches the CPU on (R13, R201, R222). -/
theorem cpuInv_of_other {e : Event} {s t : State} (h : CpuInv s) (hstep : eventStep e s = some (.next t)) (hcpu : e ≠ .cpu)
    (htimeout : e ≠ .cpuTimeout) (hspan : e ≠ .cpuSpan) : CpuInv t := by
  have howner := (eventStep_other hstep hcpu htimeout hspan).cpuOwner
  obtain hcpu | ⟨p, -, hcpu⟩ | ⟨-, hcpu⟩ | ⟨-, hcpu⟩ := eventStep_cpu_cases hstep hcpu htimeout hspan
  case inr.inr.inl =>
    by_cases hoff : s.cpu.state = .powerOff
    · rw [if_pos hoff] at hcpu
      have hseq : s.cpu.seq = .waitHi := by simpa [State.phaseOk, hoff] using h.phase
      have hidle := h.unowned (by rw [hseq]; rfl)
      have hhigh := h.rwb_high (by rw [hseq]; rfl)
      exact cpuInv_of_idle (fun hc => hidle (howner.mp hc)) (by rw [hcpu, hseq]; rfl) (by rw [hcpu, hseq]; rfl)
        (by simp [State.phaseOk, hcpu, hseq]) (by rw [hcpu, hhigh]) (by rw [hcpu, h.sync])
    · rw [if_neg hoff] at hcpu
      exact h.congr howner (by rw [hcpu]) (by rw [hcpu]) (by rw [hcpu])
  case inr.inl => exact h.congr howner (by rw [hcpu]; rfl) (by rw [hcpu]; rfl) (by rw [hcpu]; rfl)
  case inl => exact h.congr howner (by rw [hcpu]) (by rw [hcpu]) (by rw [hcpu])
  case inr.inr.inr => exact h.congr howner (by rw [hcpu]) (by rw [hcpu]) (by rw [hcpu]; rfl)

/-! ### The whole invariant -/

/-- The frame of a CPU event's step (R312). -/
theorem eventStep_cpuFrame {e : Event} {s t : State} (h : eventStep e s = some (.next t))
    (he : e = .cpu ∨ e = .cpuTimeout ∨ e = .cpuSpan) : CpuFrame s t := by
  obtain ⟨-, h⟩ := eventStep_some h
  have hframe : ∃ u, (.next t : Result) = .next u ∧ CpuFrame s u := by
    rcases he with rfl | rfl | rfl
    · exact frame_cpuStep h
    · exact frame_cpuTimeoutStep h
    · exact frame_cpuSpanStep h
  obtain ⟨u, hu, hframe⟩ := hframe
  cases hu
  exact hframe

/-- An atomic step of the CPU keeps the invariant. -/
theorem inv_of_cpu {e : Event} {s t : State} (h : s.Inv) (hstep : eventStep e s = some (.next t))
    (he : e = .cpu ∨ e = .cpuTimeout) : t.Inv := by
  have hmove := eventStep_cpu hstep he
  have hframe := eventStep_cpuFrame hstep (he.imp_right .inl)
  obtain ⟨hcpuOwner, hphase, hlatch, hrwb, hsync⟩ := hmove.cpuInv h.cpuInv
  refine ⟨by rw [hframe.cfg, h.config], hcpuOwner, ?_, hphase, hlatch, hrwb, hsync, hmove.busFrame.memory h.memory,
    hmove.busFrame.pinsOk hframe.cfg h.config h.pins, ?_⟩
  · exact chipOwnerOk_of_frames h.chipOwner hframe.chips hmove.busFrame.chipOwner
  · rw [State.chipsOk, hframe.chipConfigs ChipConfig.mk, hframe.cfg, h.chips]

/-- A step of another agent keeps the invariant. -/
theorem inv_of_other {e : Event} {s t : State} (h : s.Inv) (hstep : eventStep e s = some (.next t)) (hcpu : e ≠ .cpu)
    (htimeout : e ≠ .cpuTimeout) (hspan : e ≠ .cpuSpan) : t.Inv := by
  have hmove := eventStep_other hstep hcpu htimeout hspan
  obtain ⟨hcpuOwner, hphase, hlatch, hrwb, hsync⟩ := cpuInv_of_other h.cpuInv hstep hcpu htimeout hspan
  refine ⟨by rw [hmove.cfg, h.config], hcpuOwner, hmove.chipOwnerOk h.chipOwner, hphase, hlatch, hrwb, hsync,
    hmove.memoryOk h.memory, hmove.pinsOk h.config h.pins, ?_⟩
  rw [State.chipsOk, hmove.chipConfigs ChipConfig.mk, hmove.cfg, h.chips]

theorem CpuPlays.inv {s t : State} (h : CpuPlays s t) (hinv : s.Inv) : t.Inv := by
  obtain ⟨evs, hevs, hplays⟩ := h
  induction hplays with
  | nil s => exact hinv
  | cons hstep _ ih =>
    exact ih (inv_of_cpu hinv hstep (hevs _ List.mem_cons_self)) fun e he => hevs e (List.mem_cons_of_mem _ he)

/-- Every event keeps the invariant; a span does, as a run of atomic steps (`cpuPlays_cpuSpanStep`). -/
theorem eventStep_inv {e : Event} {s t : State} (h : s.Inv) (hstep : eventStep e s = some (.next t)) : t.Inv := by
  by_cases hspan : e = .cpuSpan
  · subst hspan
    obtain ⟨hfault, hspan⟩ := eventStep_some hstep
    exact (cpuPlays_cpuSpanStep hfault hspan).1.inv h
  by_cases hcpu : e = .cpu ∨ e = .cpuTimeout
  · exact inv_of_cpu h hstep hcpu
  · exact inv_of_other h hstep (fun he => hcpu (.inl he)) (fun he => hcpu (.inr he)) hspan

/-- A step of the machine takes the next event off, and runs it if it is enabled. -/
theorem step_next_cases {s t : State} (h : step s = .next t) :
    t = s.takeEvent ∨ eventStep s.nextEvent s.takeEvent = some (.next t) := by
  cases hfault : s.fault with
  | some r => rw [step_of_fault hfault] at h; cases h
  | none =>
    simp only [step, hfault] at h
    cases hstep : eventStep s.nextEvent s.takeEvent with
    | none => rw [runEvent_of_disabled hstep] at h; cases h; exact .inl rfl
    | some r => rw [runEvent_of_enabled hstep] at h; exact .inr (by rw [h])

/-- Taking an event off the schedule changes nothing but the schedule or the count of draws. -/
theorem State.takeEvent_eq (s : State) : ∃ evs n, s.takeEvent = { s with sched := evs, draws := n } := by
  cases hs : s.sched with
  | nil => exact ⟨[], s.draws + 1, by simp only [State.takeEvent, hs]⟩
  | cons e rest => exact ⟨rest, s.draws, by simp only [State.takeEvent, hs]⟩

/-- The invariant reads neither the schedule nor the draws. -/
theorem State.Inv.sched_draws {s : State} (h : s.Inv) (evs : List Event) (n : Nat) :
    State.Inv { s with sched := evs, draws := n } :=
  ⟨h.config, h.cpuOwner, h.chipOwner, h.phase, h.latch, h.rwb, h.sync, h.memory, h.pins, h.chips⟩

/-- Settles O57: the step's event keeps the invariant (`eventStep_inv`), and taking it off the schedule does. -/
theorem everyStepKeepsTheInvariant : Obligations.EveryStepKeepsTheInvariant := by
  intro s t h hstep
  obtain ⟨evs, n, htake⟩ := s.takeEvent_eq
  have htaken : s.takeEvent.Inv := by rw [htake]; exact h.sched_draws evs n
  obtain rfl | hstep := step_next_cases hstep
  · exact htaken
  · exact eventStep_inv htaken hstep

/-- No event changes the configuration, or any chip's kind or capacity (R7, R25, R28). -/
theorem eventStep_configs {e : Event} {s t : State} (h : eventStep e s = some (.next t)) :
    t.cfg = s.cfg ∧ ∀ {β : Type} (f : ChipKind → Nat → β),
      t.chips.map (fun c => f c.kind c.capacity) = s.chips.map fun c => f c.kind c.capacity := by
  by_cases he : e = .cpu ∨ e = .cpuTimeout ∨ e = .cpuSpan
  · have hframe := eventStep_cpuFrame h he
    exact ⟨hframe.cfg, hframe.chipConfigs⟩
  · simp only [not_or] at he
    have hmove := eventStep_other h he.1 he.2.1 he.2.2
    exact ⟨hmove.cfg, hmove.chipConfigs⟩

/-- Settles O54: the step's event changes none of it (`eventStep_configs`), nor does taking it off the schedule. -/
theorem configurationIsConstant : Obligations.ConfigurationIsConstant := by
  intro s t hstep
  obtain ⟨evs, n, htake⟩ := s.takeEvent_eq
  have hkept : t.cfg = s.cfg ∧ ∀ {β : Type} (f : ChipKind → Nat → β),
      t.chips.map (fun c => f c.kind c.capacity) = s.chips.map fun c => f c.kind c.capacity := by
    obtain rfl | hstep := step_next_cases hstep
    · rw [htake]
      exact ⟨rfl, fun _ => rfl⟩
    · simpa only [htake] using eventStep_configs hstep
  obtain ⟨hcfg, hchips⟩ := hkept
  exact ⟨hcfg, hchips Prod.mk, fun hok => by rw [State.chipsOk, hchips ChipConfig.mk, hcfg, hok]⟩

/-! ### Creation (R12, R24–R39) -/

/-- A created machine meets the invariant. -/
theorem create_inv {c : Config} (hwf : c.wellFormed = true) (draw : CpuDraw) : (State.create c draw).Inv where
  config := hwf
  cpuOwner := ⟨nofun, nofun⟩
  chipOwner k := by
    refine ⟨nofun, fun ⟨d, hd, hphase⟩ => ?_⟩
    obtain ⟨kc, -, rfl⟩ := List.mem_map.mp (List.mem_of_getElem? hd)
    cases hphase
  phase := rfl
  latch := latchOk_of_seq rfl
  rwb := rwbOk_of_high rfl rfl
  sync := rfl
  memory d hd := by
    obtain ⟨kc, -, rfl⟩ := List.mem_map.mp hd
    rfl
  pins := fun j _ => pinAt_zero j
  chips := by simp [State.chipsOk, State.create, Chip.create, Function.comp_def]

theorem preload_memoryOk (image : List ImageByte) {s : State} (hok : s.memoryOk) : (preload image s).memoryOk := by
  induction image generalizing s with
  | nil => exact hok
  | cons entry rest ih => exact ih (hok.chipWriteByte _ _ _)

/-- A preload keeps the invariant: it changes storage and events only (`preload_frame`). -/
theorem preload_inv (image : List ImageByte) {s : State} (h : s.Inv) : (preload image s).Inv := by
  obtain ⟨hframe, hbus, hcpu⟩ := preload_frame image s
  obtain ⟨hcpuOwner, hphase, hlatch, hrwb, hsync⟩ :=
    h.cpuInv.congr (t := preload image s) (by rw [hbus]) (by rw [hcpu]) (by rw [hcpu]) (by rw [hcpu])
  exact ⟨by rw [hframe.cfg, h.config], hcpuOwner, chipOwnerOk_of_frames h.chipOwner hframe.chips fun k => by rw [hbus],
    hphase, hlatch, hrwb, hsync, preload_memoryOk image h.memory, by rw [State.pinsOk, hbus, hframe.cfg]; exact h.pins,
    by rw [State.chipsOk, hframe.chipConfigs ChipConfig.mk, hframe.cfg, h.chips]⟩

/-- Settles O59: the created machine meets it (`create_inv`), and a preload keeps it. -/
theorem everyAssemblyMeetsTheInvariant : Obligations.EveryAssemblyMeetsTheInvariant :=
  fun _ draw image hwf => preload_inv image (create_inv hwf draw)

/-- A run of any length keeps the invariant. -/
theorem run_inv (n : Nat) {s t : State} (h : s.Inv) (hrun : Host.Core.run Sys2Proof.core n s = .next t) : t.Inv := by
  induction n generalizing s with
  | zero => cases hrun; exact h
  | succ n ih =>
    simp only [Host.Core.run] at hrun
    split at hrun
    · next u hu => exact ih (everyStepKeepsTheInvariant s u h hu) hrun
    · cases hrun
    · cases hrun

/-- Settles O58: the reset state is the reference assembly, created and booted (`resetStateIsTheBootedReference`). -/
theorem resetMeetsTheInvariant : Obligations.ResetMeetsTheInvariant := by
  have draw : CpuDraw := ⟨0, 0, 0, 0, 0, Flags.afterReset⟩
  have hcreated : (State.create Config.reference draw).Inv := create_inv (by decide) draw
  exact run_inv bootEvents.length (hcreated.sched_draws bootEvents 0) (resetStateIsTheBootedReference draw)

end Sys2Proof.Machine
end

section
/-! PROOFS. What follows of the list of an agent's possible steps (`OtherMove`, `CpuMove`): who changes the owner, the fault, the
clock pin and the pins, and the agents' steps at their loop tops (spec/40_bus_arbiter.md R101–R114, spec/41_chip_protocol.md
R131–R146, spec/43_clock.md R181–R189). -/

namespace Sys2Proof.Machine

/-! ### The clock (R181–R189) -/

/-- A valid speed is a bit pattern of a finite binary32 value above zero (R188, assumption log 7). -/
theorem speedValid_iff (f : F32) : speedValid f = true ↔ 0 < f.toNat ∧ f.toNat < 0x7F800000 := by
  have hexponent : f.extractLsb' 23 8 = 0xFF ↔ f.toNat / 2 ^ 23 % 256 = 255 := by
    simp [← BitVec.toNat_inj, BitVec.extractLsb'_toNat, Nat.shiftRight_eq_div_pow]
  have hvalue : f.extractLsb' 0 31 = 0 ↔ f.toNat % 2 ^ 31 = 0 := by
    simp [← BitVec.toNat_inj, BitVec.extractLsb'_toNat]
  have hsign : f.msb = false ↔ f.toNat < 2 ^ 31 := by simp [BitVec.msb_eq_decide]
  simp only [speedValid, Bool.and_eq_true, bne_iff_ne, ne_eq, Bool.not_eq_true', hexponent, hvalue, hsign]
  omega

/-- Only `step()` and the oscillator change `clk_pin`. -/
theorem clkPin_changed {e : Event} {s t : State} (h : eventStep e s = some (.next t)) (hpin : t.clock.clkPin ≠ s.clock.clkPin) :
    e = .host .clockStep ∨
    (e = .clock ∧ s.clock.mode = .astable ∧ s.clock.alive = true ∧ speedValid s.clock.speedHz = true) := by
  by_cases he : e = .cpu ∨ e = .cpuTimeout ∨ e = .cpuSpan
  · exact absurd (congrArg Clock.clkPin (eventStep_cpuFrame h he).clock) hpin
  · simp only [not_or] at he
    cases eventStep_other h he.1 he.2.1 he.2.2 with
    | clockStep => exact .inl rfl
    | clockAgent hmode halive hspeed => exact .inr ⟨rfl, hmode, halive, hspeed⟩
    | clockField _ f hkept => exact absurd hkept hpin
    | _ => exact absurd rfl hpin

theorem clockAgentStep_of_ready {s : State} (hmode : s.clock.mode = .astable) (halive : s.clock.alive = true)
    (hspeed : speedValid s.clock.speedHz = true) : clockAgentStep s = some (toggleClock s) := by
  simp [clockAgentStep, hmode, halive, hspeed]

/-- Settles O49: each operation is one step of the host; the oscillator's step is `clockAgentStep_of_ready`, and what changes
`clk_pin` is `clkPin_changed`. -/
theorem clockOperations : Obligations.ClockOperations := by
  intro s hfault
  refine ⟨eventStep_host hfault rfl, fun halive hspeed => ?astable, eventStep_host hfault rfl, ?monostable,
    fun hmode e t h hpin => ?only, eventStep_host hfault rfl, rfl⟩
  case astable => rw [clockAgentStep_of_ready (s := setAstable s) rfl halive hspeed]; rfl
  case monostable => simp [clockAgentStep, setMonostable]
  case only =>
    obtain he | ⟨-, hastable, -⟩ := clkPin_changed h hpin
    · exact he
    · rw [hmode] at hastable; cases hastable

/-- Settles O50: `step()` and `set_speed` are steps of the host, the oscillator toggles (`clockAgentStep_of_ready`), and no other
event changes the pin (`clkPin_changed`). -/
theorem clockPinChangesOnlyByAToggle : Obligations.ClockPinChangesOnlyByAToggle := by
  refine ⟨fun s f hfault => ⟨eventStep_host hfault rfl, eventStep_host hfault rfl⟩, fun s hfault hmode halive hlow hhigh => ?_,
    fun e s t h hpin => ?_⟩
  · have hstep := clockAgentStep_of_ready hmode halive ((speedValid_iff _).mpr ⟨hlow, hhigh⟩)
    rw [eventStep_of_no_fault hfault, agentStep, hstep]
    rfl
  · obtain he | ⟨he, hmode, halive, hspeed⟩ := clkPin_changed h hpin
    · exact .inl he
    · obtain ⟨hlow, hhigh⟩ := (speedValid_iff _).mp hspeed
      exact .inr ⟨he, hmode, halive, hhigh, hlow⟩

/-! ### The fault (R41, R114) -/

/-- An event that leaves a fault is a pin access outside the bus. -/
theorem fault_raised {e : Event} {s t : State} (h : eventStep e s = some (.next t)) (hfault : t.fault ≠ none) :
    ∃ i, s.cfg.busWidth ≤ i ∧ t.fault = some (.pinIndexOutOfRange i) ∧
      (e = .host (.getPin i) ∨ ∃ v, e = .host (.setPin i v)) := by
  have hnone := (eventStep_some h).1
  by_cases he : e = .cpu ∨ e = .cpuTimeout ∨ e = .cpuSpan
  · exact absurd ((eventStep_cpuFrame h he).fault.trans hnone) hfault
  · simp only [not_or] at he
    cases eventStep_other h he.1 he.2.1 he.2.2 with
    | fault act i hi hact =>
      refine ⟨i, hi, rfl, ?_⟩
      obtain rfl | ⟨v, rfl⟩ := hact
      · exact .inl rfl
      · exact .inr ⟨v, rfl⟩
    | _ => exact absurd hnone hfault

/-- Settles O36: the two accesses are steps of the host, no other event raises a fault (`fault_raised`), and none steps under one. -/
theorem faultIsRaisedOnlyByAPinIndex : Obligations.FaultIsRaisedOnlyByAPinIndex := by
  refine ⟨fun i v s hfault hi => ⟨eventStep_host hfault ?_, eventStep_host hfault ?_⟩, fun e s t h hfault => fault_raised h hfault,
    fun e s hfault => ?_, fun s r hr => step_of_fault hr⟩
  · simp [hostStep, setPin, Nat.not_lt.mpr hi, pinFault]
  · simp [hostStep, getPin, Nat.not_lt.mpr hi, pinFault]
  · obtain ⟨r, hr⟩ := Option.ne_none_iff_exists'.mp hfault
    simp [eventStep, hr]

/-! ### The owner of the bus (R105) -/

/-- The CPU takes the bus from nobody and gives it back, in a step of its own; its timeout changes no owner. -/
theorem CpuMove.owner_changed {e : Event} {s t : State} (h : CpuMove s e t) (howner : t.bus.owner ≠ s.bus.owner) :
    e = .cpu ∧ ((s.bus.owner = none ∧ t.bus.owner = some .cpu) ∨ (s.bus.owner = some .cpu ∧ t.bus.owner = none)) := by
  refine ⟨?_, h.busFrame.owner.resolve_left howner⟩
  cases h with
  | absTimeout | rstTimeout => exact absurd rfl howner
  | _ => rfl

/-- A step of another agent that changes the owner is a grant from nobody or the owner's release. -/
theorem OtherMove.owner_changed {e : Event} {s t : State} (h : OtherMove s e t) (howner : t.bus.owner ≠ s.bus.owner) :
    (s.bus.owner = none ∧ ((∃ k, t.bus.owner = some (.chip k) ∧ e = .chip k) ∨
      (t.bus.owner = some .host ∧ (e = .host .request ∨ e = .hostGrant)))) ∨
    (t.bus.owner = none ∧ ((∃ k, s.bus.owner = some (.chip k) ∧ e = .chip k) ∨
      (s.bus.owner = some .host ∧ e = .host .release))) := by
  cases h with
  | hostGranted _ he hfree => exact .inl ⟨hfree, .inr ⟨rfl, he⟩⟩
  | hostRelease hhost => exact .inr ⟨rfl, .inr ⟨hhost, rfl⟩⟩
  | chipGranted k c _ _ hfree => exact .inl ⟨hfree, .inl ⟨k, rfl, rfl⟩⟩
  | chipRelease k c =>
    by_cases hchip : s.bus.owner = some (.chip k)
    · exact .inr ⟨by rw [releaseBus_of_owner hchip]; rfl, .inl ⟨k, hchip, rfl⟩⟩
    · rw [releaseBus_of_not_owner hchip] at howner
      exact absurd rfl howner
  | _ => exact absurd rfl howner

theorem exec_owner {i : Instr} {s t : State} (h : exec i s = .next t) : t.bus.owner = s.bus.owner := by
  obtain ⟨-, -, -, -, -, -, -, howner, -⟩ := instructionFrame i s t h
  exact howner

theorem resetSpan_owner (s : State) : (resetSpan s).bus.owner = s.bus.owner := by
  by_cases hfree : s.bus.owner = none
  · rw [resetReadsTheVectorWhenTheBusIsFree s hfree _ rfl]
  · rw [resetFallsBackWhenTheBusIsHeld s hfree]

theorem fetchInstr_owner (s : State) : (fetchInstr s).bus.owner = s.bus.owner := by
  have hop : (fetchOp (startInstr s)).bus = s.bus := (fetchOp_bus_chips _).1
  unfold fetchInstr fetchOperands
  dsimp only
  split <;> split
  · rw [(fetchB2_bus_chips _).1, (fetchB1_bus_chips _).1, hop]
  · rw [(fetchB1_bus_chips _).1, hop]
  · rw [(fetchB2_bus_chips _).1, hop]
  · rw [hop]

theorem runFetched_owner {s t : State} (h : runFetched s = .next t) : t.bus.owner = s.bus.owner := by
  unfold runFetched at h
  split at h
  · split at h
    · next i _ => exact exec_owner h
    · cases h; rfl
  · cases h; rfl

/-- A whole span gives the bus back before it ends, or never has it (R220, D44). -/
theorem cpuSpanStep_owner {s t : State} (h : cpuSpanStep s = some (.next t)) : t.bus.owner = s.bus.owner := by
  unfold cpuSpanStep at h
  split at h
  · cases h; exact resetSpan_owner s
  · split at h
    · cases h; exact resetSpan_owner s
    · exact (runFetched_owner (Option.some.inj h)).trans (fetchInstr_owner s)
    · cases h

/-- Settles O33: the CPU's steps (`CpuMove.owner_changed`), the other agents' (`OtherMove.owner_changed`), and a span changes no
owner. -/
theorem ownershipPassesThroughARelease : Obligations.OwnershipPassesThroughARelease := by
  intro e s t h howner
  by_cases hspan : e = .cpuSpan
  · subst hspan
    exact absurd (cpuSpanStep_owner (eventStep_some h).2) howner
  by_cases hcpu : e = .cpu ∨ e = .cpuTimeout
  · obtain ⟨rfl, ⟨hfree, hgrant⟩ | ⟨hheld, hrelease⟩⟩ := (eventStep_cpu h hcpu).owner_changed howner
    · exact .inl ⟨hfree, .inl ⟨hgrant, rfl⟩⟩
    · exact .inr ⟨hrelease, .inl ⟨hheld, rfl⟩⟩
  · simp only [not_or] at hcpu
    obtain ⟨hfree, hgrant⟩ | ⟨hnone, hrelease⟩ := (eventStep_other h hcpu.1 hcpu.2 hspan).owner_changed howner
    · exact .inl ⟨hfree, .inr hgrant⟩
    · exact .inr ⟨hnone, .inr hrelease⟩

/-! ### Requests (R101–R103, R119, R134, R135) -/

/-! A chip's steps by its phase. -/

section
variable {k : Nat} {c : Chip} {s : State} (hk : s.chips[k]? = some c)
include hk

theorem chipStep_of_top (hphase : c.phase = .top) (halive : c.alive = true) : chipStep k s = some (poll k c s) := by
  simp [chipStep, hk, chipPhaseStep, hphase, halive]

theorem chipStep_of_free (hphase : c.phase = .try ∨ c.phase = .wait) (hfree : s.bus.owner = none) :
    chipStep k s = some { s with
      bus := { s.bus with owner := some (.chip k) }, chips := s.chips.set k { c with phase := .drive } } := by
  rcases hphase with hphase | hphase <;>
    simp [chipStep, hk, chipPhaseStep, hphase, busFree_of_none hfree, chipGranted, grantBus, State.mapBus, State.setChip]

theorem chipStep_of_held (hphase : c.phase = .try) (hheld : s.bus.owner ≠ none) :
    chipStep k s = some { s with chips := s.chips.set k { c with phase := .wait } } := by
  simp [chipStep, hk, chipPhaseStep, hphase, busFree_of_owner hheld, State.setChip]

theorem chipStep_of_wait_held (hphase : c.phase = .wait) (hheld : s.bus.owner ≠ none) : chipStep k s = none := by
  simp [chipStep, hk, chipPhaseStep, hphase, busFree_of_owner hheld]

theorem chipStep_of_drive (hphase : c.phase = .drive) :
    chipStep k s = some { s with
      bus := { s.bus with pins := putData c.latch s.bus.pins }, chips := s.chips.set k { c with phase := .rel } } := by
  simp [chipStep, hk, chipPhaseStep, hphase, writeData, State.mapBus, State.setChip]

theorem chipStep_of_rel (hphase : c.phase = .rel) (howner : s.bus.owner = some (.chip k)) :
    chipStep k s = some { s with
      bus := { s.bus with owner := none }, chips := s.chips.set k { c with phase := .top } } := by
  simp [chipStep, hk, chipPhaseStep, hphase, releaseBus_of_owner howner, State.setChip]

theorem chipTimeoutStep_of_wait (hphase : c.phase = .wait) :
    chipTimeoutStep k s = some { s with
      chips := s.chips.set k { c with phase := .top }, diag := s.diag ++ [⟨.warning, .busTimeout (.chip k)⟩] } := by
  simp [chipTimeoutStep, hk, hphase, State.log, State.setChip]

end

/-- Settles O32: each step is its definition's, on a free or a held bus. -/
theorem requestsAreTriedGrantedOrTimedOut : Obligations.RequestsAreTriedGrantedOrTimedOut := by
  intro s
  refine ⟨fun hidle hfree => ?_, fun hidle hheld => ?_, fun hwait => ⟨?_, ?_⟩, fun hwait hfree => ?_, fun hheld => ?_,
    fun k c hk => ⟨chipStep_of_free hk, chipStep_of_held hk, chipStep_of_wait_held hk, chipTimeoutStep_of_wait hk⟩⟩
  · simp [hostStep, hostRequest, hidle, busFree_of_none hfree, grantBus, State.mapBus]
  · simp [hostStep, hostRequest, hidle, busFree_of_owner hheld]
  · simp [hostStep, hostRequest, hwait]
  · simp [hostTimeoutStep, hwait]
  · simp [hostGrantStep, hwait, busFree_of_none hfree, grantBus, State.mapBus]
  · simp [hostGrantStep, busFree_of_owner hheld]

/-! ### Chips (R131–R138, R146) -/

/-- Settles O37: an alive chip at its top polls, and the poll is its code's cycle. -/
theorem chipPollWritesOrDoesNothing : Obligations.ChipPollWritesOrDoesNothing := by
  intro k c s hk hphase halive
  rw [chipStep_of_top hk hphase halive]
  refine ⟨fun hce => ?_, fun hce hoe hwe => ?_, fun hce hoe hwe => ?_, fun hce hoe hwe => ⟨fun ha => ?_, fun ha => ?_⟩⟩
  · simp [poll, chipAction, hce]
  · simp [poll, chipAction, hce, hoe, hwe]
  · simp [poll, chipAction, hce, hoe, hwe]
  · simp [poll, chipAction, hce, hoe, hwe, writeCycle, ha, chipWriteByte_of_lt hk ha]
  · simp [poll, chipAction, hce, hoe, hwe, writeCycle, Nat.not_lt.mpr ha, logOutOfRange_eq]

/-- The poll of the read code: the addressed byte in `d_pins` and in the latch (R134). -/
theorem poll_of_read {k : Nat} {c : Chip} {s : State} (hk : s.chips[k]? = some c) (hce : c.ceN = false) (hoe : c.oeN = false)
    (hwe : c.weN = true) :
    poll k c s = { s with
      chips := s.chips.set k { c with
        dPins := chipByte k c.aPins.toNat s, latch := chipByte k c.aPins.toNat s, phase := .try }
      diag := s.diag ++ directEvents 1 k c.aPins.toNat s } := by
  have hcap := chipCapacity_of_some hk
  by_cases ha : c.aPins.toNat < c.capacity
  · rw [directEvents_of_lt (by rw [hcap]; exact ha), chipByte_of_lt hk ha]
    simp [poll, chipAction, hce, hoe, hwe, readCycle, ha, State.setChip]
  · have hle : chipCapacity k s ≤ c.aPins.toNat := by rw [hcap]; exact Nat.not_lt.mp ha
    rw [directEvents_of_le (by simpa using hle), chipByte_of_le hle]
    simp [poll, chipAction, hce, hoe, hwe, readCycle, ha, State.setChip, logOutOfRange_eq]

theorem eventStep_chip {k : Nat} {s t : State} (hfault : s.fault = none) (h : chipStep k s = some t) :
    eventStep (.chip k) s = some (.next t) := by
  rw [eventStep_of_no_fault hfault, agentStep, h]
  rfl

theorem eventStep_chipTimeout {k : Nat} {s t : State} (hfault : s.fault = none) (h : chipTimeoutStep k s = some t) :
    eventStep (.chipTimeout k) s = some (.next t) := by
  rw [eventStep_of_no_fault hfault, agentStep, h]
  rfl

/-- Settles O38: the phases' steps in turn, each enabled in the state the one before it left. -/
theorem chipReadCycleDrivesTheBusOrSkipsIt : Obligations.ChipReadCycleDrivesTheBusOrSkipsIt := by
  intro k c s rest hfault hk hphase halive hce hoe hwe
  have hself {l : List Chip} (hl : l.length = s.chips.length) (d : Chip) : (l.set k d)[k]? = some d :=
    List.getElem?_set_self (by rw [hl]; exact (List.getElem?_eq_some_iff.mp hk).1)
  have hpoll := eventStep_chip hfault ((chipStep_of_top hk hphase halive).trans (congrArg some (poll_of_read hk hce hoe hwe)))
  constructor
  · intro hfree
    have hplays : Plays [.chip k, .chip k, .chip k, .chip k] s _ :=
      .cons hpoll <| .cons (eventStep_chip hfault (chipStep_of_free (hself rfl _) (.inl rfl) hfree)) <|
        .cons (eventStep_chip hfault (chipStep_of_drive (hself (by simp) _) rfl)) <|
        .cons (eventStep_chip hfault (chipStep_of_rel (hself (by simp) _) rfl rfl)) <| .nil _
    refine (hplays.run rest).trans (congrArg Host.Outcome.next ?_)
    simp only [List.set_set, hphase, hfree]
    rfl
  · intro hheld
    have hplays : Plays [.chip k, .chip k, .chipTimeout k] s _ :=
      .cons hpoll <| .cons (eventStep_chip hfault (chipStep_of_held (hself rfl _) rfl hheld)) <|
        .cons (eventStep_chipTimeout hfault (chipTimeoutStep_of_wait (hself (by simp) _) rfl)) <| .nil _
    refine (hplays.run rest).trans (congrArg Host.Outcome.next ?_)
    simp only [List.set_set, hphase]
    rfl

/-- Putting the chip that is there back changes no chip. -/
theorem set_self_of_getElem? {l : List Chip} {k : Nat} {c : Chip} (hk : l[k]? = some c) : l.set k c = l := by
  obtain ⟨hlt, rfl⟩ := List.getElem?_eq_some_iff.mp hk
  exact List.set_getElem_self hlt

/-- What a chip's steps do to the pins, to its own data pins and to the other chips (R132, R146). -/
theorem chipEvent_pins {k : Nat} {c : Chip} {s t : State} (hok : s.chipOwnerOk) (hk : s.chips[k]? = some c)
    (h : eventStep (.chip k) s = some (.next t) ∨ eventStep (.chipTimeout k) s = some (.next t)) :
    (t.bus.pins ≠ s.bus.pins →
      s.bus.owner = some (.chip k) ∧ c.phase = .drive ∧ t.bus.pins = putData c.latch s.bus.pins) ∧
    ∃ c', t.chips = s.chips.set k c' ∧
      (c'.dPins ≠ c.dPins → c.phase = .top ∧ c.ceN = false ∧ c.oeN = false ∧ c.weN = true) := by
  obtain h | h := h
  · obtain ⟨d, hd, hcases⟩ := chipStep_cases (answers_eq_some_next (eventStep_some h).2)
    obtain rfl : d = c := Option.some.inj (hd.symm.trans hk)
    obtain ⟨hphase, -, rfl⟩ | ⟨-, -, rfl⟩ | ⟨-, -, rfl⟩ | ⟨hphase, rfl⟩ | ⟨-, rfl⟩ := hcases
    · obtain hpoll | hpoll | ⟨-, hpoll⟩ | ⟨hce, hoe, hwe, v, hpoll | hpoll⟩ := poll_cases k d s <;> rw [hpoll]
      · exact ⟨absurd rfl, d, (set_self_of_getElem? hk).symm, absurd rfl⟩
      · exact ⟨absurd rfl, d, (set_self_of_getElem? hk).symm, absurd rfl⟩
      · exact ⟨absurd rfl, _, rfl, absurd rfl⟩
      · exact ⟨absurd rfl, _, rfl, fun _ => ⟨hphase, hce, hoe, hwe⟩⟩
      · exact ⟨absurd rfl, _, rfl, fun _ => ⟨hphase, hce, hoe, hwe⟩⟩
    · exact ⟨absurd rfl, _, rfl, absurd rfl⟩
    · exact ⟨absurd rfl, _, rfl, absurd rfl⟩
    · exact ⟨fun _ => ⟨(hok.iff hk).mpr (by rw [hphase]; rfl), hphase, rfl⟩, _, rfl, absurd rfl⟩
    · exact ⟨absurd (releaseBus_pins _ s), _, rfl, absurd rfl⟩
  · obtain ⟨d, hd, -, rfl⟩ := chipTimeoutStep_cases (answers_eq_some_next (eventStep_some h).2)
    obtain rfl : d = c := Option.some.inj (hd.symm.trans hk)
    exact ⟨absurd rfl, _, rfl, absurd rfl⟩

/-- Settles O39: a chip's step sets that chip alone (`chipEvent_pins`). -/
theorem chipDrivesTheBusOnlyAsItsOwner : Obligations.ChipDrivesTheBusOnlyAsItsOwner := by
  intro k c s t hinv hk h
  obtain ⟨hpins, c', hchips, hdata⟩ := chipEvent_pins hinv.chipOwner hk h
  refine ⟨hpins, fun d hd hne => hdata ?_, fun j hj => by rw [hchips, List.getElem?_set_ne (Ne.symm hj)]⟩
  rw [hchips, List.getElem?_set_self (List.getElem?_eq_some_iff.mp hk).1] at hd
  rwa [Option.some.inj hd]

/-- Settles O40: at the loop top each agent's step asks for its run flag, and a chip there is outside its own bracket. -/
theorem stoppedAgentsTakeNoStepAtTheirTop : Obligations.StoppedAgentsTakeNoStepAtTheirTop := by
  refine fun s => ⟨fun hstop hseq => ?cpu, fun k c hk hstop hphase => ⟨?_, ?_, fun hinv => ?_⟩, fun hstop => ⟨?_, rfl⟩⟩
  case cpu =>
    have hdispatch := dispatchStart_of_stopped hstop
    constructor
    · unfold cpuStep
      cases s.cpu.state <;> simp [powerOnReady, hstop, phaseStep, hseq, dispatchStep, hdispatch, answers]
    · simp [cpuSpanStep, powerOnReady, hstop, hdispatch]
  · simp [chipStep, hk, chipPhaseStep, hphase, hstop]
  · simp [chipTimeoutStep, hk, hphase]
  · rw [ne_eq, hinv.chipOwner.iff hk, hphase]
    simp [ChipPhase.holdsBus]
  · simp [clockAgentStep, hstop]

end Sys2Proof.Machine
end

section
/-! PROOFS. The execution state's transitions, and what happens along a run: dispatches are debounced, an enabled oscillator keeps
toggling, and waits end (spec/44_cpu_sequencer.md R219–R224, spec/43_clock.md R187, spec/40_bus_arbiter.md R104). -/

namespace Sys2Proof.Machine

/-! ### The transitions of the execution state (R224) -/

/-- An `EXEC` step changes the execution state only for `BRK`, which halts (R216). -/
theorem exec_state {i : Instr} {s t : State} (hformat : i.format ≠ .abs) (h : exec i s = .next t) :
    t.cpu.state = s.cpu.state ∨ (i = .brk ∧ t.cpu.state = .halted) := by
  obtain ⟨rd, v, -, -, he⟩ | ⟨-, he⟩ | ⟨hbrk, he⟩ | ⟨rd, ea, -, -, habs, he⟩ | ⟨ea, rfl, he⟩ := exec_cases i s
  case inr.inr.inr.inl => exact absurd habs hformat
  case inr.inr.inr.inr => exact absurd rfl hformat
  all_goals rw [he] at h; cases h
  · cases rd <;> exact .inl rfl
  · exact .inl rfl
  · exact .inr ⟨hbrk, rfl⟩

theorem absMem_state (acc : AbsAccess) (ea : Addr) (s : State) : (absMem acc ea s).cpu.state = s.cpu.state := by
  cases acc with
  | load rd => exact (absMem_load_kept rd ea s).1
  | store => exact (absMem_store_kept ea s).1

/-- What a step of the CPU that changes its state was. -/
theorem CpuMove.state_changed {e : Event} {s t : State} (h : CpuMove s e t) (hinv : CpuInv s)
    (hstate : t.cpu.state ≠ s.cpu.state) :
    (s.cpu.state = .powerOn ∧ t.cpu.state = .reset ∧ e = .cpu) ∨
    ((s.cpu.state = .running ∨ s.cpu.state = .halted) ∧ t.cpu.state = .reset ∧ e = .cpu ∧
      s.cpu.seq = .waitHi ∧ s.cpu.resb = false ∧ s.clock.clkPin = true ∧ s.cpu.alive = true) ∨
    (s.cpu.state = .reset ∧ t.cpu.state = .running ∧ e = .cpu ∧ s.cpu.seq = .rstEnd) ∨
    (s.cpu.state = .running ∧ t.cpu.state = .halted ∧ e = .cpu ∧
      ((s.cpu.seq = .exec ∧ latchedInstr s = some .brk) ∨
       (s.cpu.seq = .fetchOp ∧ (s.routeOf s.cpu.pc = none ∨ formatOf (memByte s.cpu.pc s) = none)) ∨
       ((s.cpu.seq = .fetchB1 ∨ s.cpu.seq = .fetchB2) ∧ s.routeOf s.cpu.pc = none))) := by
  have hrunning (hhi : s.cpu.seq ≠ .waitHi) (hlo : s.cpu.seq ≠ .waitLo) (hreset : s.cpu.seq.inReset = false) :=
    hinv.running_of_seq hhi hlo hreset
  cases h with
  | resetEntry halive hwhen =>
    obtain hon | ⟨hseq, hon, hhigh, hresb⟩ := hwhen
    · exact .inl ⟨hon, rfl, rfl⟩
    · exact .inr (.inl ⟨hon, rfl, rfl, hseq, hresb, hhigh, halive⟩)
  | resetEnd hseq => exact .inr (.inr (.inl ⟨hinv.reset_of_seq (by rw [hseq]; rfl), rfl, rfl, hseq⟩))
  | fetchOp hseq =>
    have hrun := hrunning (by simp [hseq]) (by simp [hseq]) (by rw [hseq]; rfl)
    obtain ⟨ev, ⟨hhalt, he⟩ | ⟨-, he⟩ | ⟨-, he⟩⟩ := fetchOp_cases s <;> rw [he] at hstate ⊢
    · exact .inr (.inr (.inr ⟨hrun, rfl, rfl, .inr (.inl ⟨hseq, hhalt⟩)⟩))
    · exact absurd rfl hstate
    · exact absurd rfl hstate
  | fetchB1 hseq =>
    have hrun := hrunning (by simp [hseq]) (by simp [hseq]) (by rw [hseq]; rfl)
    obtain ⟨ev, ⟨hmiss, he⟩ | ⟨-, he⟩ | ⟨-, he⟩⟩ := fetchB1_cases (hinv.latch.1 hseq) <;> rw [he] at hstate ⊢
    · exact .inr (.inr (.inr ⟨hrun, rfl, rfl, .inr (.inr ⟨.inl hseq, hmiss⟩)⟩))
    · exact absurd rfl hstate
    · exact absurd rfl hstate
  | fetchB2 hseq =>
    have hrun := hrunning (by simp [hseq]) (by simp [hseq]) (by rw [hseq]; rfl)
    obtain ⟨ev, ⟨hmiss, he⟩ | he⟩ := fetchB2_cases s <;> rw [he] at hstate ⊢
    · exact .inr (.inr (.inr ⟨hrun, rfl, rfl, .inr (.inr ⟨.inr hseq, hmiss⟩)⟩))
    · exact absurd rfl hstate
  | exec hseq i hi hformat t hexec =>
    have hrun := hrunning (by simp [hseq]) (by simp [hseq]) (by rw [hseq]; rfl)
    obtain ⟨rfl, hhalt⟩ := (exec_state hformat hexec).resolve_left hstate
    exact .inr (.inr (.inr ⟨hrun, hhalt, rfl, .inl ⟨hseq, hi⟩⟩))
  | absAddr _ acc => cases acc <;> exact absurd rfl hstate
  | absData _ acc => cases acc <;> exact absurd rfl hstate
  | absMem _ acc => exact absurd (absMem_state acc _ s) hstate
  | rstReadLo => exact absurd (by rw [rstReadLo_eq]) hstate
  | rstReadHi => exact absurd (by rw [rstReadHi_eq]) hstate
  | _ => exact absurd rfl hstate

/-- Settles O23: the CPU's own steps are `CpuMove.state_changed`; of the other agents' only `power_on` changes the state. -/
theorem execStateTransitions : Obligations.ExecStateTransitions := by
  intro e s t hinv hspan h hstate
  by_cases he : e = .cpu ∨ e = .cpuTimeout
  · exact .inr ((eventStep_cpu h he).state_changed hinv.cpuInv hstate)
  · simp only [not_or] at he
    obtain hcpu | ⟨p, -, hcpu⟩ | ⟨hevent, hcpu⟩ | ⟨-, hcpu⟩ := eventStep_cpu_cases h he.1 he.2 hspan
    · exact absurd (by rw [hcpu]) hstate
    · exact absurd (by rw [hcpu]; rfl) hstate
    · by_cases hoff : s.cpu.state = .powerOff
      · exact .inl ⟨hoff, by rw [hcpu]; exact if_pos hoff, hevent⟩
      · exact absurd (by rw [hcpu]; exact if_neg hoff) hstate
    · exact absurd (by rw [hcpu]) hstate

/-! ### Debouncing (R219, R220) -/

/-- A fetch of the second byte does not lead to `WAIT_HI`. -/
theorem fetchB1_seq {s : State} (hseq : s.cpu.seq = .fetchB1) : (fetchB1 s).cpu.seq ≠ .waitHi := by
  by_cases hhit : (s.routeOf s.cpu.pc).isSome = true
  · unfold fetchB1
    rw [fetch_of_hit hhit]
    dsimp only
    split
    · split <;> simp [hseq]
    · simp [hseq]
  · rw [fetchB1_of_miss (by simpa using hhit)]
    nofun

/-- The CPU comes to `WAIT_HI` only from `WAIT_LO`, with `PHI0` low (R219). -/
theorem CpuMove.to_waitHi {e : Event} {s t : State} (h : CpuMove s e t) (ht : t.cpu.seq = .waitHi) :
    s.cpu.seq = .waitLo ∧ s.clock.clkPin = false := by
  cases h with
  | waitLo hseq hlow => exact ⟨hseq, hlow⟩
  | fetchOp => obtain ⟨ev, ⟨-, he⟩ | ⟨-, he⟩ | ⟨-, he⟩⟩ := fetchOp_cases s <;> rw [he] at ht <;> cases ht
  | fetchB1 hseq => exact absurd ht (fetchB1_seq hseq)
  | fetchB2 => obtain ⟨ev, ⟨-, he⟩ | he⟩ := fetchB2_cases s <;> rw [he] at ht <;> cases ht
  | exec _ i _ _ t hexec => rw [exec_seq hexec] at ht; cases ht
  | absAddr _ acc => cases acc <;> cases ht
  | absData _ acc => cases acc <;> cases ht
  | absMem _ acc =>
    cases acc with
    | load rd => rw [(absMem_load_kept rd _ s).2.1] at ht; cases ht
    | store => rw [(absMem_store_kept _ s).2] at ht; cases ht
  | rstReadLo => rw [rstReadLo_eq] at ht; cases ht
  | rstReadHi => rw [rstReadHi_eq] at ht; cases ht
  | _ => cases ht

/-- So does every event. -/
theorem eventStep_to_waitHi {e : Event} {s t : State} (h : eventStep e s = some (.next t)) (hs : s.cpu.seq ≠ .waitHi)
    (ht : t.cpu.seq = .waitHi) : s.cpu.seq = .waitLo ∧ s.clock.clkPin = false := by
  by_cases hspan : e = .cpuSpan
  · subst hspan
    obtain ⟨hfault, h⟩ := eventStep_some h
    rw [(cpuPlays_cpuSpanStep hfault h).2] at ht
    cases ht
  by_cases he : e = .cpu ∨ e = .cpuTimeout
  · exact (eventStep_cpu h he).to_waitHi ht
  · simp only [not_or] at he
    refine absurd ?_ hs
    obtain hcpu | ⟨p, -, hcpu⟩ | ⟨-, hcpu⟩ | ⟨-, hcpu⟩ := eventStep_cpu_cases h he.1 he.2 hspan <;> rw [hcpu] at ht <;> exact ht

/-- Between an index where a property fails and a later one where it holds, there is a first step that brings it about. -/
theorem exists_step_of_not {p : Nat → Prop} {n m : Nat} (hle : n ≤ m) (hn : ¬ p n) (hm : p m) :
    ∃ j, n ≤ j ∧ j < m ∧ ¬ p j ∧ p (j + 1) := by
  induction m, hle using Nat.le_induction with
  | base => exact absurd hm hn
  | succ m hle ih =>
    by_cases hlast : p m
    · obtain ⟨j, hj, hjm, hstep⟩ := ih hlast
      exact ⟨j, hj, Nat.lt_succ_of_lt hjm, hstep⟩
    · exact ⟨m, hle, Nat.lt_succ_self m, hlast, hm⟩

/-- Settles O24: after the first dispatch the CPU is off `WAIT_HI`, and it comes back to it only past `WAIT_LO`. -/
theorem dispatchesAreDebounced : Obligations.DispatchesAreDebounced := by
  rintro ev r hrun n m hnm ⟨-, hleft⟩ ⟨hback, -⟩
  obtain ⟨j, hnj, hjm, hoff, hon⟩ := exists_step_of_not (p := fun j => (r j).cpu.seq = .waitHi) hnm hleft hback
  obtain ⟨hlo, hlow⟩ := eventStep_to_waitHi (hrun j) hoff hon
  exact ⟨j, hnj, hjm, hlo, hlow, hon⟩

/-! ### Fair runs (R104, R187, D49) -/

/-- Settles O51: fairness gives the enabled oscillator a step, and its step toggles the pin. -/
theorem astableClockKeepsToggling : Obligations.AstableClockKeepsToggling := by
  intro ev r ⟨hrun, hfair⟩ ⟨n₀, hready⟩ n
  have henabled (m : Nat) (hm : n₀ ≤ m) : ∃ e, stepsOf .clock e ∧ enabled e (r m) := by
    obtain ⟨hmode, halive, hspeed⟩ := hready m hm
    refine ⟨.clock, rfl, ?_⟩
    simp [enabled, eventStep_of_no_fault (eventStep_some (hrun m)).1, agentStep, answers,
      clockAgentStep_of_ready hmode halive hspeed]
  obtain ⟨m, hnm, hclock⟩ := hfair .clock ⟨n₀, henabled⟩ n
  have hstep := hrun m
  rw [show ev m = .clock from hclock] at hstep
  obtain ⟨-, -, -, htoggled⟩ := clockAgentStep_cases (answers_eq_some_next (eventStep_some hstep).2)
  exact ⟨m, hnm, by simp [htoggled, toggleClock]⟩

theorem IsRun.inv {ev : Nat → Event} {r : Nat → State} (hrun : IsRun ev r) {n m : Nat} (hle : n ≤ m) (hinv : (r n).Inv) :
    (r m).Inv := by
  induction m, hle using Nat.le_induction with
  | base => exact hinv
  | succ m _ ih => exact eventStep_inv ih (hrun m)

/-- A condition under which an agent always has a step, and which each of its steps ends, does not last in a fair run. -/
theorem FairRun.leaves {ev : Nat → Event} {r : Nat → State} (h : FairRun ev r) {ag : FairAgent} {n : Nat} {waits : State → Prop}
    (hwaits : waits (r n)) (henabled : ∀ m, n ≤ m → waits (r m) → ∃ e, stepsOf ag e ∧ enabled e (r m))
    (hleaves : ∀ m, n ≤ m → waits (r m) → stepsOf ag (ev m) → ¬ waits (r (m + 1))) : ∃ m, n < m ∧ ¬ waits (r m) := by
  by_contra hnever
  push Not at hnever
  have hstays (m : Nat) (hm : n ≤ m) : waits (r m) := by
    obtain rfl | hlt := Nat.eq_or_lt_of_le hm
    · exact hwaits
    · exact hnever m hlt
  obtain ⟨m, hm, hstep⟩ := h.2 ag ⟨n, fun m hm => henabled m hm (hstays m hm)⟩ n
  exact hleaves m hm (hstays m hm) hstep (hstays (m + 1) (Nat.le_succ_of_le hm))

/-! The CPU's wait. -/

/-- A step of the CPU in a wait phase leaves it: the grant, the timeout, or the reset entry. -/
theorem CpuMove.leaves_wait {e : Event} {s t : State} (h : CpuMove s e t)
    (hwait : s.cpu.seq = .absWait ∨ s.cpu.seq = .rstWait) : t.cpu.seq ≠ s.cpu.seq := by
  cases h with
  | resetEntry | absGranted | absTimeout | rstGranted | rstTimeout => rcases hwait with hwait | hwait <;> rw [hwait] <;> nofun
  | _ => simp_all

theorem eventStep_leaves_cpuWait {e : Event} {s t : State} (h : eventStep e s = some (.next t)) (he : stepsOf .cpu e)
    (hwait : s.cpu.seq = .absWait ∨ s.cpu.seq = .rstWait) : t.cpu.seq ≠ s.cpu.seq := by
  obtain he | he | rfl := he
  · exact (eventStep_cpu h (.inl he)).leaves_wait hwait
  · exact (eventStep_cpu h (.inr he)).leaves_wait hwait
  · obtain ⟨hfault, h⟩ := eventStep_some h
    rw [(cpuPlays_cpuSpanStep hfault h).2]
    rcases hwait with hwait | hwait <;> rw [hwait] <;> nofun

/-- The timeout of a waiting CPU is enabled (R103). -/
theorem cpuTimeout_enabled {s : State} (hfault : s.fault = none) (hinv : s.Inv)
    (hwait : s.cpu.seq = .absWait ∨ s.cpu.seq = .rstWait) : enabled .cpuTimeout s := by
  rw [enabled, eventStep_of_no_fault hfault, agentStep]
  rcases hwait with hseq | hseq
  · have hrun := hinv.cpuInv.running_of_seq (by simp [hseq]) (by simp [hseq]) (by rw [hseq]; rfl)
    rw [cpuTimeoutStep_of_absWait (switchedOn_of_running hrun) hseq]
    nofun
  · have hreset := hinv.cpuInv.reset_of_seq (by rw [hseq]; rfl)
    rw [cpuTimeoutStep_of_rstWait (switchedOn_of_reset hreset) hseq]
    nofun

/-! A chip's wait. -/

/-- Chip `k` waits for the bus (`C_WAIT`, R134). -/
def chipWaits (k : Nat) (s : State) : Prop := ∃ c, s.chips[k]? = some c ∧ c.phase = .wait

theorem chipTimeout_enabled {k : Nat} {s : State} (hfault : s.fault = none) (hwait : chipWaits k s) :
    enabled (.chipTimeout k) s := by
  obtain ⟨c, hk, hphase⟩ := hwait
  rw [enabled, eventStep_chipTimeout hfault (chipTimeoutStep_of_wait hk hphase)]
  nofun

/-- A step of the chip takes it to `C_DRIVE` or back to `C_TOP` (R134, R135). -/
theorem eventStep_leaves_chipWait {k : Nat} {e : Event} {s t : State} (h : eventStep e s = some (.next t))
    (he : stepsOf (.chip k) e) (hwait : chipWaits k s) : ¬ chipWaits k t := by
  obtain ⟨c, hk, hphase⟩ := hwait
  have hlt := (List.getElem?_eq_some_iff.mp hk).1
  rintro ⟨c', hk', hphase'⟩
  have hafter {q : ChipPhase} (hchips : t.chips = s.chips.set k { c with phase := q }) : q = .wait := by
    rw [hchips, List.getElem?_set_self hlt] at hk'
    cases hk'
    exact hphase'
  obtain rfl | rfl := he
  · by_cases hfree : s.bus.owner = none
    · rw [eventStep_chip (eventStep_some h).1 (chipStep_of_free hk (.inr hphase) hfree)] at h
      cases h
      cases hafter rfl
    · have hstep := answers_eq_some_next (eventStep_some h).2
      rw [chipStep_of_wait_held hk hphase hfree] at hstep
      cases hstep
  · rw [eventStep_chipTimeout (eventStep_some h).1 (chipTimeoutStep_of_wait hk hphase)] at h
    cases h
    cases hafter rfl

/-- A run keeps the number of chips (R25). -/
theorem IsRun.chips_length {ev : Nat → Event} {r : Nat → State} (hrun : IsRun ev r) {n m : Nat} (hle : n ≤ m) :
    (r m).chips.length = (r n).chips.length := by
  induction m, hle using Nat.le_induction with
  | base => rfl
  | succ m _ ih => simpa [ih] using congrArg List.length ((eventStep_configs (hrun m)).2 ChipConfig.mk)

/-! The host's wait. -/

theorem hostTimeout_enabled {s : State} (hfault : s.fault = none) (hwait : s.hostPhase = .wait) : enabled .hostTimeout s := by
  simp [enabled, eventStep_of_no_fault hfault, agentStep, answers, hostTimeoutStep, hwait]

theorem eventStep_leaves_hostWait {e : Event} {s t : State} (h : eventStep e s = some (.next t))
    (he : stepsOf .hostRequest e) : t.hostPhase = .idle := by
  obtain rfl | rfl := he
  · obtain ⟨-, -, rfl⟩ := hostGrantStep_cases (answers_eq_some_next (eventStep_some h).2)
    rfl
  · obtain ⟨-, rfl⟩ := hostTimeoutStep_cases (answers_eq_some_next (eventStep_some h).2)
    rfl

/-- Settles O60: in each wait the timeout stays enabled and every step of the waiting agent ends it (`FairRun.leaves`). -/
theorem waitsEndInAFairRun : Obligations.WaitsEndInAFairRun := by
  intro ev r hfair n hinv
  have hrun : IsRun ev r := hfair.1
  have hfault (m : Nat) : (r m).fault = none := (eventStep_some (hrun m)).1
  refine ⟨fun hwait => ?cpu, fun k c hk hphase => ?chip, fun hwait => ?host⟩
  case cpu =>
    refine hfair.leaves (ag := .cpu) (waits := fun s => s.cpu.seq = (r n).cpu.seq) rfl (fun m hm hseq => ?_)
      fun m hm hseq he => ?_
    · exact ⟨.cpuTimeout, .inr (.inl rfl), cpuTimeout_enabled (hfault m) (hrun.inv hm hinv) (by rwa [hseq])⟩
    · rw [← hseq]
      exact eventStep_leaves_cpuWait (hrun m) he (by rwa [hseq])
  case chip =>
    obtain ⟨m, hm, hleft⟩ := hfair.leaves (ag := .chip k) (waits := chipWaits k) ⟨c, hk, hphase⟩
      (fun m _ hwait => ⟨.chipTimeout k, .inr rfl, chipTimeout_enabled (hfault m) hwait⟩)
      fun m _ hwait he => eventStep_leaves_chipWait (hrun m) he hwait
    have hlt : k < (r m).chips.length := by
      rw [hrun.chips_length (Nat.le_of_lt hm)]
      exact (List.getElem?_eq_some_iff.mp hk).1
    exact ⟨m, (r m).chips[k], hm, List.getElem?_eq_getElem hlt, fun hwait => hleft ⟨_, List.getElem?_eq_getElem hlt, hwait⟩⟩
  case host =>
    obtain ⟨m, hm, hleft⟩ := hfair.leaves (ag := .hostRequest) (waits := fun s => s.hostPhase = .wait) hwait
      (fun m _ hwait => ⟨.hostTimeout, .inr rfl, hostTimeout_enabled (hfault m) hwait⟩)
      fun m _ _ he hwait => by rw [eventStep_leaves_hostWait (hrun m) he] at hwait; cases hwait
    refine ⟨m, hm, ?_⟩
    cases hphase : (r m).hostPhase with
    | idle => rfl
    | wait => exact absurd hphase hleft

end Sys2Proof.Machine
end
